-- ==== Sys2Proof/Word.lean ====
section
/-! DEFINITION. The 64-bit word and the byte (spec/00_scope.md rules R6, R7, R13). -/

namespace Sys2Proof

/-- R7: every register and every cell is a 64-bit value. -/
abbrev Word := BitVec 64

/-- The smallest addressable unit (R50: byte addresses). -/
abbrev Byte := BitVec 8

end Sys2Proof
end

