-- ==== Sys2Proof/Config.lean ====
section
/-! DEFINITION. The parameters of a Machine (spec/00_scope.md rules R8 to R10, spec/10_state.md rule R21), the form of
one answer of the host oracle (R12, R205), and the free values: opaque constants, of which nothing can be proved. -/

namespace Sys2Proof

/-- R10: how LC widens a byte, and how SC re-reads the stored byte. -/
inductive LcExtend where
  | sign
  | zero
  deriving DecidableEq, Repr

/-- R21: what is fixed when a Machine is constructed. Addresses and sizes are natural numbers because the spec's
constraints on them (R9: `BASE + POOLSIZE <= 2^64`) are stated over unbounded integers. -/
structure Params where
  poolSize  : Nat
  codeBase  : Nat
  dataBase  : Nat
  stackBase : Nat
  lcExtend  : LcExtend
  deriving DecidableEq, Repr

/-- One answer of the host oracle, before the laws of spec/45_host_calls.md are imposed on it. Which parts a call
reads is said where the call is served (Machine/HostCalls.lean). -/
structure HostAnswer where
  /-- the proposed 64-bit result -/
  value : Word
  /-- bytes the host chooses: what READ delivers, what MALC's fresh range holds -/
  bytes : List Byte
  /-- the host answers HOST_FAULT although no rule makes it, or names one of several failures (log entries 9, 10, 22) -/
  fails : Option Word
  /-- which of MCMP's two ranges is reported when both are unreadable (log entry 11) -/
  pick  : Bool
  deriving DecidableEq, Repr, Inhabited

/-- DESIGN CHOICE (log entry 1): the layout of the machine that `State.reset` describes: the layout R9 names for the
test vectors, and R10's default extension. No claim is limited to it: every state carries its own parameters. -/
def Config.params : Params where
  poolSize  := 0x1000
  codeBase  := 0x10000
  dataBase  := 0x20000
  stackBase := 0x30000
  lcExtend  := .sign

/-- FREE VALUE (R185, R186, log entry 5): the n-th ShiftDraw, "any 64-bit value". -/
opaque Config.shiftDraw : Nat → Word

/-- FREE VALUE (R12, U16, log entries 3, 4): what the host answers to a call for which no answer is queued in State;
`none` is a host that never answers. -/
opaque Config.freeAnswer : Nat → Option HostAnswer

end Sys2Proof
end

