-- ==== Sys2Proof/Syntax.lean ====
section
/-! DEFINITION. The 39 instructions of spec/opcode_table.json, one constructor each, in the table's order
(spec/30_encoding.md rule R87). The eight Format I instructions carry their operand cell whole (R85). -/

namespace Sys2Proof

inductive Instr where
  | lea (imm : Word)
  | imm (imm : Word)
  | jmp (imm : Word)
  | call (imm : Word)
  | jz (imm : Word)
  | jnz (imm : Word)
  | ent (imm : Word)
  | adj (imm : Word)
  | lev
  | li
  | lc
  | si
  | sc
  | push
  | or
  | xor
  | and
  | eq
  | ne
  | lt
  | gt
  | le
  | ge
  | shl
  | shr
  | add
  | sub
  | mul
  | div
  | mod
  | opn
  | read
  | clos
  | prtf
  | malc
  | free
  | mset
  | mcmp
  | exit
  deriving DecidableEq, Repr

end Sys2Proof
end

