-- ==== Sys2Proof/WellFormed.lean ====
section
/-! DEFINITION. Well-formedness: of an instruction (spec/30_encoding.md rule R85) and of the parameters a Machine may
be constructed with (spec/00_scope.md rules R8, R9; spec/47_host_interface.md rule R230). -/

namespace Sys2Proof

/-- R85: "No operand value is reserved", and the type of an operand is already the whole 64-bit cell, so every term
of `Instr` is well formed. There is no check that could fail. -/
def Instr.wf : Instr → Bool
  | _ => true

/-- Whether two ranges of `n` bytes have no address in common. -/
def rangesDisjoint (a b n : Nat) : Bool :=
  decide (a + n ≤ b) || decide (b + n ≤ a)

/-- R9's conditions on one base: a multiple of CELL, at least CELL, and the whole segment inside the address space. -/
def baseOk (base poolSize : Nat) : Bool :=
  decide (base % 8 = 0) && decide (8 ≤ base) && decide (base + poolSize ≤ 2 ^ 64)

/-- R8 and R9: the parameters with which construction succeeds. -/
def Params.wf (p : Params) : Bool :=
  decide (p.poolSize % 8 = 0) && decide (48 ≤ p.poolSize)
    && baseOk p.codeBase p.poolSize && baseOk p.dataBase p.poolSize && baseOk p.stackBase p.poolSize
    && rangesDisjoint p.codeBase p.dataBase p.poolSize
    && rangesDisjoint p.codeBase p.stackBase p.poolSize
    && rangesDisjoint p.dataBase p.stackBase p.poolSize

end Sys2Proof
end

