-- ==== Sys2Proof/Decode.lean ====
section
/-! DEFINITION. Bytes and cells (spec/20_memory.md rules R51, R52), the decoder and, after it, the encoder
(spec/30_encoding.md rules R80 to R88). The decoder reads any list of bytes and rejects by name. -/

namespace Sys2Proof

/-- R52: `v[8i+7:8i]`, the byte a cell holding `v` has at its address plus `i`. -/
def byteOf (v : Word) (i : Nat) : Byte := (v >>> (8 * i)).setWidth 8

/-- R51, R52: the eight bytes of a cell, the lowest address first. -/
def cellBytes (v : Word) : List Byte := (List.range 8).map (byteOf v)

/-- R52: the value of the `n` bytes that `rd` gives from address `a` on, the lowest address least significant. -/
def leWord (rd : Nat → Byte) (a : Nat) : Nat → Word
  | 0 => 0
  | n + 1 => (rd a).setWidth 64 ||| (leWord rd (a + 1) n <<< 8)

/-- R83: an opcode cell is valid if and only if `0 <= s(cell0) <= 38`. -/
def validOpcode (op : Word) : Bool := decide (0 ≤ op.toInt) && decide (op.toInt ≤ 38)

/-- R84: the number of cells of the instruction whose opcode cell is `op`, invalid opcodes included. -/
def widthCells (op : Word) : Nat := if 0 ≤ op.toInt ∧ op.toInt ≤ 7 then 2 else 1

/-- R87: the opcode map. `imm` is the operand cell, which a Format N instruction does not have. -/
def decodeInstr (op imm : Word) : Option Instr :=
  match op.toNat with
  | 0 => some (.lea imm)
  | 1 => some (.imm imm)
  | 2 => some (.jmp imm)
  | 3 => some (.call imm)
  | 4 => some (.jz imm)
  | 5 => some (.jnz imm)
  | 6 => some (.ent imm)
  | 7 => some (.adj imm)
  | 8 => some .lev
  | 9 => some .li
  | 10 => some .lc
  | 11 => some .si
  | 12 => some .sc
  | 13 => some .push
  | 14 => some .or
  | 15 => some .xor
  | 16 => some .and
  | 17 => some .eq
  | 18 => some .ne
  | 19 => some .lt
  | 20 => some .gt
  | 21 => some .le
  | 22 => some .ge
  | 23 => some .shl
  | 24 => some .shr
  | 25 => some .add
  | 26 => some .sub
  | 27 => some .mul
  | 28 => some .div
  | 29 => some .mod
  | 30 => some .opn
  | 31 => some .read
  | 32 => some .clos
  | 33 => some .prtf
  | 34 => some .malc
  | 35 => some .free
  | 36 => some .mset
  | 37 => some .mcmp
  | 38 => some .exit
  | _ => none

/-- Why a list of bytes holds no instruction. -/
inductive DecodeError where
  /-- R88: the opcode cell's value is outside 0..38 -/
  | unknownOpcode (cell : Word)
  /-- fewer bytes than the opcode cell, or than the operand cell it asks for -/
  | truncated
  deriving DecidableEq, Repr

/-- The first cell of a list of bytes, and the rest. -/
def takeCell : List Byte → Option (Word × List Byte)
  | b0 :: b1 :: b2 :: b3 :: b4 :: b5 :: b6 :: b7 :: rest =>
    some (leWord (fun i => [b0, b1, b2, b3, b4, b5, b6, b7].getD i 0) 0 8, rest)
  | _ => none

/-- R81, R82, R86: decoding a byte string: the opcode cell, then the operand cell where the width is two. -/
def decodeBytes (bs : List Byte) : Except DecodeError (Instr × List Byte) :=
  match takeCell bs with
  | none => .error .truncated
  | some (op, rest) =>
    if validOpcode op = false then .error (.unknownOpcode op)
    else if widthCells op = 2 then
      match takeCell rest with
      | none => .error .truncated
      | some (imm, rest') =>
        match decodeInstr op imm with
        | some i => .ok (i, rest')
        | none => .error (.unknownOpcode op)
    else
      match decodeInstr op 0 with
      | some i => .ok (i, rest)
      | none => .error (.unknownOpcode op)

/-- R87: the opcode value of an instruction. -/
def Instr.opcode : Instr → Word
  | .lea _ => 0
  | .imm _ => 1
  | .jmp _ => 2
  | .call _ => 3
  | .jz _ => 4
  | .jnz _ => 5
  | .ent _ => 6
  | .adj _ => 7
  | .lev => 8
  | .li => 9
  | .lc => 10
  | .si => 11
  | .sc => 12
  | .push => 13
  | .or => 14
  | .xor => 15
  | .and => 16
  | .eq => 17
  | .ne => 18
  | .lt => 19
  | .gt => 20
  | .le => 21
  | .ge => 22
  | .shl => 23
  | .shr => 24
  | .add => 25
  | .sub => 26
  | .mul => 27
  | .div => 28
  | .mod => 29
  | .opn => 30
  | .read => 31
  | .clos => 32
  | .prtf => 33
  | .malc => 34
  | .free => 35
  | .mset => 36
  | .mcmp => 37
  | .exit => 38

/-- R82: the operand cell of a Format I instruction. -/
def Instr.operand : Instr → Option Word
  | .lea w => some w
  | .imm w => some w
  | .jmp w => some w
  | .call w => some w
  | .jz w => some w
  | .jnz w => some w
  | .ent w => some w
  | .adj w => some w
  | .lev => none
  | .li => none
  | .lc => none
  | .si => none
  | .sc => none
  | .push => none
  | .or => none
  | .xor => none
  | .and => none
  | .eq => none
  | .ne => none
  | .lt => none
  | .gt => none
  | .le => none
  | .ge => none
  | .shl => none
  | .shr => none
  | .add => none
  | .sub => none
  | .mul => none
  | .div => none
  | .mod => none
  | .opn => none
  | .read => none
  | .clos => none
  | .prtf => none
  | .malc => none
  | .free => none
  | .mset => none
  | .mcmp => none
  | .exit => none

/-- R84: the number of cells of an instruction. -/
def Instr.width (i : Instr) : Nat := if i.operand.isSome then 2 else 1

/-- R81, R82: the cells of an instruction. -/
def encode (i : Instr) : List Word := i.opcode :: i.operand.toList

/-- R80: the bytes of an instruction as they stand in memory. -/
def encodeBytes (i : Instr) : List Byte := (encode i).flatMap cellBytes

/-- R87: the mnemonic an opcode cell's value has in the opcode map, where it has one (trace and disassembly use it,
R91). -/
def mnemonicOf (op : Word) : Option String :=
  if validOpcode op then
    ["LEA", "IMM", "JMP", "CALL", "JZ", "JNZ", "ENT", "ADJ", "LEV", "LI", "LC", "SI", "SC", "PUSH",
     "OR", "XOR", "AND", "EQ", "NE", "LT", "GT", "LE", "GE", "SHL", "SHR", "ADD", "SUB", "MUL", "DIV", "MOD",
     "OPEN", "READ", "CLOS", "PRTF", "MALC", "FREE", "MSET", "MCMP", "EXIT"][op.toNat]?
  else none

/-- The instruction this decoder reads from the bits `w` of a row of the opcode table: bit 0 is the least significant
bit of the first cell, the second cell's bits count on from bit 64, and every bit from `nbits` on is 0. -/
def decodeTableWord (nbits w : Nat) : Option Instr :=
  let v := w % 2 ^ nbits
  match decodeBytes (cellBytes (BitVec.ofNat 64 v) ++ cellBytes (BitVec.ofNat 64 (v / 2 ^ 64))) with
  | .ok (i, _) => some i
  | .error _ => none

end Sys2Proof
end

