-- ==== Sys2Proof/Machine/State.lean ====
section
/-! DEFINITION. The state of one Machine (spec/10_state.md rules R20 to R38), of the host memory behind it
(spec/20_memory.md rule R58) and of its request port, and the state after reset. Plain data throughout. -/

namespace Sys2Proof.Machine

/-- R26: the lifecycle tag. -/
inductive Status where
  | init
  | running
  | exit
  | error
  | fault
  deriving DecidableEq, Repr

/-- R31: why the Machine last halted abnormally. -/
inductive FaultCause where
  | none
  | fetchSegment
  | fetchMisaligned
  | fetchUncommitted
  | stackRange
  | dataAddress
  | dataMisaligned
  | divZero
  | divOverflow
  | hostFault
  | unknownOpcode
  deriving DecidableEq, Repr

/-- R34: the three segments. -/
inductive Seg where
  | code
  | data
  | stack
  deriving DecidableEq, Repr

/-- R100: the run mode of the execution request being served. -/
inductive RunMode where
  | blocking
  | guarded
  deriving DecidableEq, Repr

/-- R107: one trace event: the cycle number, the opcode cell and the operand cell, if any. -/
structure TraceEvent where
  cycle   : Word
  opcode  : Word
  operand : Option Word
  deriving DecidableEq, Repr

/-- R205, R217: one request the dispatcher sends to the host oracle, with its arguments. -/
inductive HostRequest where
  | opn (path flags : Word)
  | read (fd buf count : Word)
  | clos (fd : Word)
  | prtf (fmt v1 v2 v3 v4 v5 : Word)
  | malc (size : Word)
  | free (ptr : Word)
  | mset (dst val len : Word)
  | mcmp (a b len : Word)
  deriving DecidableEq, Repr

/-- R20, R21, R58: the Machine, the parameters it was constructed with, the host memory and the request port. -/
structure State where
  /-- R21: the parameters; no step and no host operation changes them -/
  par : Params
  /-- R23: the program counter, a byte address -/
  pc : Word
  /-- R24: the frame base -/
  bp : Word
  /-- R24: the stack top -/
  sp : Word
  /-- R22: the accumulator -/
  ax : Word
  /-- R26 -/
  status : Status
  /-- R27: the number of committed code cells -/
  opCounter : Nat
  /-- R28: the byte address of the next free constant; one past the segment's end when full -/
  dataCursor : Nat
  /-- R29: the count of fetched instructions -/
  cycle : Word
  /-- R30: the value EXIT recorded -/
  exitValue : Word
  /-- R31 -/
  faultCause : FaultCause
  /-- R32 -/
  faultPc : Word
  /-- R33 -/
  faultInfo : Word
  /-- R34: the code segment's bytes by offset; an offset not listed reads 0 -/
  code : List Host.Cell
  /-- R34: the data segment's bytes by offset; an offset not listed reads 0 -/
  data : List Host.Cell
  /-- R34: the stack segment's bytes by offset; an offset not listed reads 0 -/
  stack : List Host.Cell
  /-- R58: host memory's bytes by address; an address is allocated exactly when it is listed -/
  hmem : List Host.Cell
  /-- R213, R214: start and size of each range MALC returned and FREE has not released -/
  heap : List (Nat × Nat)
  /-- R111: the run mode of the execution request being served (log entry 7) -/
  mode : RunMode
  /-- R111: the `trace` argument of the execution request being served (log entry 7) -/
  traceOn : Bool
  /-- R107: the trace events emitted, oldest first (log entry 8) -/
  trace : List TraceEvent
  /-- R205: the requests sent to the host oracle, oldest first (log entry 8) -/
  requests : List HostRequest
  /-- R205: the host's next answers, as far as they are fixed; `none` is a host that never answers (log entries 3, 4) -/
  replies : List (Option HostAnswer)
  /-- THE MODEL'S OWN: how many free values have been drawn (log entry 5) -/
  draws : Nat
  deriving DecidableEq, Repr

/-- Why the model stops. -/
inductive Fault where
  /-- U16, R205: a host call whose host never answers ("stuck", the step never completes). Raised by the eight
  host-call opcodes, only when the host's next answer is `none`. SAFE: nothing is claimed of what follows. -/
  | hostNeverAnswers
  deriving DecidableEq, Repr

/-- Why an instruction has no meaning in the model. -/
inductive Refusal where
  /-- an instruction not modelled yet; SAFE; no arm of exec raises it -/
  | notModelled (mnemonic : String)
  deriving DecidableEq, Repr

/-- R38: the state of a Machine newly constructed with parameters `p`. Host memory's first contents are the host's
choice (R58): here none is allocated (log entry 6). -/
def State.initial (p : Params) : State where
  par        := p
  pc         := BitVec.ofNat 64 p.codeBase
  bp         := BitVec.ofNat 64 (p.stackBase + p.poolSize)
  sp         := BitVec.ofNat 64 (p.stackBase + p.poolSize)
  ax         := 0
  status     := .init
  opCounter  := 0
  dataCursor := p.dataBase
  cycle      := 0
  exitValue  := 0
  faultCause := .none
  faultPc    := 0
  faultInfo  := 0
  code       := []
  data       := []
  stack      := []
  hmem       := []
  heap       := []
  mode       := .blocking
  traceOn    := false
  trace      := []
  requests   := []
  replies    := []
  draws      := 0

/-- R38: the machine right after construction and reset, with the layout of log entry 1. -/
def State.reset : State := State.initial Config.params

end Sys2Proof.Machine
end

