-- ==== Sys2Proof/Machine/Memory.lean ====
section
/-! DEFINITION. Byte stores: sorted association lists in one canonical form. A segment lists its nonzero bytes by
offset (spec/10_state.md rule R34: zero-initialized); host memory lists exactly its allocated bytes by address
(spec/20_memory.md rule R58). -/

namespace Sys2Proof.Machine

/-- The value listed under a key, if any. -/
def lookup {β : Type} : List (Nat × β) → Nat → Option β
  | [], _ => none
  | (j, v) :: rest, k => if j = k then some v else lookup rest k

/-- List `v` under key `k`, in the key's place in rising order. -/
def insertKey {β : Type} : List (Nat × β) → Nat → β → List (Nat × β)
  | [], k, v => [(k, v)]
  | (j, w) :: rest, k, v =>
    if k < j then (k, v) :: (j, w) :: rest
    else if k = j then (k, v) :: rest
    else (j, w) :: insertKey rest k v

/-- Take a key off the list. -/
def eraseKey {β : Type} (m : List (Nat × β)) (k : Nat) : List (Nat × β) :=
  m.filter fun c => c.1 ≠ k

/-- Keys strictly rising. -/
def keysRising {β : Type} : List (Nat × β) → Bool
  | [] => true
  | [_] => true
  | a :: b :: rest => decide (a.1 < b.1) && keysRising (b :: rest)

namespace Memory

/-- R34: a byte of a segment; an unlisted offset holds the reset value 0. -/
def read (m : List Host.Cell) (o : Nat) : Byte := (lookup m o).getD 0

/-- R53: write one byte of a segment, keeping the canonical form: a byte equal to 0 is not listed. -/
def write (m : List Host.Cell) (o : Nat) (b : Byte) : List Host.Cell :=
  if b = 0 then eraseKey m o else insertKey m o b

/-- R52: the `n` bytes from offset `o` on, little-endian. -/
def readWord (m : List Host.Cell) (o n : Nat) : Word := leWord (read m) o n

/-- R52: write the low `8n` bits of `v` to the `n` bytes from offset `o` on, little-endian. -/
def writeWord (m : List Host.Cell) (o n : Nat) (v : Word) : List Host.Cell :=
  (List.range n).foldl (fun m i => write m (o + i) (byteOf v i)) m

/-- The canonical form of a segment of `size` bytes: offsets strictly rising and inside the segment, and no listed
byte equal to what an unlisted offset reads as. -/
def wf (size : Nat) (m : List Host.Cell) : Bool :=
  keysRising m && m.all fun c => decide (c.1 < size) && decide (c.2 ≠ 0)

end Memory

namespace HostMemory

/-- R58: whether every one of the `n` addresses from `a` on is allocated. -/
def allocated (m : List Host.Cell) (a n : Nat) : Bool :=
  (List.range n).all fun i => (lookup m (a + i)).isSome

/-- R59, R52: the `n` allocated bytes from address `a` on, little-endian. -/
def readWord (m : List Host.Cell) (a n : Nat) : Word := leWord (fun x => (lookup m x).getD 0) a n

/-- R59, R52: write the low `8n` bits of `v` to the `n` bytes from address `a` on, little-endian. -/
def writeWord (m : List Host.Cell) (a n : Nat) (v : Word) : List Host.Cell :=
  (List.range n).foldl (fun m i => insertKey m (a + i) (byteOf v i)) m

/-- R213: allocate `n` addresses from `a` on, with the byte values the host chose; a byte it did not name is 0. -/
def allocate (m : List Host.Cell) (a n : Nat) (bytes : List Byte) : List Host.Cell :=
  (List.range n).foldl (fun m i => insertKey m (a + i) (bytes.getD i 0)) m

/-- R214: the `n` addresses from `a` on leave the domain. -/
def release (m : List Host.Cell) (a n : Nat) : List Host.Cell :=
  m.filter fun c => !(decide (a ≤ c.1) && decide (c.1 < a + n))

/-- Whether no allocated address lies in `[a, a + n)`. -/
def vacant (m : List Host.Cell) (a n : Nat) : Bool :=
  m.all fun c => !(decide (a ≤ c.1) && decide (c.1 < a + n))

end HostMemory

end Sys2Proof.Machine
end

