-- ==== Sys2Proof/Machine/Ops.lean ====
section
/-! DEFINITION. The named operations over registers and memory: the address multiplexer and the access primitives
(spec/20_memory.md rules R55 to R64), the start of an instruction, and the one way an exception is taken
(spec/40_dispatch.md rules R103, R106, R115; spec/60_exceptions.md rule R252). The Machine has no return from an
exception (R255). -/

namespace Sys2Proof.Machine

/-- `raise Fault(cause, info)` of R15. -/
structure Trap where
  cause : FaultCause
  info  : Word
  deriving DecidableEq, Repr

/-- The result of an access: a value, or the trap it raises. -/
abbrev Access (α : Type) := Except Trap α

/-! ### Numbers of the control registers -/

/-- R26: the encoding of `status`. -/
def Status.toNat : Status → Nat
  | .init => 0
  | .running => 1
  | .exit => 2
  | .error => 3
  | .fault => 4

/-- R31: the encoding of `fault_cause`. -/
def FaultCause.toNat : FaultCause → Nat
  | .none => 0
  | .fetchSegment => 1
  | .fetchMisaligned => 2
  | .fetchUncommitted => 3
  | .stackRange => 4
  | .dataAddress => 5
  | .dataMisaligned => 6
  | .divZero => 7
  | .divOverflow => 8
  | .hostFault => 9
  | .unknownOpcode => 10

/-- R19: halted is status EXIT, ERROR or FAULT. -/
def Status.halted : Status → Bool
  | .init => false
  | .running => false
  | .exit => true
  | .error => true
  | .fault => true

/-! ### Segments -/

/-- R9: the address of a segment's first byte. -/
def base (p : Params) : Seg → Nat
  | .code => p.codeBase
  | .data => p.dataBase
  | .stack => p.stackBase

/-- R8: the number of cells of the code segment and of the stack segment. -/
def cap (p : Params) : Nat := p.poolSize / 8

/-- The bytes of a segment. -/
def State.seg (s : State) : Seg → List Host.Cell
  | .code => s.code
  | .data => s.data
  | .stack => s.stack

/-- Replace the bytes of one segment (R53: no other segment changes). -/
def State.setSeg (s : State) (X : Seg) (m : List Host.Cell) : State :=
  match X with
  | .code => { s with code := m }
  | .data => { s with data := m }
  | .stack => { s with stack := m }

/-- R14: `ax <- v`. -/
def State.setAx (s : State) (v : Word) : State := { s with ax := v }

/-- R14: `bp <- v`. -/
def State.setBp (s : State) (v : Word) : State := { s with bp := v }

/-- R14: `sp <- v`. -/
def State.setSp (s : State) (v : Word) : State := { s with sp := v }

/-- R14: `pc <- v`. -/
def State.setPc (s : State) (v : Word) : State := { s with pc := v }

/-- Replace host memory's bytes. -/
def State.setHmem (s : State) (m : List Host.Cell) : State := { s with hmem := m }

/-! ### The address multiplexer -/

/-- R55: what the multiplexer selects. -/
inductive Route where
  | seg (X : Seg) (offset : Nat)
  | straddle
  | hostMem (address : Nat)
  deriving DecidableEq, Repr

/-- R55: `X_BASE <= u(a) and u(a) + n <= X_BASE + POOLSIZE`. -/
def inSegment (p : Params) (X : Seg) (a n : Nat) : Bool :=
  decide (base p X ≤ a) && decide (a + n ≤ base p X + p.poolSize)

/-- R55: whether `[a, a + n)` meets a segment. -/
def meetsSegment (p : Params) (X : Seg) (a n : Nat) : Bool :=
  decide (a < base p X + p.poolSize) && decide (base p X < a + n)

/-- R55: the route of an access of `n` bytes at address `a`. -/
def route (p : Params) (a : Word) (n : Nat) : Route :=
  if inSegment p .code a.toNat n then .seg .code (a.toNat - p.codeBase)
  else if inSegment p .data a.toNat n then .seg .data (a.toNat - p.dataBase)
  else if inSegment p .stack a.toNat n then .seg .stack (a.toNat - p.stackBase)
  else if meetsSegment p .code a.toNat n || meetsSegment p .data a.toNat n || meetsSegment p .stack a.toNat n
      || decide (2 ^ 64 < a.toNat + n) then .straddle
  else .hostMem a.toNat

/-- R60: an address that is a multiple of 8. -/
def aligned (a : Word) : Bool := decide (a.toNat % 8 = 0)

/-! ### Instruction fetch -/

/-- R61: fetch one cell. -/
def State.fetch (s : State) (a : Word) : Access Word :=
  match route s.par a 8 with
  | .seg .code o =>
    if aligned a = false then .error ⟨.fetchMisaligned, a⟩
    else if s.opCounter ≤ o / 8 then .error ⟨.fetchUncommitted, a⟩
    else .ok (Memory.readWord s.code o 8)
  | .seg .stack o =>
    if aligned a = false then .error ⟨.fetchMisaligned, a⟩
    else .ok (Memory.readWord s.stack o 8)
  | .seg .data _ => .error ⟨.fetchSegment, a⟩
  | .straddle => .error ⟨.fetchSegment, a⟩
  | .hostMem _ => .error ⟨.fetchSegment, a⟩

/-! ### Stack accesses -/

/-- R62: the offset of the stack cell at `a`, or STACK_RANGE. -/
def State.stackCell (s : State) (a : Word) : Access Nat :=
  match route s.par a 8 with
  | .seg .stack o => if aligned a then .ok o else .error ⟨.stackRange, a⟩
  | .seg .code _ => .error ⟨.stackRange, a⟩
  | .seg .data _ => .error ⟨.stackRange, a⟩
  | .straddle => .error ⟨.stackRange, a⟩
  | .hostMem _ => .error ⟨.stackRange, a⟩

/-- R62: read the stack cell at `a`. -/
def State.stackRead (s : State) (a : Word) : Access Word :=
  (s.stackCell a).map fun o => Memory.readWord s.stack o 8

/-- R62: write the stack cell at `a`. -/
def State.stackWrite (s : State) (a v : Word) : Access State :=
  (s.stackCell a).map fun o => s.setSeg .stack (Memory.writeWord s.stack o 8 v)

/-- R64: push one cell. -/
def State.push (s : State) (v : Word) : Access State :=
  (s.stackWrite (s.sp - 8) v).map fun t => t.setSp (s.sp - 8)

/-- R64: pop one cell. -/
def State.pop (s : State) : Access (Word × State) :=
  (s.stackRead s.sp).map fun v => (v, s.setSp (s.sp + 8))

/-! ### Data accesses -/

/-- R63: the route of a data access of `n` bytes at `a`, once every check has passed. -/
def State.dataRoute (s : State) (a : Word) (n : Nat) : Access Route :=
  match route s.par a n with
  | .straddle => .error ⟨.dataAddress, a⟩
  | .hostMem x =>
    if HostMemory.allocated s.hmem x n = false then .error ⟨.dataAddress, a⟩
    else if n = 8 ∧ aligned a = false then .error ⟨.dataMisaligned, a⟩
    else .ok (.hostMem x)
  | .seg X o =>
    if n = 8 ∧ aligned a = false then .error ⟨.dataMisaligned, a⟩
    else .ok (.seg X o)

/-- R52, R59: the `n` bytes of a route. -/
def State.readRoute (s : State) (r : Route) (n : Nat) : Word :=
  match r with
  | .seg X o => Memory.readWord (s.seg X) o n
  | .hostMem x => HostMemory.readWord s.hmem x n
  | .straddle => 0

/-- R52, R59: write the low `8n` bits of `v` to the `n` bytes of a route. -/
def State.writeRoute (s : State) (r : Route) (n : Nat) (v : Word) : State :=
  match r with
  | .seg X o => s.setSeg X (Memory.writeWord (s.seg X) o n v)
  | .hostMem x => s.setHmem (HostMemory.writeWord s.hmem x n v)
  | .straddle => s

/-- R63: MemRead; for `n = 1` the byte stands in the low eight bits. -/
def State.memRead (s : State) (a : Word) (n : Nat) : Access Word :=
  (s.dataRoute a n).map fun r => s.readRoute r n

/-- R63: MemWrite. -/
def State.memWrite (s : State) (a : Word) (n : Nat) (v : Word) : Access State :=
  (s.dataRoute a n).map fun r => s.writeRoute r n v

/-! ### Host accesses -/

/-- R56, R75: the byte at an address, as a host service reads it; `none` where it is not accessible. This is also the
model's read of one byte of guest memory. -/
def State.byteAt (s : State) (a : Word) : Option Byte :=
  match route s.par a 1 with
  | .seg X o => some (Memory.read (s.seg X) o)
  | .hostMem x => lookup s.hmem x
  | .straddle => none

/-- R56, R75: a host service writes one accessible byte. -/
def State.setByte (s : State) (a : Word) (b : Byte) : State :=
  match route s.par a 1 with
  | .seg X o => s.setSeg X (Memory.write (s.seg X) o b)
  | .hostMem x => s.setHmem (insertKey s.hmem x b)
  | .straddle => s

/-- R206: the lowest inaccessible address of `[a, a + n)`, if there is one. A range that runs past the top of the
address space stops at address 0, which is never accessible (log entry 12). -/
def State.firstInaccessible (s : State) (a : Word) : Nat → Option Word
  | 0 => none
  | n + 1 => if (s.byteAt a).isSome then s.firstInaccessible (a + 1) n else some a

/-- A host service writes a list of bytes from address `a` on. -/
def State.setBytes (s : State) (a : Word) : List Byte → State
  | [] => s
  | b :: bs => (s.setByte a b).setBytes (a + 1) bs

/-- R206: the bytes of a NUL-terminated string before its 0 byte, or the address of the first inaccessible byte; at
most `n` bytes are looked at. -/
def State.scanString (s : State) (a : Word) : Nat → Except Word (List Byte)
  | 0 => .error a
  | n + 1 =>
    match s.byteAt a with
    | none => .error a
    | some b => if b = 0 then .ok [] else (s.scanString (a + 1) n).map (b :: ·)

/-- R206: read the NUL-terminated string at `a`, up to the top of the address space (log entry 12). -/
def State.cString (s : State) (a : Word) : Except Word (List Byte) := s.scanString a (2 ^ 64 - a.toNat)

/-! ### The start and the end of an instruction -/

/-- R107: emit a trace event, when tracing is on. -/
def State.emit (s : State) (e : TraceEvent) : State :=
  if s.traceOn then { s with trace := s.trace ++ [e] } else s

/-- R103, R104, R107: what every decoded instruction does before its own effect: status RUNNING, one more cycle, pc
past the whole instruction, one trace event. -/
def State.begun (s : State) (i : Instr) : State :=
  State.emit
    { s with status := .running, cycle := s.cycle + 1, pc := s.pc + BitVec.ofNat 64 (8 * i.width) }
    ⟨s.cycle + 1, i.opcode, i.operand⟩

/-- TAKING AN EXCEPTION (R115, R252): the Machine goes back to `s0`, the state before the step; then status, cause,
pc and info of the fault are recorded. What has left the Machine meanwhile, as `s1` holds it, stays: trace events,
requests sent and answers received. -/
def State.takeFault (s0 s1 : State) (t : Trap) : State :=
  { s0 with
    status := .fault
    faultCause := t.cause
    faultPc := s0.pc
    faultInfo := t.info
    trace := s1.trace
    requests := s1.requests
    replies := s1.replies
    draws := s1.draws }

/-- R106: an unknown opcode: the status is ERROR and pc stays past the bad cell. -/
def State.unknownOpcode (s : State) (op : Word) : State :=
  State.emit
    { s with
      status := .error
      cycle := s.cycle + 1
      pc := s.pc + 8
      faultCause := .unknownOpcode
      faultPc := s.pc
      faultInfo := op }
    ⟨s.cycle + 1, op, none⟩

/-- The state a step ends in: the effect's result, or the exception it raised, taken from `s0`. -/
def State.settle (s0 s1 : State) : Access State → State
  | .ok t => t
  | .error t => s0.takeFault s1 t

/-- R104, R115: run one instruction that asks nothing of the host. `s` is the state before the step; the effect sees
pc past the instruction. -/
def runInstr (i : Instr) (effect : State → Access State) (s : State) : Host.Outcome State Fault Refusal :=
  .next (s.settle (s.begun i) (effect (s.begun i)))

end Sys2Proof.Machine
end

