-- ==== Sys2Proof/Machine/Flags.lean ====
section
/-! DEFINITION. The Machine has no flags and no condition codes (spec/10_state.md rule R24): comparisons write 0 or 1
into ax, and JZ and JNZ test ax. This file holds those two computations. -/

namespace Sys2Proof.Machine

/-- R24, R175: "treat booleans as `0`/`1` integers". -/
def boolWord (b : Bool) : Word := if b then 1 else 0

/-- R24, R142, R143: the test JZ and JNZ make. -/
def State.axZero (s : State) : Bool := decide (s.ax = 0)

end Sys2Proof.Machine
end

