-- ==== Sys2Proof/Machine/Operands.lean ====
section
/-! DEFINITION. Every operand form: the cell-counted offset of LEA, ENT and ADJ (spec/30_encoding.md rule R85), the
popped left operand of the binary opcodes (spec/44_alu.md rule R175), the byte widened as LC_EXTEND says
(spec/43_load_store.md rules R161, R163), the argument slots of the host calls and PRTF's count
(spec/45_host_calls.md rules R207, R211, R212). -/

namespace Sys2Proof.Machine

/-- R85, R130: `w(s(imm) * 8)`. -/
def cellOffset (imm : Word) : Word := BitVec.ofInt 64 (imm.toInt * 8)

/-- R10: the byte in the low eight bits of `v`, widened. -/
def widenByte (x : LcExtend) (v : Word) : Word :=
  match x with
  | .sign => (v.setWidth 8).signExtend 64
  | .zero => (v.setWidth 8).zeroExtend 64

/-- R175: the shape of every binary opcode: pop the left operand, take ax as the right one, write the result to ax. -/
def State.binary (s : State) (f : Word → Word → Access Word) : Access State := do
  let (a, t) ← s.pop
  let r ← f a t.ax
  pure (t.setAx r)

/-- R207: `sp[i] = StackRead(sp +w 8i)`. -/
def State.arg (s : State) (i : Nat) : Access Word := s.stackRead (s.sp + BitVec.ofNat 64 (8 * i))

/-- R211: PRTF's argument count, the operand of the ADJ the program places after PRTF; pc does not move. -/
def State.prtfCount (s : State) : Access Word := s.fetch (s.pc + 8)

/-- R212: the `j`-th slot below the top of PRTF's `k` cells: `StackRead(t -w 8j)` with `t = sp +w w(k * 8)`. -/
def State.prtfSlot (s : State) (k : Word) (j : Nat) : Access Word :=
  s.stackRead (s.sp + cellOffset k - BitVec.ofNat 64 (8 * j))

end Sys2Proof.Machine
end

