-- ==== Sys2Proof/Machine/Fetch.lean ====
section
/-! DEFINITION. The incremental guard (spec/40_dispatch.md rules R108, R109), and fetching and decoding one
instruction (R102, R104). -/

namespace Sys2Proof.Machine

/-- R108, R109: whether the guard of a GUARDED step stalls. It applies to an aligned pc in the code segment only. -/
def State.guardStalls (s : State) : Bool :=
  match route s.par s.pc 8 with
  | .seg .code o =>
    aligned s.pc &&
      (decide (s.opCounter < o / 8 + 1)
        || decide (s.opCounter < o / 8 + widthCells (Memory.readWord s.code o 8)))
  | .seg .data _ => false
  | .seg .stack _ => false
  | .straddle => false
  | .hostMem _ => false

/-- R100, R254: whether the next step is the outcome STALL; a halted Machine gives its status (log entry 20). -/
def State.stalls (s : State) : Bool := !s.status.halted && (decide (s.mode = .guarded) && s.guardStalls)

/-- What fetching and decoding at pc comes to. -/
inductive Fetched where
  | instr (i : Instr)
  | unknown (op : Word)
  | trap (t : Trap)
  deriving DecidableEq, Repr

/-- R102, R104: fetch the opcode cell, then, for a valid opcode of width two, the operand cell. -/
def State.fetchInstr (s : State) : Fetched :=
  match s.fetch s.pc with
  | .error t => .trap t
  | .ok op =>
    if validOpcode op = false then .unknown op
    else if widthCells op = 2 then
      match s.fetch (s.pc + 8) with
      | .error t => .trap t
      | .ok imm =>
        match decodeInstr op imm with
        | some i => .instr i
        | none => .unknown op
    else
      match decodeInstr op 0 with
      | some i => .instr i
      | none => .unknown op

/-- Store the cells `vs` at offset `o` of a segment, one after the other. -/
def storeCells (m : List Host.Cell) (o : Nat) : List Word → List Host.Cell
  | [] => m
  | v :: vs => storeCells (Memory.writeWord m o 8 v) (o + 8) vs

/-- A program loaded from outside (log entry 16): the cells `vs` stand in the code segment from offset `o` on, pc is
there, and they are committed. -/
def State.loadCode (s : State) (o : Nat) (vs : List Word) : State :=
  { s with
    pc := BitVec.ofNat 64 (s.par.codeBase + o)
    code := storeCells s.code o vs
    opCounter := max s.opCounter (o / 8 + vs.length) }

/-- Place the cells `vs` where the next step fetches its instruction: at pc where pc is a place that can be fetched
from and has room for them, else at the start of the code segment. A halted Machine is made ready. -/
def State.placeInstr (s : State) (vs : List Word) : State :=
  let r := if s.status.halted then { s with status := .init } else s
  match route s.par s.pc (8 * vs.length), aligned s.pc with
  | .seg .code o, true => r.loadCode o vs
  | .seg .stack o, true => { r with stack := storeCells r.stack o vs }
  | _, _ => r.loadCode 0 vs

end Sys2Proof.Machine
end

