-- ==== Sys2Proof/Machine/Alu.lean ====
section
/-! DEFINITION. The sixteen binary opcodes OR to MOD (spec/44_alu.md): the function `f(a, b)` of each, `a` the popped
left operand and `b` ax, computed over integers and narrowed at the end where the rule says so. -/

namespace Sys2Proof.Machine

/-- R13: `MIN`. -/
def minWord : Word := 0x8000000000000000

/-- R185, R186: whether a shift count lies in 0..63. -/
def shiftInRange (b : Word) : Bool := decide (0 ≤ b.toInt) && decide (b.toInt ≤ 63)

/-- R185: `w(u(a) * 2^s(b))`. -/
def shiftLeft (a b : Word) : Word := BitVec.ofNat 64 (a.toNat * 2 ^ b.toNat)

/-- R186: `w(floor(s(a) / 2^s(b)))`. -/
def shiftRight (a b : Word) : Word := BitVec.ofInt 64 (a.toInt.fdiv (2 ^ b.toNat))

/-- R185, R186: `ax` becomes a fresh free value, "any 64-bit value" (log entry 5). -/
def State.drawAx (s : State) : State := { s with ax := Config.shiftDraw s.draws, draws := s.draws + 1 }

/-- R185, R186: a shift: by a count in range its value is `f a b`, by any other a fresh free value (log entry 5). -/
def State.shift (s : State) (f : Word → Word → Word) : Access State :=
  s.pop.map fun (a, t) =>
    if shiftInRange t.ax then t.setAx (f a t.ax)
    else t.drawAx

/-- R190, R191: the faults of a division of `a` by `b`, DIV_ZERO first. -/
def divisionFault (a b : Word) : Option FaultCause :=
  if b = 0 then some .divZero
  else if a = minWord ∧ b.toInt = -1 then some .divOverflow
  else none

/-- R190, R191: a division, after its checks. -/
def divided (f : Int → Int → Int) (a b : Word) : Access Word :=
  match divisionFault a b with
  | some c => .error ⟨c, a⟩
  | none => .ok (BitVec.ofInt 64 (f a.toInt b.toInt))

/-- R190: the quotient truncated toward zero. -/
def quotient (x y : Int) : Int := x.tdiv y

/-- R191: the remainder, which has the dividend's sign. -/
def remainder (x y : Int) : Int := x - x.tdiv y * y

/-- R176. -/
def execOr (s : State) : Host.Outcome State Fault Refusal :=
  runInstr .or (fun t => t.binary fun a b => .ok (a ||| b)) s

/-- R177. -/
def execXor (s : State) : Host.Outcome State Fault Refusal :=
  runInstr .xor (fun t => t.binary fun a b => .ok (a ^^^ b)) s

/-- R178. -/
def execAnd (s : State) : Host.Outcome State Fault Refusal :=
  runInstr .and (fun t => t.binary fun a b => .ok (a &&& b)) s

/-- R179. -/
def execEq (s : State) : Host.Outcome State Fault Refusal :=
  runInstr .eq (fun t => t.binary fun a b => .ok (boolWord (decide (a = b)))) s

/-- R180. -/
def execNe (s : State) : Host.Outcome State Fault Refusal :=
  runInstr .ne (fun t => t.binary fun a b => .ok (boolWord (decide (a ≠ b)))) s

/-- R181. -/
def execLt (s : State) : Host.Outcome State Fault Refusal :=
  runInstr .lt (fun t => t.binary fun a b => .ok (boolWord (decide (a.toInt < b.toInt)))) s

/-- R182. -/
def execGt (s : State) : Host.Outcome State Fault Refusal :=
  runInstr .gt (fun t => t.binary fun a b => .ok (boolWord (decide (a.toInt > b.toInt)))) s

/-- R183. -/
def execLe (s : State) : Host.Outcome State Fault Refusal :=
  runInstr .le (fun t => t.binary fun a b => .ok (boolWord (decide (a.toInt ≤ b.toInt)))) s

/-- R184. -/
def execGe (s : State) : Host.Outcome State Fault Refusal :=
  runInstr .ge (fun t => t.binary fun a b => .ok (boolWord (decide (a.toInt ≥ b.toInt)))) s

/-- R185. -/
def execShl (s : State) : Host.Outcome State Fault Refusal :=
  runInstr .shl (fun t => t.shift shiftLeft) s

/-- R186. -/
def execShr (s : State) : Host.Outcome State Fault Refusal :=
  runInstr .shr (fun t => t.shift shiftRight) s

/-- R187: `w(u(a) + u(b))`. -/
def execAdd (s : State) : Host.Outcome State Fault Refusal :=
  runInstr .add (fun t => t.binary fun a b => .ok (a + b)) s

/-- R188: left (stack) minus right (ax). -/
def execSub (s : State) : Host.Outcome State Fault Refusal :=
  runInstr .sub (fun t => t.binary fun a b => .ok (a - b)) s

/-- R189: `w(s(a) * s(b))`. -/
def execMul (s : State) : Host.Outcome State Fault Refusal :=
  runInstr .mul (fun t => t.binary fun a b => .ok (BitVec.ofInt 64 (a.toInt * b.toInt))) s

/-- R190. -/
def execDiv (s : State) : Host.Outcome State Fault Refusal :=
  runInstr .div (fun t => t.binary (divided quotient)) s

/-- R191. -/
def execMod (s : State) : Host.Outcome State Fault Refusal :=
  runInstr .mod (fun t => t.binary (divided remainder)) s

end Sys2Proof.Machine
end

