-- ==== Sys2Proof/Machine/Control.lean ====
section
/-! DEFINITION. Control transfer and frames: JMP, CALL, JZ, JNZ, ENT, ADJ, LEV (spec/42_control_transfer.md). No
target is checked here (R149). -/

namespace Sys2Proof.Machine

/-- R140. -/
def execJmp (imm : Word) (s : State) : Host.Outcome State Fault Refusal :=
  runInstr (.jmp imm) (fun t => .ok (t.setPc imm)) s

/-- R141: push the address of the cell after the operand, then jump. -/
def execCall (imm : Word) (s : State) : Host.Outcome State Fault Refusal :=
  runInstr (.call imm) (fun t => (t.push t.pc).map fun u => u.setPc imm) s

/-- R142. -/
def execJz (imm : Word) (s : State) : Host.Outcome State Fault Refusal :=
  runInstr (.jz imm) (fun t => .ok (if t.axZero then t.setPc imm else t)) s

/-- R143. -/
def execJnz (imm : Word) (s : State) : Host.Outcome State Fault Refusal :=
  runInstr (.jnz imm) (fun t => .ok (if t.axZero then t else t.setPc imm)) s

/-- R144: push bp, make it the new top, reserve the locals. -/
def execEnt (imm : Word) (s : State) : Host.Outcome State Fault Refusal :=
  runInstr (.ent imm) (fun t => (t.push t.bp).map fun u => (u.setBp u.sp).setSp (u.sp - cellOffset imm)) s

/-- R145. -/
def execAdj (imm : Word) (s : State) : Host.Outcome State Fault Refusal :=
  runInstr (.adj imm) (fun t => .ok (t.setSp (t.sp + cellOffset imm))) s

/-- R146: `sp <- bp; bp <- Pop(); pc <- Pop()`. -/
def leaveFrame (t : State) : Access State := do
  let (oldBp, u) ← (t.setSp t.bp).pop
  let (ret, v) ← (u.setBp oldBp).pop
  pure (v.setPc ret)

/-- R146. -/
def execLev (s : State) : Host.Outcome State Fault Refusal :=
  runInstr .lev leaveFrame s

end Sys2Proof.Machine
end

