-- ==== Sys2Proof/Machine/FrameImm.lean ====
section
/-! DEFINITION. LEA and IMM (spec/41_frame_and_immediate.md). -/

namespace Sys2Proof.Machine

/-- R130: `ax <- bp +w w(s(imm) * 8)`. -/
def execLea (imm : Word) (s : State) : Host.Outcome State Fault Refusal :=
  runInstr (.lea imm) (fun t => .ok (t.setAx (t.bp + cellOffset imm))) s

/-- R131: `ax <- imm`. -/
def execImm (imm : Word) (s : State) : Host.Outcome State Fault Refusal :=
  runInstr (.imm imm) (fun t => .ok (t.setAx imm)) s

end Sys2Proof.Machine
end

