-- ==== Sys2Proof/Machine/Halt.lean ====
section
/-! DEFINITION. EXIT (spec/46_halt.md). -/

namespace Sys2Proof.Machine

/-- R225: `exit_value <- v; status <- EXIT`. -/
def State.recordExit (s : State) (v : Word) : State := { s with exitValue := v, status := .exit }

/-- R225: the cell on top of the stack is recorded, not popped. -/
def execExit (s : State) : Host.Outcome State Fault Refusal :=
  runInstr .exit (fun t => (t.stackRead t.sp).map t.recordExit) s

end Sys2Proof.Machine
end

