-- ==== Sys2Proof/Machine/HostCalls.lean ====
section
/-! DEFINITION. The host-call opcodes OPEN, READ, CLOS, PRTF, MALC, FREE, MSET, MCMP (spec/45_host_calls.md): what the
dispatcher sends, and what the laws of that file let the host do with it. The host's answer is free (log entry 3); a
part of it that breaks the opcode's law is replaced by a lawful one, so that exactly the lawful answers remain
(log entry 13). -/

namespace Sys2Proof.Machine

/-! ### The request port -/

/-- R205: the host's next answer: the next queued one, or a free one where none is queued; `none` is a host that never
answers. -/
def State.nextAnswer (s : State) : Option HostAnswer :=
  match s.replies with
  | [] => Config.freeAnswer s.draws
  | r :: _ => r

/-- R205: the request `q` has been sent and its answer taken. -/
def State.sent (s : State) (q : HostRequest) : State :=
  { s with requests := s.requests ++ [q], replies := s.replies.tail, draws := s.draws + 1 }

/-- The trap of a host call that failed at address `a`. -/
def hostTrap (a : Word) : Trap := ⟨.hostFault, a⟩

/-! ### Range checks -/

/-- R206: go on with `k` if every byte of `[a, a + n)` is accessible, else HOST_FAULT with the lowest that is not. -/
def State.checkRange (s : State) (a : Word) (n : Nat) (k : Access State) : Access State :=
  match s.firstInaccessible a n with
  | some x => .error (hostTrap x)
  | none => k

/-! ### OPEN, CLOS -/

/-- R208: the path is read; any result. -/
def serveOpn (path : Word) (r : HostAnswer) (s : State) : Access State :=
  match s.cString path with
  | .error a => .error (hostTrap a)
  | .ok _ => .ok (s.setAx r.value)

/-- R210: any result. -/
def serveClos (r : HostAnswer) (s : State) : Access State := .ok (s.setAx r.value)

/-! ### READ -/

/-- R209: the count law: `s(r) = -1` or `0 <= s(r) <= u(count)`. -/
def readLaw (count r : Word) : Bool :=
  decide (r.toInt = -1) || (decide (0 ≤ r.toInt) && decide (r.toInt ≤ (count.toNat : Int)))

/-- R209: the result of READ: what the host proposes, where the count law admits it. -/
def readResult (count r : Word) : Word := if readLaw count r then r else -1

/-- R209: the `n` bytes READ delivers; a byte the answer does not name is 0. -/
def deliveredBytes (r : HostAnswer) (n : Nat) : List Byte := (List.range n).map fun i => r.bytes.getD i 0

/-- R209: a failing host answers HOST_FAULT with no address (log entry 9); else `r` bytes are written at `buf`, after
the check of all of them, where `s(r) > 0`. -/
def serveRead (buf count : Word) (r : HostAnswer) (s : State) : Access State :=
  if r.fails.isSome then .error (hostTrap 0)
  else
    let res := readResult count r.value
    s.checkRange buf res.toInt.toNat
      (.ok ((s.setBytes buf (deliveredBytes r res.toInt.toNat)).setAx res))

/-! ### PRTF -/

/-- What a conversion of a format string consumes. -/
inductive Conversion where
  /-- `%s`: the string its value names is read (R212) -/
  | string
  /-- one value, which is not an address the host reads from -/
  | value
  /-- a directive whose use of values the spec does not give (log entry 10); it stands last -/
  | openEnded
  deriving DecidableEq, Repr

/-- The ASCII codes of `% s d i u o x X c p`. -/
def isPercent (b : Byte) : Bool := decide (b = 0x25)
/-- `s` -/
def isStringLetter (b : Byte) : Bool := decide (b = 0x73)
/-- `d i u o x X c p` -/
def isValueLetter (b : Byte) : Bool := decide (b ∈ ([0x64, 0x69, 0x75, 0x6F, 0x78, 0x58, 0x63, 0x70] : List Byte))

/-- R212: the conversions of a format string, in order, up to the first directive whose form the spec does not give
(log entry 10). -/
def conversions : List Byte → List Conversion
  | [] => []
  | [b] => if isPercent b then [.openEnded] else []
  | b :: c :: rest =>
    if isPercent b then
      if isPercent c then conversions rest
      else if isStringLetter c then .string :: conversions rest
      else if isValueLetter c then .value :: conversions rest
      else [.openEnded]
    else conversions (c :: rest)

/-- R212: whether a format is known to need at most five values. -/
def fitsFive (cs : List Conversion) : Bool := decide (cs.length ≤ 5) && !cs.contains .openEnded

/-- R212: the values that the `%s` conversions name. -/
def stringArguments (cs : List Conversion) (vs : List Word) : List Word :=
  (cs.zip vs).filterMap fun c => if c.1 = .string then some c.2 else none

/-- R206: where reading the strings that the values `vs` name fails. -/
def State.stringFaults (s : State) (vs : List Word) : List Word :=
  vs.filterMap fun v =>
    match s.cString v with
    | .error a => some a
    | .ok _ => none

/-- R212: which of the failures `a :: as` is reported. MODEL'S CHOICE where there are several, as the spec gives no
order among them: any of them, the one the host's answer names, else the first in format order (log entry 22). -/
def reportedFault (a : Word) (as : List Word) (fails : Option Word) : Word :=
  match fails with
  | some x => if x ∈ as then x else a
  | none => a

/-- R212: the format is read. For a format known to need at most five values, the `%s` strings are read; then any
result, or at the host's choice HOST_FAULT with no address (log entry 9). For any other format the answer is the
host's choice: any result, or HOST_FAULT with any address (R205, log entry 10). -/
def servePrtf (fmt : Word) (values : List Word) (r : HostAnswer) (s : State) : Access State :=
  match s.cString fmt with
  | .error a => .error (hostTrap a)
  | .ok f =>
    if fitsFive (conversions f) then
      match s.stringFaults (stringArguments (conversions f) values) with
      | a :: as => .error (hostTrap (reportedFault a as r.fails))
      | [] => if r.fails.isSome then .error (hostTrap 0) else .ok (s.setAx r.value)
    else
      match r.fails with
      | some a => .error (hostTrap a)
      | none => .ok (s.setAx r.value)

/-! ### MALC, FREE -/

/-- R213: whether `[a, a + n)` lies outside a segment. -/
def outsideSegment (p : Params) (X : Seg) (a n : Nat) : Bool :=
  decide (n = 0) || decide (a + n ≤ base p X) || decide (base p X + p.poolSize ≤ a)

/-- R213: whether MALC may answer `p` for `size` bytes: not 0, a range inside the address space, outside the three
segments and outside allocated host memory, and not the start of a live range (log entry 14). -/
def State.freshRange (s : State) (p size : Word) : Bool :=
  decide (p ≠ 0) && decide (p.toNat + size.toNat ≤ 2 ^ 64)
    && outsideSegment s.par .code p.toNat size.toNat
    && outsideSegment s.par .data p.toNat size.toNat
    && outsideSegment s.par .stack p.toNat size.toNat
    && HostMemory.vacant s.hmem p.toNat size.toNat
    && (lookup s.heap p.toNat).isNone

/-- R213: the `n` bytes from `a` on become allocated, and a live range. -/
def State.allocateRange (s : State) (a n : Nat) (bytes : List Byte) : State :=
  { s with hmem := HostMemory.allocate s.hmem a n bytes, heap := insertKey s.heap a n }

/-- R214: the live range of `n` bytes that starts at `a` leaves host memory's domain. -/
def State.releaseRange (s : State) (a n : Nat) : State :=
  { s with hmem := HostMemory.release s.hmem a n, heap := eraseKey s.heap a }

/-- R213: a fresh range, which becomes allocated, or 0. -/
def serveMalc (size : Word) (r : HostAnswer) (s : State) : Access State :=
  if s.freshRange r.value size then
    .ok ((s.allocateRange r.value.toNat size.toNat r.bytes).setAx r.value)
  else .ok (s.setAx 0)

/-- R214: 0 is ignored; the start of a live range releases it; any other address is a HOST_FAULT. Any result. -/
def serveFree (ptr : Word) (r : HostAnswer) (s : State) : Access State :=
  if ptr = 0 then .ok (s.setAx r.value)
  else
    match lookup s.heap ptr.toNat with
    | none => .error (hostTrap ptr)
    | some size => .ok ((s.releaseRange ptr.toNat size).setAx r.value)

/-! ### MSET, MCMP -/

/-- R215: check all of `[dst, dst + len)`, fill it with `val[7:0]`, answer `dst`. -/
def serveMset (dst val len : Word) (s : State) : Access State :=
  s.checkRange dst len.toNat
    (.ok ((s.setBytes dst (List.replicate len.toNat (byteOf val 0))).setAx dst))

/-- R216: how the first pair of different bytes of the two ranges compares (bytes unsigned); `none` if there is none. -/
def State.firstDifference (s : State) (a b : Word) : Nat → Option Bool
  | 0 => none
  | n + 1 =>
    let x := (s.byteAt a).getD 0
    let y := (s.byteAt b).getD 0
    if x = y then s.firstDifference (a + 1) (b + 1) n else some (decide (x.toNat < y.toNat))

/-- R216: the result: 0 for equal ranges, else a value of the required sign, of any magnitude. -/
def compareResult (d : Option Bool) (r : Word) : Word :=
  match d with
  | none => 0
  | some true => if r.toInt < 0 then r else -1
  | some false => if 0 < r.toInt then r else 1

/-- R216: both ranges are checked; where both have an unreadable byte, either is reported (log entry 11). -/
def serveMcmp (a b len : Word) (r : HostAnswer) (s : State) : Access State :=
  match s.firstInaccessible a len.toNat, s.firstInaccessible b len.toNat with
  | none, none => .ok (s.setAx (compareResult (s.firstDifference a b len.toNat) r.value))
  | some x, none => .error (hostTrap x)
  | none, some y => .error (hostTrap y)
  | some x, some y => .error (hostTrap (if r.pick then x else y))

/-! ### The host call -/

/-- R205, R217: what the host answers to a request, and what it does to guest and host memory. -/
def serve (q : HostRequest) (r : HostAnswer) (s : State) : Access State :=
  match q with
  | .opn path _ => serveOpn path r s
  | .read _ buf count => serveRead buf count r s
  | .clos _ => serveClos r s
  | .prtf fmt v1 v2 v3 v4 v5 => servePrtf fmt [v1, v2, v3, v4, v5] r s
  | .malc size => serveMalc size r s
  | .free ptr => serveFree ptr r s
  | .mset dst val len => serveMset dst val len s
  | .mcmp a b len => serveMcmp a b len r s

/-- R205, R115: a host call: collect the arguments, send the request, wait for the answer, write ax or take the
exception. A host that never answers leaves the step unfinished (log entry 4). -/
def runHostCall (i : Instr) (request : State → Access HostRequest) (s : State) :
    Host.Outcome State Fault Refusal :=
  let t := s.begun i
  match request t with
  | .error e => .next (s.takeFault t e)
  | .ok q =>
    match t.nextAnswer with
    | none => .fault .hostNeverAnswers
    | some r => .next (s.settle (t.sent q) (serve q r (t.sent q)))

/-- R208: `path = sp[1]`, `flags = sp[0]`. -/
def requestOpn (t : State) : Access HostRequest := do
  let path ← t.arg 1
  let flags ← t.arg 0
  pure (.opn path flags)

/-- R209: `fd = sp[2]`, `buf = sp[1]`, `count = sp[0]`. -/
def requestRead (t : State) : Access HostRequest := do
  let fd ← t.arg 2
  let buf ← t.arg 1
  let count ← t.arg 0
  pure (.read fd buf count)

/-- R210: `fd = sp[0]`. -/
def requestClos (t : State) : Access HostRequest := (t.arg 0).map .clos

/-- R211, R212: the count, then the format and the five values. -/
def requestPrtf (t : State) : Access HostRequest := do
  let k ← t.prtfCount
  let fmt ← t.prtfSlot k 1
  let v1 ← t.prtfSlot k 2
  let v2 ← t.prtfSlot k 3
  let v3 ← t.prtfSlot k 4
  let v4 ← t.prtfSlot k 5
  let v5 ← t.prtfSlot k 6
  pure (.prtf fmt v1 v2 v3 v4 v5)

/-- R213: `size = sp[0]`. -/
def requestMalc (t : State) : Access HostRequest := (t.arg 0).map .malc

/-- R214: `ptr = sp[0]`. -/
def requestFree (t : State) : Access HostRequest := (t.arg 0).map .free

/-- R215: `dst = sp[2]`, `val = sp[1]`, `len = sp[0]`. -/
def requestMset (t : State) : Access HostRequest := do
  let dst ← t.arg 2
  let val ← t.arg 1
  let len ← t.arg 0
  pure (.mset dst val len)

/-- R216: `a = sp[2]`, `b = sp[1]`, `len = sp[0]`. -/
def requestMcmp (t : State) : Access HostRequest := do
  let a ← t.arg 2
  let b ← t.arg 1
  let len ← t.arg 0
  pure (.mcmp a b len)

/-- R208. -/
def execOpn (s : State) : Host.Outcome State Fault Refusal := runHostCall .opn requestOpn s

/-- R209. -/
def execRead (s : State) : Host.Outcome State Fault Refusal := runHostCall .read requestRead s

/-- R210. -/
def execClos (s : State) : Host.Outcome State Fault Refusal := runHostCall .clos requestClos s

/-- R212. -/
def execPrtf (s : State) : Host.Outcome State Fault Refusal := runHostCall .prtf requestPrtf s

/-- R213. -/
def execMalc (s : State) : Host.Outcome State Fault Refusal := runHostCall .malc requestMalc s

/-- R214. -/
def execFree (s : State) : Host.Outcome State Fault Refusal := runHostCall .free requestFree s

/-- R215. -/
def execMset (s : State) : Host.Outcome State Fault Refusal := runHostCall .mset requestMset s

/-- R216. -/
def execMcmp (s : State) : Host.Outcome State Fault Refusal := runHostCall .mcmp requestMcmp s

end Sys2Proof.Machine
end

