-- ==== Sys2Proof/Machine/LoadStore.lean ====
section
/-! DEFINITION. Loads, stores and push: LI, LC, SI, SC, PUSH (spec/43_load_store.md). -/

namespace Sys2Proof.Machine

/-- R160: `ax <- MemRead(ax, 8)`. -/
def execLi (s : State) : Host.Outcome State Fault Refusal :=
  runInstr .li (fun t => (t.memRead t.ax 8).map t.setAx) s

/-- R161: the byte at ax, widened. -/
def execLc (s : State) : Host.Outcome State Fault Refusal :=
  runInstr .lc (fun t => (t.memRead t.ax 1).map fun b => t.setAx (widenByte t.par.lcExtend b)) s

/-- R162: pop the address, store ax there. -/
def storeWord (t : State) : Access State := do
  let (a, u) ← t.pop
  u.memWrite a 8 u.ax

/-- R162. -/
def execSi (s : State) : Host.Outcome State Fault Refusal :=
  runInstr .si storeWord s

/-- R163: pop the address, store ax's low byte there; ax becomes that byte, widened. -/
def storeByte (t : State) : Access State := do
  let (a, u) ← t.pop
  let v ← u.memWrite a 1 u.ax
  pure (v.setAx (widenByte v.par.lcExtend v.ax))

/-- R163. -/
def execSc (s : State) : Host.Outcome State Fault Refusal :=
  runInstr .sc storeByte s

/-- R164. -/
def execPush (s : State) : Host.Outcome State Fault Refusal :=
  runInstr .push (fun t => t.push t.ax) s

end Sys2Proof.Machine
end

