-- ==== Sys2Proof/Machine/Step.lean ====
section
/-! DEFINITION. One step of the Machine (spec/40_dispatch.md rule R100), and placing one instruction where it is
fetched. -/

namespace Sys2Proof.Machine

/-- R100, R101, R102, R106, R108: a halted Machine does not move; a stalled step changes nothing; a fetch may fault; an
unknown opcode is an error; else the instruction runs. -/
def step (s : State) : Host.Outcome State Fault Refusal :=
  if s.status.halted then .next s
  else if s.stalls then .next s
  else
    match s.fetchInstr with
    | .trap t => .next (s.takeFault s t)
    | .unknown op => .next (s.unknownOpcode op)
    | .instr i => exec i s

/-- The instruction whose bits are `w` (a row of `nbits` bits of the opcode table, every bit above them 0), stored
where the next step fetches: one cell, or two where its opcode has an operand. It stands for the host appending it as
the program (log entry 16). -/
def State.withFetchWord (s : State) (nbits w : Nat) : State :=
  let v := w % 2 ^ nbits
  let op : Word := BitVec.ofNat 64 v
  s.placeInstr (if widthCells op = 2 then [op, BitVec.ofNat 64 (v / 2 ^ 64)] else [op])

end Sys2Proof.Machine
end

