-- ==== Sys2Proof/Machine/HostInterface.lean ====
section
/-! DEFINITION. What the host does to a Machine between steps (spec/47_host_interface.md), reset
(spec/70_reset_and_hazards.md rule R275) and the execution requests (spec/40_dispatch.md rules R111 to R114). -/

namespace Sys2Proof.Machine

/-- R230: construction succeeds exactly when the parameters meet R8 and R9; `none` is MemoryError. -/
def construct (p : Params) : Option State := if p.wf then some (State.initial p) else none

/-- R275: reset, in any status. Host memory and the request port are the host's and stay; the parameters stay. -/
def State.resetMachine (s : State) : State :=
  { State.initial s.par with
    hmem := s.hmem
    heap := s.heap
    mode := s.mode
    traceOn := s.traceOn
    trace := s.trace
    requests := s.requests
    replies := s.replies
    draws := s.draws }

/-- What `append` reports. -/
inductive AppendResult where
  | ok
  | opCounterOverflow
  deriving DecidableEq, Repr

/-- R231: commit one code cell, or report OpCounterOverflow and change nothing. -/
def State.append (s : State) (cell : Word) : AppendResult × State :=
  if s.opCounter < cap s.par then
    (.ok, { s with
      code := Memory.writeWord s.code (s.opCounter * 8) 8 cell
      opCounter := s.opCounter + 1 })
  else (.opCounterOverflow, s)

/-- What `put_constant` reports. -/
inductive ConstantResult where
  | placed (address : Word)
  | dataOverflow
  deriving DecidableEq, Repr

/-- R232: place one word in the data segment, or report DataOverflow and change nothing. (The write cannot fail where
the invariant of Safety.lean holds; elsewhere its failure is reported as an overflow, log entry 17.) -/
def State.putConstant (s : State) (value : Word) : ConstantResult × State :=
  if s.dataCursor + 8 ≤ s.par.dataBase + s.par.poolSize then
    match s.memWrite (BitVec.ofNat 64 s.dataCursor) 8 value with
    | .ok t => (.placed (BitVec.ofNat 64 s.dataCursor), { t with dataCursor := s.dataCursor + 8 })
    | .error _ => (.dataOverflow, s)
  else (.dataOverflow, s)

/-- R233, R35: the next free code address. MODEL'S CHOICE where the code segment ends at 2^64 and is full: the sum is
2^64, which is no 64-bit address, and the spec does not say what is answered; the model answers it modulo 2^64, 0 (log
entry 23). -/
def State.nextCodeAddress (s : State) : Word := BitVec.ofNat 64 (s.par.codeBase + s.opCounter * 8)

/-- R234: `pc <- address`, unchecked. -/
def State.hostSetPc (s : State) (address : Word) : State := s.setPc address

/-- R235: pc's distance from the start of the code segment, in cells, truncated toward zero. -/
def State.programCounterOffset (s : State) : Int :=
  (s.pc - BitVec.ofNat 64 s.par.codeBase).toInt.tdiv 8

/-- R236: build the entry stub and the frame of a `main`. -/
def State.setupEntry (s : State) (entry argc argv : Word) : Access State := do
  let e := BitVec.ofNat 64 (s.par.stackBase + s.par.poolSize)
  let s1 ← ((s.setSp e).setBp e).push 38
  let s2 ← s1.push 13
  let s3 ← s2.push argc
  let s4 ← s3.push argv
  let s5 ← (s4.setBp s4.sp).push s2.sp
  pure (s5.setPc entry)

/-- R237: one entry of the disassembly. -/
inductive Listing where
  | instr (k : Nat) (mnemonic : String) (operand : Option Word)
  | unknown (k : Nat)
  | incomplete (k : Nat) (op : Word)
  deriving DecidableEq, Repr

/-- R237: cell `k` of the code segment. -/
def State.codeCell (s : State) (k : Nat) : Word := Memory.readWord s.code (8 * k) 8

/-- R237: list the committed code from cell `k` on; `fuel` is at least the number of cells left. -/
def State.disassembleFrom (s : State) (k : Nat) : Nat → List Listing
  | 0 => []
  | fuel + 1 =>
    if s.opCounter ≤ k then []
    else
      let op := s.codeCell k
      let wd := widthCells op
      if s.opCounter < k + wd then [.incomplete k op]
      else
        let entry :=
          match mnemonicOf op with
          | some m => Listing.instr k m (if wd = 2 then some (s.codeCell (k + 1)) else none)
          | none => Listing.unknown k
        entry :: s.disassembleFrom (k + wd) fuel

/-- R237: walk the committed code without executing it. -/
def State.disassemble (s : State) : List Listing := s.disassembleFrom 0 s.opCounter

/-! ### Execution requests -/

/-- R111: the arguments of a request become those of the steps it makes. -/
def State.request (s : State) (m : RunMode) (trace : Bool) : State := { s with mode := m, traceOn := trace }

/-- R112: `step(trace)`: one BLOCKING step; its outcome is the new state's status. -/
def State.stepRequest (s : State) (trace : Bool) : Host.Outcome State Fault Refusal :=
  step (s.request .blocking trace)

/-- How far a request has come after a bounded number of steps (log entry 18). -/
inductive RunReport where
  /-- it has returned: the status, whether the last outcome was STALL, the exit value, the state it left -/
  | returned (status : Status) (stalled : Bool) (exitValue : Word) (s : State)
  /-- it has not returned yet -/
  | goingOn (s : State)
  /-- the model stopped in it -/
  | stopped (f : Fault)
  | refused (r : Refusal)
  deriving DecidableEq, Repr

/-- R113, R114: repeat the step until it stalls or the Machine halts, at most `n` times. -/
def State.runSteps (s : State) : Nat → RunReport
  | 0 => .goingOn s
  | n + 1 =>
    if s.status.halted then .returned s.status false s.exitValue s
    else if s.stalls then .returned s.status true s.exitValue s
    else
      match step s with
      | .next t =>
        if t.status.halted then .returned t.status false t.exitValue t else t.runSteps n
      | .fault f => .stopped f
      | .refused r => .refused r

/-- R113: `run(trace)`, observed for `n` steps. It never stalls. -/
def State.run (s : State) (trace : Bool) (n : Nat) : RunReport := (s.request .blocking trace).runSteps n

/-- R114: `run_available(trace)`, observed for `n` steps. -/
def State.runAvailable (s : State) (trace : Bool) (n : Nat) : RunReport :=
  (s.request .guarded trace).runSteps n

end Sys2Proof.Machine
end

