-- ==== Sys2Proof/Safety.lean ====
section
/-! DEFINITION. The terms claims are stated in: the invariant of the Machine, what a completed instruction and a
precise fault leave (spec/40_dispatch.md rules R103, R107, R115), and frames of memory read byte by byte. -/

namespace Sys2Proof.Machine

/-! ### The invariant -/

/-- R58: the form of host memory: addresses strictly rising, none 0, none outside the address space, none in a
segment. -/
def HostMemory.wf (p : Params) (m : List Host.Cell) : Bool :=
  keysRising m && m.all fun c =>
    decide (0 < c.1) && decide (c.1 < 2 ^ 64) && !inSegment p .code c.1 1 && !inSegment p .data c.1 1
      && !inSegment p .stack c.1 1

/-- Whether the live range `b` (start, size) covers address `x`. -/
def covers (b : Nat × Nat) (x : Nat) : Prop := b.1 ≤ x ∧ x < b.1 + b.2

/-- R213, R214: the form of the list of live ranges: starts strictly rising, every byte of a range allocated, no byte
in two ranges. -/
structure HeapOk (hmem : List Host.Cell) (heap : List (Nat × Nat)) : Prop where
  rising : keysRising heap = true
  fits : ∀ b ∈ heap, 0 < b.1 ∧ b.1 + b.2 ≤ 2 ^ 64
  allocated : ∀ b ∈ heap, ∀ x, covers b x → (lookup hmem x).isSome = true
  disjoint : ∀ b ∈ heap, ∀ c ∈ heap, b.1 ≠ c.1 → ∀ x, ¬ (covers b x ∧ covers c x)

/-- R26, R30, R31: what the control registers hold in each status. -/
structure StatusOk (s : State) : Prop where
  /-- nothing has run before the first step -/
  initial : s.status = .init → s.cycle = 0
  /-- only EXIT records a value, and it halts -/
  noExitValue : s.status ≠ .exit → s.exitValue = 0
  /-- code 10 goes with ERROR -/
  errorCause : s.faultCause = .unknownOpcode ↔ s.status = .error
  /-- codes 1 to 9 go with FAULT -/
  faultCause : (s.faultCause ≠ .none ∧ s.faultCause ≠ .unknownOpcode) ↔ s.status = .fault
  /-- the fault registers are written together -/
  noFault : s.faultCause = .none → s.faultPc = 0 ∧ s.faultInfo = 0

/-- The invariant that every step and every host operation keeps: the parameters are ones a Machine can be
constructed with (R230), the three segments and host memory are in canonical form (R34, R58), `op_counter` and
`data_cursor` are in range (R27, R28), and the control registers agree with the status. -/
structure Inv (s : State) : Prop where
  params : s.par.wf = true
  code : Memory.wf s.par.poolSize s.code = true
  data : Memory.wf s.par.poolSize s.data = true
  stack : Memory.wf s.par.poolSize s.stack = true
  hostMemory : HostMemory.wf s.par s.hmem = true
  heap : HeapOk s.hmem s.heap
  committed : s.opCounter ≤ cap s.par
  cursorLow : s.par.dataBase ≤ s.dataCursor
  cursorHigh : s.dataCursor ≤ s.par.dataBase + s.par.poolSize
  cursorAligned : s.dataCursor % 8 = 0
  status : StatusOk s

/-- A run is safe while it has not ended in ERROR or FAULT (R116). -/
def Safe (s : State) : Prop := s.status ≠ .error ∧ s.status ≠ .fault

/-! ### What a completed instruction leaves -/

/-- R103, R107: the control registers after an instruction `i` other than EXIT has completed: status RUNNING, one
cycle more, one trace event if tracing is on, and everything else of the control state as before. -/
structure Retired (i : Instr) (s t : State) : Prop where
  status : t.status = .running
  cycle : t.cycle = s.cycle + 1
  trace : t.trace = if s.traceOn then s.trace ++ [⟨s.cycle + 1, i.opcode, i.operand⟩] else s.trace
  traceOn : t.traceOn = s.traceOn
  mode : t.mode = s.mode
  par : t.par = s.par
  opCounter : t.opCounter = s.opCounter
  dataCursor : t.dataCursor = s.dataCursor
  exitValue : t.exitValue = s.exitValue
  faultCause : t.faultCause = s.faultCause
  faultPc : t.faultPc = s.faultPc
  faultInfo : t.faultInfo = s.faultInfo

/-- The host was not asked anything and no free value was drawn. -/
structure PortQuiet (s t : State) : Prop where
  heap : t.heap = s.heap
  requests : t.requests = s.requests
  replies : t.replies = s.replies
  draws : t.draws = s.draws

/-- R205: exactly the request `q` was sent, and its answer taken. -/
structure PortUsed (q : HostRequest) (s t : State) : Prop where
  requests : t.requests = s.requests ++ [q]
  replies : t.replies = s.replies.tail
  draws : t.draws = s.draws + 1

/-- R24, R75: pc is past the one-cell instruction, and the address registers are as before. -/
structure PointersKept (s t : State) : Prop where
  pc : t.pc = s.pc + 8
  bp : t.bp = s.bp
  sp : t.sp = s.sp

/-- Every byte of guest memory, and which addresses are accessible, as before. -/
def BytesKept (s t : State) : Prop := ∀ x : Word, t.byteAt x = s.byteAt x

/-- Every byte outside the `n` bytes from address `a` on as before. -/
def BytesKeptOutside (a : Word) (n : Nat) (s t : State) : Prop :=
  ∀ x : Word, ¬ (a.toNat ≤ x.toNat ∧ x.toNat < a.toNat + n) → t.byteAt x = s.byteAt x

/-- The `n` bytes from address `a` on hold the low `8n` bits of `v`, little-endian (R52). -/
def BytesHold (a : Word) (n : Nat) (v : Word) (t : State) : Prop :=
  ∀ i < n, t.byteAt (a + BitVec.ofNat 64 i) = some (byteOf v i)

/-- R62: `a` is the address of a cell of the stack segment. -/
def IsStackCell (p : Params) (a : Word) : Prop :=
  p.stackBase ≤ a.toNat ∧ a.toNat + 8 ≤ p.stackBase + p.poolSize ∧ a.toNat % 8 = 0

/-- R175: what every binary opcode leaves beside ax: the left operand popped, pc past the cell, and all else as
before. -/
structure BinaryDone (i : Instr) (s t : State) : Prop where
  retired : Retired i s t
  port : PortQuiet s t
  bytes : BytesKept s t
  pc : t.pc = s.pc + 8
  bp : t.bp = s.bp
  sp : t.sp = s.sp + 8

/-- The sixteen binary opcodes (R175). -/
def binaryOpcodes : List Instr :=
  [.or, .xor, .and, .eq, .ne, .lt, .gt, .le, .ge, .shl, .shr, .add, .sub, .mul, .div, .mod]

/-- The eight host-call opcodes (R217). -/
def hostCallOpcodes : List Instr := [.opn, .read, .clos, .prtf, .malc, .free, .mset, .mcmp]

/-- R206: a NUL-terminated string of `n` bytes before its 0 byte stands at `a`, below the top of the address space. -/
def StringAt (s : State) (a : Word) (n : Nat) : Prop :=
  a.toNat + n < 2 ^ 64 ∧ (∀ i < n, ∃ b, s.byteAt (a + BitVec.ofNat 64 i) = some b ∧ b ≠ 0)
    ∧ s.byteAt (a + BitVec.ofNat 64 n) = some 0

/-- R206: reading a string at `a` meets its first inaccessible byte after `n` accessible nonzero ones. -/
def StringStopsAt (s : State) (a : Word) (n : Nat) : Prop :=
  a.toNat + n ≤ 2 ^ 64 ∧ (∀ i < n, ∃ b, s.byteAt (a + BitVec.ofNat 64 i) = some b ∧ b ≠ 0)
    ∧ s.byteAt (a + BitVec.ofNat 64 n) = none

/-- R206: the NUL-terminated string at `a` is `f`, and stands below the top of the address space. -/
def StringIs (s : State) (a : Word) (f : List Byte) : Prop :=
  a.toNat + f.length < 2 ^ 64 ∧ (∀ i b, f[i]? = some b → b ≠ 0 ∧ s.byteAt (a + BitVec.ofNat 64 i) = some b)
    ∧ s.byteAt (a + BitVec.ofNat 64 f.length) = some 0

/-- R212: the conversion number `j` of the format `f` is a `%s`, and `x` is its value. -/
def NamesString (f : List Byte) (values : List Word) (j : Nat) (x : Word) : Prop :=
  (conversions f)[j]? = some .string ∧ values[j]? = some x

/-- R212: the format `f` is known to need at most five values. -/
def NeedsFiveAtMost (f : List Byte) : Prop := (conversions f).length ≤ 5 ∧ Conversion.openEnded ∉ conversions f

/-- R212, log entry 10: how a format string is read. -/
structure ConversionRules : Prop where
  done : conversions [] = []
  plain : ∀ b rest, b ≠ 0x25 → conversions (b :: rest) = conversions rest
  /-- `%%` -/
  percent : ∀ rest, conversions (0x25 :: 0x25 :: rest) = conversions rest
  /-- `%s` -/
  string : ∀ rest, conversions (0x25 :: 0x73 :: rest) = .string :: conversions rest
  /-- `%` and one of `d i u o x X c p` -/
  value : ∀ c ∈ [0x64, 0x69, 0x75, 0x6F, 0x78, 0x58, 0x63, 0x70], ∀ rest,
    conversions (0x25 :: c :: rest) = .value :: conversions rest
  /-- any other directive -/
  other : ∀ c, c ∉ [0x25, 0x73, 0x64, 0x69, 0x75, 0x6F, 0x78, 0x58, 0x63, 0x70] → ∀ rest,
    conversions (0x25 :: c :: rest) = [.openEnded]
  alone : conversions [0x25] = [.openEnded]

/-- R206: each of the `n` bytes from `a` on is accessible. -/
def RangeAccessible (s : State) (a : Word) (n : Nat) : Prop :=
  ∀ i < n, (s.byteAt (a + BitVec.ofNat 64 i)).isSome = true

/-- R206: the first inaccessible byte of a range of `n` bytes from `a` on is its `k`-th. -/
def RangeStopsAt (s : State) (a : Word) (n k : Nat) : Prop :=
  k < n ∧ RangeAccessible s a k ∧ s.byteAt (a + BitVec.ofNat 64 k) = none

/-- Every byte whose address is none of the `n` addresses from `a` on as before. -/
def BytesKeptOff (a : Word) (n : Nat) (s t : State) : Prop :=
  ∀ x : Word, (∀ i < n, x ≠ a + BitVec.ofNat 64 i) → t.byteAt x = s.byteAt x

/-- R237: what the committed code holds at one place: an instruction, or a cell that is no opcode. -/
inductive CodeItem where
  | instr (i : Instr)
  | unknown (cell : Word)
  deriving DecidableEq, Repr

/-- The cells of an item. -/
def CodeItem.cells : CodeItem → List Word
  | .instr i => encode i
  | .unknown c => [c]

/-- R237: the entry of an item whose first cell is cell `k`. -/
def CodeItem.entry (k : Nat) : CodeItem → Listing
  | .instr i => .instr k ((mnemonicOf i.opcode).getD "") i.operand
  | .unknown _ => .unknown k

/-- R237: the disassembly of items, the first cell being cell `k`, that are followed by the opcode cell of an
instruction whose operand is not committed, if any. -/
def listingOf (cut : Option Word) : Nat → List CodeItem → List Listing
  | k, [] => cut.toList.map fun op => .incomplete k op
  | k, x :: xs => x.entry k :: listingOf cut (k + x.cells.length) xs

/-! ### What a fault leaves -/

/-- R115, R252: the Machine, host memory and the request's arguments are as before the step, but for the status and
the three fault registers. -/
structure PreciseFault (c : FaultCause) (info : Word) (s t : State) : Prop where
  status : t.status = .fault
  faultCause : t.faultCause = c
  faultPc : t.faultPc = s.pc
  faultInfo : t.faultInfo = info
  pc : t.pc = s.pc
  bp : t.bp = s.bp
  sp : t.sp = s.sp
  ax : t.ax = s.ax
  cycle : t.cycle = s.cycle
  opCounter : t.opCounter = s.opCounter
  dataCursor : t.dataCursor = s.dataCursor
  exitValue : t.exitValue = s.exitValue
  code : t.code = s.code
  data : t.data = s.data
  stack : t.stack = s.stack
  hmem : t.hmem = s.hmem
  heap : t.heap = s.heap
  par : t.par = s.par
  mode : t.mode = s.mode
  traceOn : t.traceOn = s.traceOn

/-- An instruction's outcome is the fault `c` with `info`, precise, and nothing has been asked of the host. -/
def FaultsUnasked (o : Host.Outcome State Fault Refusal) (c : FaultCause) (info : Word) (s : State) : Prop :=
  ∃ t, o = .next t ∧ PreciseFault c info s t ∧ PortQuiet s t

/-- An instruction's outcome is the fault `c` with `info`, precise. -/
def FaultsWith (o : Host.Outcome State Fault Refusal) (c : FaultCause) (info : Word) (s : State) : Prop :=
  ∃ t, o = .next t ∧ PreciseFault c info s t

end Sys2Proof.Machine
end

