-- ==== Sys2Proof/Certificates/Slice0/Obligations.lean ====
section
/-! DEFINITION. The statements for the provers. Each is about every state that meets its premises; the premise
`s.par.wf = true` says that the Machine could be constructed (R230), `Inv s` that the state is one the invariant
admits (its own statements: `StepKeepsInvariant`, `InvariantAtReset`, `HostOperationsKeepInvariant`). -/

open Sys2Proof Sys2Proof.Machine

/-! ### Encoding (spec/30_encoding.md) -/

/-- R80 to R87: no bit of an encoding is dropped: decoding the bytes of an instruction, followed by any bytes, gives
the instruction and those bytes. Opcode numbers and byte order: the spec's decisions D1, D3. -/
def Obligations.DecodeOfEncode : Prop :=
  ∀ (i : Instr) (rest : List Byte), i.wf = true → decodeBytes (encodeBytes i ++ rest) = .ok (i, rest)

/-- R80 to R88: every byte string with a meaning is the encoding of that meaning, so an instruction has one encoding.
Opcode numbers and byte order: the spec's decisions D1, D3. -/
def Obligations.EncodeOfDecode : Prop :=
  ∀ (bs rest : List Byte) (i : Instr), decodeBytes bs = .ok (i, rest) → bs = encodeBytes i ++ rest

/-- R83: which opcode cells are valid; the decoder refuses the others by name. The range is the spec's decision D1;
the refusal's name is the model's. -/
def Obligations.OpcodeCellValidity : Prop :=
  (∀ op imm : Word, (decodeInstr op imm).isSome = true ↔ 0 ≤ op.toInt ∧ op.toInt ≤ 38)
  ∧ ∀ (op : Word) (rest : List Byte), ¬ (0 ≤ op.toInt ∧ op.toInt ≤ 38) →
      decodeBytes (cellBytes op ++ rest) = .error (.unknownOpcode op)

/-- R84: the width an opcode cell tells is the width of the instruction; the eight opcodes up to ADJ have two cells,
every other value, invalid ones included, has one. The width of an invalid value: the spec's decision D20. -/
def Obligations.OpcodeCellTellsWidth : Prop :=
  (∀ (op imm : Word) (i : Instr), decodeInstr op imm = some i →
    (encode i).length = widthCells op ∧ 8 * widthCells op = (encodeBytes i).length
    ∧ (widthCells op = 2 ↔
        i ∈ [Instr.lea imm, .imm imm, .jmp imm, .call imm, .jz imm, .jnz imm, .ent imm, .adj imm]))
  ∧ ∀ op : Word, op.toInt < 0 ∨ 7 < op.toInt → widthCells op = 1

/-- R87: a few words of the opcode map, byte by byte as they stand in memory. Opcode numbers and byte order: the
spec's decisions D1, D3. -/
def Obligations.SampleWordsDecode : Prop :=
  decodeBytes [0x01, 0, 0, 0, 0, 0, 0, 0, 0x0A, 0, 0, 0, 0, 0, 0, 0] = .ok (.imm 10, [])
  ∧ decodeBytes [0x02, 0, 0, 0, 0, 0, 0, 0, 0x40, 0x00, 0x01, 0, 0, 0, 0, 0] = .ok (.jmp 0x10040, [])
  ∧ decodeBytes [0x0D, 0, 0, 0, 0, 0, 0, 0] = .ok (.push, [])
  ∧ decodeBytes [0x19, 0, 0, 0, 0, 0, 0, 0] = .ok (.add, [])
  ∧ decodeBytes [0x21, 0, 0, 0, 0, 0, 0, 0] = .ok (.prtf, [])
  ∧ decodeBytes [0x26, 0, 0, 0, 0, 0, 0, 0] = .ok (.exit, [])
  ∧ decodeBytes [0x27, 0, 0, 0, 0, 0, 0, 0] = .error (.unknownOpcode 39)

/-! ### The invariant, reset, the host's operations -/

/-- Every step keeps the invariant (R27, R30, R31, R34, R58). Canonical form and live ranges are the model's, log
entry 6. -/
def Obligations.StepKeepsInvariant : Prop :=
  ∀ s t : State, Inv s → step s = .next t → Inv t

/-- The invariant holds at reset, and of every Machine that can be constructed. Parameters and host memory at reset:
log entries 1, 2, 6. -/
def Obligations.InvariantAtReset : Prop :=
  Inv State.reset ∧ ∀ (p : Params) (s : State), construct p = some s → Inv s

/-- Every host operation keeps the invariant (R231 to R236, R275). The operations' corners: the spec's decisions D25
to D28. -/
def Obligations.HostOperationsKeepInvariant : Prop :=
  ∀ s : State, Inv s →
    (∀ v, Inv (s.append v).2) ∧ (∀ v, Inv (s.putConstant v).2) ∧ (∀ a, Inv (s.hostSetPc a))
    ∧ (∀ e c v t, s.setupEntry e c v = .ok t → Inv t) ∧ (∀ m b, Inv (s.request m b)) ∧ Inv s.resetMachine

/-- R38, R275: what reset leaves, in any status, and what construction leaves. exit_value and the fault registers: the
spec's decision D43. -/
def Obligations.ResetValues : Prop :=
  ∀ s t : State, (t = s.resetMachine ∨ (construct s.par = some t)) →
    t.pc = BitVec.ofNat 64 s.par.codeBase
    ∧ t.bp = BitVec.ofNat 64 (s.par.stackBase + s.par.poolSize)
    ∧ t.sp = BitVec.ofNat 64 (s.par.stackBase + s.par.poolSize)
    ∧ t.ax = 0 ∧ t.cycle = 0 ∧ t.opCounter = 0 ∧ t.dataCursor = s.par.dataBase ∧ t.status = .init
    ∧ t.exitValue = 0 ∧ t.faultCause = .none ∧ t.faultPc = 0 ∧ t.faultInfo = 0
    ∧ (∀ (X : Seg) (o : Nat), Memory.read (t.seg X) o = 0)
    ∧ t.par = s.par
    ∧ (t = s.resetMachine → t.hmem = s.hmem ∧ t.heap = s.heap)

/-! ### The step (spec/40_dispatch.md) -/

/-- R100, R104: a step that neither is halted nor stalls runs the instruction its bytes decode to. exec adds nothing
around it: it moves pc past the instruction's cells itself. The form of the step: the spec's decision D31. -/
def Obligations.StepRunsDecodedInstruction : Prop :=
  ∀ (s : State) (op imm : Word) (i : Instr), s.status.halted = false → s.stalls = false →
    s.fetch s.pc = .ok op → (widthCells op = 2 → s.fetch (s.pc + 8) = .ok imm) →
    decodeBytes (cellBytes op ++ if widthCells op = 2 then cellBytes imm else []) = .ok (i, []) →
    step s = exec i s

/-- R108, R109, R254: when a step stalls: the Machine is not halted and the guard says so; and that a stall changes
nothing. The guard's corners: the spec's decision D20; the form of STALL: log entry 20. -/
def Obligations.GuardStallsExactly : Prop :=
  ∀ s : State, s.par.wf = true →
    (s.stalls = true ↔
      s.status.halted = false ∧ s.mode = .guarded
      ∧ s.par.codeBase ≤ s.pc.toNat ∧ s.pc.toNat + 8 ≤ s.par.codeBase + s.par.poolSize
      ∧ s.pc.toNat % 8 = 0
      ∧ (s.opCounter < (s.pc.toNat - s.par.codeBase) / 8 + 1
        ∨ s.opCounter < (s.pc.toNat - s.par.codeBase) / 8
            + widthCells (Memory.readWord s.code (s.pc.toNat - s.par.codeBase) 8)))
    ∧ (s.stalls = true → step s = .next s)

/-- R117: a GUARDED step that does not stall is the BLOCKING step from the same state. The spec marks this as derived.
-/
def Obligations.GuardedStepIsBlockingStep : Prop :=
  ∀ s : State, s.stalls = false →
    (∀ t, step s = .next t ↔ ∃ u, step { s with mode := .blocking } = .next u ∧ t = { u with mode := s.mode })
    ∧ ∀ f, step s = .fault f ↔ step { s with mode := .blocking } = .fault f

/-- R61: what Fetch answers, its checks in their order. The checks: the spec's decisions D6 to D8. -/
def Obligations.FetchChecksInOrder : Prop :=
  ∀ (s : State) (a : Word), s.par.wf = true →
    let inCode := s.par.codeBase ≤ a.toNat ∧ a.toNat + 8 ≤ s.par.codeBase + s.par.poolSize
    let inStack := s.par.stackBase ≤ a.toNat ∧ a.toNat + 8 ≤ s.par.stackBase + s.par.poolSize
    (¬ inCode ∧ ¬ inStack → s.fetch a = .error ⟨.fetchSegment, a⟩)
    ∧ ((inCode ∨ inStack) ∧ a.toNat % 8 ≠ 0 → s.fetch a = .error ⟨.fetchMisaligned, a⟩)
    ∧ (inCode ∧ a.toNat % 8 = 0 ∧ s.opCounter ≤ (a.toNat - s.par.codeBase) / 8 →
        s.fetch a = .error ⟨.fetchUncommitted, a⟩)
    ∧ (a.toNat % 8 = 0 ∧ (inStack ∨ inCode ∧ (a.toNat - s.par.codeBase) / 8 < s.opCounter) →
        ∃ v, s.fetch a = .ok v ∧ BytesHold a 8 v s)

/-- R254, R115, R107: a fetch that fails, of the opcode cell or of the operand cell, ends the step in its precise
fault; it emits nothing and asks nothing of the host. The order is marked derived in the spec; precision is its
decision D18. -/
def Obligations.FetchFaultsArePrecise : Prop :=
  ∀ (s : State) (e : Trap), s.status.halted = false → s.stalls = false →
    (s.fetch s.pc = .error e
      ∨ ∃ op, s.fetch s.pc = .ok op ∧ 0 ≤ op.toInt ∧ op.toInt ≤ 7 ∧ s.fetch (s.pc + 8) = .error e) →
    ∃ t, step s = .next t ∧ PreciseFault e.cause e.info s t ∧ t.trace = s.trace ∧ PortQuiet s t

/-- R106: an unknown opcode ends the run with status ERROR. The state it leaves: the spec's decision D33. -/
def Obligations.UnknownOpcodeIsAnError : Prop :=
  ∀ (s : State) (op : Word), s.status.halted = false → s.stalls = false → s.fetch s.pc = .ok op →
    ¬ (0 ≤ op.toInt ∧ op.toInt ≤ 38) →
    ∃ t, step s = .next t ∧ t.status = .error ∧ t.pc = s.pc + 8 ∧ t.cycle = s.cycle + 1
      ∧ t.faultCause = .unknownOpcode ∧ t.faultPc = s.pc ∧ t.faultInfo = op
      ∧ t.trace = (if s.traceOn then s.trace ++ [⟨s.cycle + 1, op, none⟩] else s.trace)
      ∧ t.bp = s.bp ∧ t.sp = s.sp ∧ t.ax = s.ax ∧ t.opCounter = s.opCounter ∧ t.dataCursor = s.dataCursor
      ∧ t.exitValue = s.exitValue ∧ t.par = s.par ∧ t.mode = s.mode ∧ t.traceOn = s.traceOn
      ∧ PortQuiet s t ∧ BytesKept s t

/-- R115, R252: every fault of a step is precise, and its cause is one of codes 1 to 9. Precision: the spec's
decisions D18, D40. -/
def Obligations.EveryFaultIsPrecise : Prop :=
  ∀ s t : State, s.status.halted = false → step s = .next t → t.status = .fault →
    PreciseFault t.faultCause t.faultInfo s t ∧ 1 ≤ t.faultCause.toNat ∧ t.faultCause.toNat ≤ 9

/-- R101, R110: the status state machine: the halted statuses are absorbing, and each other change has its event. The
table is marked derived in the spec; absorption is its decision D19. -/
def Obligations.StatusTransitions : Prop :=
  (∀ s : State, (s.status = .exit ∨ s.status = .error ∨ s.status = .fault) → step s = .next s)
  ∧ ∀ s t : State, (s.status = .init ∨ s.status = .running) → step s = .next t →
    (s.stalls = true → t.status = s.status)
    ∧ (s.stalls = false → t.status ≠ .init)
    ∧ (t.status = .exit → s.fetchInstr = .instr .exit)
    ∧ (t.status = .error → ∃ op, s.fetchInstr = .unknown op)
    ∧ (s.stalls = false →
        (∀ e, s.fetchInstr = .trap e → t.status = .fault)
        ∧ (∀ op, s.fetchInstr = .unknown op → t.status = .error)
        ∧ (s.fetchInstr = .instr .exit → t.status = .exit ∨ t.status = .fault)
        ∧ (∀ i, s.fetchInstr = .instr i → i ≠ .exit → t.status = .running ∨ t.status = .fault))

/-- R100, U16: a step always ends in a next state, but for a host call whose host never answers. The form of the stop
is the model's, log entry 4. -/
def Obligations.StepStopsOnlyUnanswered : Prop :=
  ∀ s : State, (∃ t, step s = .next t)
    ∨ (step s = .fault .hostNeverAnswers ∧ s.nextAnswer = none
      ∧ ∃ i ∈ hostCallOpcodes, s.fetchInstr = .instr i)

/-- R103, R27, R28, R21: cycle counts every instruction fetched, and a fault undoes the increment; no step changes
op_counter, data_cursor, a parameter or the request's arguments, so a guest store into the code segment commits
nothing (R73). The spec's decisions D21, D29. -/
def Obligations.StepCountsAndCommitsNothing : Prop :=
  ∀ s t : State, step s = .next t →
    t.cycle = (if s.status.halted = false ∧ s.stalls = false ∧ t.status ≠ .fault then s.cycle + 1 else s.cycle)
      ∧ t.opCounter = s.opCounter ∧ t.dataCursor = s.dataCursor ∧ t.par = s.par ∧ t.mode = s.mode
      ∧ t.traceOn = s.traceOn

/-- R113, R114: when the requests `run` and `run_available` return, and what they return: a halted Machine returns at
once, and so does one that stalls; a step to a halted status makes the request return; any other step goes on with one
step less; and nothing else is ever returned. (Each is observed for a bounded number of steps, log entry 18.) The return
values are the spec's decision D35. -/
def Obligations.RunsReturnWhenHaltedOrStalled : Prop :=
  ∀ (s : State) (trace : Bool) (n : Nat),
    (∀ p ∈ [(s.request .blocking trace, s.run trace (n + 1)), (s.request .guarded trace, s.runAvailable trace (n + 1))],
      (s.status.halted = true → p.2 = .returned s.status false s.exitValue p.1)
      ∧ (p.1.stalls = true → p.2 = .returned s.status true s.exitValue p.1)
      ∧ ∀ u, s.status.halted = false → p.1.stalls = false → step p.1 = .next u →
          (u.status.halted = true → p.2 = .returned u.status false u.exitValue u)
          ∧ (u.status.halted = false → p.2 = u.runSteps n))
    ∧ ∀ (t : State) (st : Status) (stalled : Bool) (v : Word), Inv s →
        (s.run trace n = .returned st stalled v t →
          Inv t ∧ stalled = false ∧ st = t.status ∧ st.halted = true ∧ v = t.exitValue ∧ (st ≠ .exit → v = 0))
        ∧ (s.runAvailable trace n = .returned st stalled v t →
          Inv t ∧ (stalled = true ↔ st.halted = false) ∧ (stalled = true → t.stalls = true) ∧ st = t.status
            ∧ v = t.exitValue ∧ (st ≠ .exit → v = 0))

/-- R22, R24, R30: which instructions write bp, sp, ax and exit_value. The lists are marked derived in the spec. -/
def Obligations.RegisterWriters : Prop :=
  ∀ (i : Instr) (s t : State), exec i s = .next t →
    (t.bp ≠ s.bp → i = .lev ∨ ∃ w, i = .ent w)
    ∧ (t.sp ≠ s.sp → i ∈ binaryOpcodes ∨ i ∈ [Instr.lev, .si, .sc, .push] ∨ ∃ w, i = .call w ∨ i = .ent w ∨ i = .adj w)
    ∧ (t.ax ≠ s.ax →
        i ∈ binaryOpcodes ∨ i ∈ hostCallOpcodes ∨ i ∈ [Instr.li, .lc, .sc] ∨ ∃ w, i = .lea w ∨ i = .imm w)
    ∧ (t.exitValue ≠ s.exitValue → i = .exit)

/-- R107: an executed instruction emits one trace event when tracing is on, whether or not it then faults. The spec's
decisions D21, D44; the log of events is the model's, log entry 8. -/
def Obligations.TraceEventPerInstruction : Prop :=
  ∀ (i : Instr) (s t : State), exec i s = .next t →
    t.trace = if s.traceOn then s.trace ++ [⟨s.cycle + 1, i.opcode, i.operand⟩] else s.trace

/-! ### Memory (spec/20_memory.md) -/

/-- R55: the multiplexer, for the two widths. The multiplexer: the spec's decision D5. -/
def Obligations.RouteSelectsSegment : Prop :=
  ∀ (p : Params) (a : Word) (n : Nat), p.wf = true → n = 1 ∨ n = 8 →
    (∀ X o, route p a n = .seg X o ↔ base p X ≤ a.toNat ∧ a.toNat + n ≤ base p X + p.poolSize ∧ o = a.toNat - base p X)
    ∧ (route p a n = .straddle ↔
        (∀ X, ¬ (base p X ≤ a.toNat ∧ a.toNat + n ≤ base p X + p.poolSize))
        ∧ ((∃ X, a.toNat < base p X + p.poolSize ∧ base p X < a.toNat + n) ∨ 2 ^ 64 < a.toNat + n))
    ∧ (∀ x, route p a n = .hostMem x ↔
        (∀ X, ¬ (a.toNat < base p X + p.poolSize ∧ base p X < a.toNat + n)) ∧ a.toNat + n ≤ 2 ^ 64 ∧ x = a.toNat)

/-- R52: a cell is little-endian: its bytes, and the value read back. The byte order: the spec's decision D3. -/
def Obligations.CellIsLittleEndian : Prop :=
  ∀ (m : List Host.Cell) (o : Nat) (v : Word),
    Memory.readWord (Memory.writeWord m o 8 v) o 8 = v
    ∧ (∀ i < 8, Memory.read (Memory.writeWord m o 8 v) (o + i) = v.extractLsb' (8 * i) 8)
    ∧ ∀ k, ¬ (o ≤ k ∧ k < o + 8) → Memory.read (Memory.writeWord m o 8 v) k = Memory.read m k

/-- R52, R53, R63, R76: a data write puts its bytes where it says, changes no other byte and no register, and a data
read sees them. The spec's decisions D3, D47. -/
def Obligations.DataWriteThenRead : Prop :=
  ∀ (s t : State) (a v : Word) (n : Nat), s.par.wf = true → n = 1 ∨ n = 8 → s.memWrite a n v = .ok t →
    BytesHold a n v t ∧ BytesKeptOutside a n s t
    ∧ t.memRead a n = .ok (if n = 8 then v else (v.setWidth 8).setWidth 64)
    ∧ t = { s with code := t.code, data := t.data, stack := t.stack, hmem := t.hmem }

/-- R63, R57: the checks of a data access, in their order, for reads and writes alike. The checks: the spec's
decisions D5, D10, D47. -/
def Obligations.DataAccessChecks : Prop :=
  ∀ (s : State) (a v : Word) (n : Nat), s.par.wf = true → n = 1 ∨ n = 8 →
    let unallocated := ∃ x, route s.par a n = .hostMem x ∧ ∃ i < n, s.byteAt (a + BitVec.ofNat 64 i) = none
    ((route s.par a n = .straddle ∨ unallocated) →
      s.memRead a n = .error ⟨.dataAddress, a⟩ ∧ s.memWrite a n v = .error ⟨.dataAddress, a⟩)
    ∧ (route s.par a n ≠ .straddle → ¬ unallocated → n = 8 ∧ a.toNat % 8 ≠ 0 →
      s.memRead a n = .error ⟨.dataMisaligned, a⟩ ∧ s.memWrite a n v = .error ⟨.dataMisaligned, a⟩)
    ∧ (route s.par a n ≠ .straddle → ¬ unallocated → (n = 8 → a.toNat % 8 = 0) →
      (∃ w, s.memRead a n = .ok w ∧ BytesHold a n w s ∧ w.toNat < 2 ^ (8 * n))
      ∧ ∃ t, s.memWrite a n v = .ok t ∧ BytesHold a n v t ∧ BytesKeptOutside a n s t)

/-- R62: a stack access succeeds exactly at a cell of the stack segment, and else raises STACK_RANGE. The check: the
spec's decision D9. -/
def Obligations.StackAccessChecks : Prop :=
  ∀ (s : State) (a v : Word), s.par.wf = true →
    (IsStackCell s.par a →
      (∃ w, s.stackRead a = .ok w ∧ BytesHold a 8 w s)
      ∧ ∃ t, s.stackWrite a v = .ok t ∧ BytesHold a 8 v t ∧ BytesKeptOutside a 8 s t)
    ∧ (¬ IsStackCell s.par a →
      s.stackRead a = .error ⟨.stackRange, a⟩ ∧ s.stackWrite a v = .error ⟨.stackRange, a⟩)

/-- R64: a push followed by a pop gives the value back and restores sp. It follows from the two operations together.
-/
def Obligations.PopAfterPush : Prop :=
  ∀ (s t : State) (v : Word), s.push v = .ok t →
    t.sp = s.sp - 8 ∧ t.pop = .ok (v, t.setSp s.sp)

/-! ### LEA, IMM (spec/41_frame_and_immediate.md) -/

/-- R130, R131: LEA and IMM complete in every state; they write ax and touch nothing else. LEA's unit and wrap: the
spec's decisions D13, D14. -/
def Obligations.LeaAndImmLoadAx : Prop :=
  ∀ (s : State) (w : Word), ∀ p ∈ [(Instr.lea w, s.bp + BitVec.ofInt 64 (w.toInt * 8)), (Instr.imm w, w)],
    ∃ t, exec p.1 s = .next t ∧ t.ax = p.2 ∧ Retired p.1 s t ∧ PortQuiet s t ∧ BytesKept s t
      ∧ t.pc = s.pc + 16 ∧ t.bp = s.bp ∧ t.sp = s.sp

/-! ### Control transfer (spec/42_control_transfer.md) -/

/-- R140, R142, R143: the jumps complete for every target; a branch not taken falls through past its operand. -/
def Obligations.JumpsSetPc : Prop :=
  ∀ (s : State) (w : Word),
    ∀ p ∈ [(Instr.jmp w, w), (Instr.jz w, if s.ax = 0 then w else s.pc + 16),
           (Instr.jnz w, if s.ax = 0 then s.pc + 16 else w)],
      ∃ t, exec p.1 s = .next t ∧ t.pc = p.2 ∧ Retired p.1 s t ∧ PortQuiet s t ∧ BytesKept s t
        ∧ t.bp = s.bp ∧ t.sp = s.sp ∧ t.ax = s.ax

/-- R141: CALL. -/
def Obligations.CallPushesReturnAddress : Prop :=
  ∀ (s : State) (w : Word), s.par.wf = true →
    (IsStackCell s.par (s.sp - 8) →
      ∃ t, exec (.call w) s = .next t ∧ t.pc = w ∧ t.sp = s.sp - 8 ∧ BytesHold (s.sp - 8) 8 (s.pc + 16) t
        ∧ BytesKeptOutside (s.sp - 8) 8 s t ∧ t.bp = s.bp ∧ t.ax = s.ax ∧ Retired (.call w) s t ∧ PortQuiet s t)
    ∧ (¬ IsStackCell s.par (s.sp - 8) → FaultsWith (exec (.call w) s) .stackRange (s.sp - 8) s)

/-- R144: ENT. The unit, and that sp is not checked: the spec's decisions D13, D38. -/
def Obligations.EntEntersFrame : Prop :=
  ∀ (s : State) (w : Word), s.par.wf = true →
    (IsStackCell s.par (s.sp - 8) →
      ∃ t, exec (.ent w) s = .next t ∧ t.bp = s.sp - 8 ∧ t.sp = s.sp - 8 - BitVec.ofInt 64 (w.toInt * 8)
        ∧ BytesHold (s.sp - 8) 8 s.bp t ∧ BytesKeptOutside (s.sp - 8) 8 s t ∧ t.pc = s.pc + 16 ∧ t.ax = s.ax
        ∧ Retired (.ent w) s t ∧ PortQuiet s t)
    ∧ (¬ IsStackCell s.par (s.sp - 8) → FaultsWith (exec (.ent w) s) .stackRange (s.sp - 8) s)

/-- R145: ADJ completes in every state; it may move sp out of the segment. -/
def Obligations.AdjMovesStackPointer : Prop :=
  ∀ (s : State) (w : Word), ∃ t, exec (.adj w) s = .next t ∧ t.sp = s.sp + BitVec.ofInt 64 (w.toInt * 8)
    ∧ t.pc = s.pc + 16 ∧ t.bp = s.bp ∧ t.ax = s.ax ∧ Retired (.adj w) s t ∧ PortQuiet s t ∧ BytesKept s t

/-- R146: LEV. -/
def Obligations.LevLeavesFrame : Prop :=
  ∀ s : State, s.par.wf = true →
    (∀ b r, s.stackRead s.bp = .ok b → s.stackRead (s.bp + 8) = .ok r →
      ∃ t, exec .lev s = .next t ∧ t.sp = s.bp + 16 ∧ t.bp = b ∧ t.pc = r ∧ t.ax = s.ax
        ∧ Retired .lev s t ∧ PortQuiet s t ∧ BytesKept s t)
    ∧ (¬ IsStackCell s.par s.bp → FaultsWith (exec .lev s) .stackRange s.bp s)
    ∧ (IsStackCell s.par s.bp → ¬ IsStackCell s.par (s.bp + 8) →
        FaultsWith (exec .lev s) .stackRange (s.bp + 8) s)

/-! ### Loads, stores, push (spec/43_load_store.md) -/

/-- R160: LI. The checks of the read: the spec's decision D10. -/
def Obligations.LiLoadsWord : Prop :=
  ∀ s : State,
    (∀ v, s.memRead s.ax 8 = .ok v →
      ∃ t, exec .li s = .next t ∧ t.ax = v ∧ PointersKept s t ∧ Retired .li s t ∧ PortQuiet s t ∧ BytesKept s t)
    ∧ (∀ e, s.memRead s.ax 8 = .error e → FaultsWith (exec .li s) e.cause e.info s)

/-- R161: LC, under either value of LC_EXTEND. The widening: the spec's decision D11. -/
def Obligations.LcLoadsByte : Prop :=
  ∀ s : State, s.par.wf = true →
    (∀ b, s.byteAt s.ax = some b →
      ∃ t, exec .lc s = .next t ∧ t.ax = (if s.par.lcExtend = .sign then b.signExtend 64 else b.zeroExtend 64)
        ∧ PointersKept s t ∧ Retired .lc s t ∧ PortQuiet s t ∧ BytesKept s t)
    ∧ (s.byteAt s.ax = none → FaultsWith (exec .lc s) .dataAddress s.ax s)

/-- R162: SI. The checks of the write: the spec's decision D10. -/
def Obligations.SiStoresWord : Prop :=
  ∀ s : State, s.par.wf = true →
    (∀ a r, s.stackRead s.sp = .ok a → s.dataRoute a 8 = .ok r →
      ∃ t, exec .si s = .next t ∧ BytesHold a 8 s.ax t ∧ BytesKeptOutside a 8 s t ∧ t.sp = s.sp + 8
        ∧ t.pc = s.pc + 8 ∧ t.bp = s.bp ∧ t.ax = s.ax ∧ Retired .si s t ∧ PortQuiet s t)
    ∧ (∀ e, s.stackRead s.sp = .error e → FaultsWith (exec .si s) e.cause e.info s)
    ∧ (∀ a e, s.stackRead s.sp = .ok a → s.dataRoute a 8 = .error e → FaultsWith (exec .si s) e.cause e.info s)

/-- R163: SC, under either value of LC_EXTEND. What ax becomes: the spec's decision D12. -/
def Obligations.ScStoresByte : Prop :=
  ∀ s : State, s.par.wf = true →
    (∀ a, s.stackRead s.sp = .ok a → (s.byteAt a).isSome = true →
      ∃ t, exec .sc s = .next t ∧ t.byteAt a = some (s.ax.setWidth 8) ∧ BytesKeptOutside a 1 s t
        ∧ t.ax = (if s.par.lcExtend = .sign then (s.ax.setWidth 8).signExtend 64 else (s.ax.setWidth 8).zeroExtend 64)
        ∧ t.sp = s.sp + 8 ∧ t.pc = s.pc + 8 ∧ t.bp = s.bp ∧ Retired .sc s t ∧ PortQuiet s t)
    ∧ (∀ e, s.stackRead s.sp = .error e → FaultsWith (exec .sc s) e.cause e.info s)
    ∧ (∀ a, s.stackRead s.sp = .ok a → s.byteAt a = none → FaultsWith (exec .sc s) .dataAddress a s)

/-- R164: PUSH. -/
def Obligations.PushStoresAx : Prop :=
  ∀ s : State, s.par.wf = true →
    (IsStackCell s.par (s.sp - 8) →
      ∃ t, exec .push s = .next t ∧ t.sp = s.sp - 8 ∧ BytesHold (s.sp - 8) 8 s.ax t
        ∧ BytesKeptOutside (s.sp - 8) 8 s t ∧ t.pc = s.pc + 8 ∧ t.bp = s.bp ∧ t.ax = s.ax
        ∧ Retired .push s t ∧ PortQuiet s t)
    ∧ (¬ IsStackCell s.par (s.sp - 8) → FaultsWith (exec .push s) .stackRange (s.sp - 8) s)

/-! ### The binary opcodes (spec/44_alu.md) -/

/-- R175: the shape of the sixteen binary opcodes: the pop faults first; otherwise the left operand is popped and,
unless DIV or MOD faults, only ax and, for a shift, the count of free values differ further. The pop's check: the
spec's decision D9. -/
def Obligations.BinaryOpcodesPopOnce : Prop :=
  ∀ (s : State), ∀ i ∈ binaryOpcodes,
    (∀ e, s.stackRead s.sp = .error e → FaultsWith (exec i s) e.cause e.info s)
    ∧ (∀ a t, s.stackRead s.sp = .ok a → exec i s = .next t → t.status ≠ .fault →
        Retired i s t ∧ BytesKept s t ∧ t.pc = s.pc + 8 ∧ t.bp = s.bp ∧ t.sp = s.sp + 8
        ∧ t.requests = s.requests ∧ t.replies = s.replies ∧ t.heap = s.heap)

/-- R176, R177, R178: OR, XOR and AND, bit by bit; only the pop can fault. -/
def Obligations.LogicOpcodesBitwise : Prop :=
  ∀ s : State,
    (∀ a, s.stackRead s.sp = .ok a →
      ∀ p ∈ [(Instr.or, fun x y : Bool => x || y), (Instr.xor, fun x y : Bool => x != y),
             (Instr.and, fun x y : Bool => x && y)],
        ∃ t, exec p.1 s = .next t ∧ (∀ k < 64, t.ax.getLsbD k = p.2 (a.getLsbD k) (s.ax.getLsbD k))
          ∧ BinaryDone p.1 s t)
    ∧ ∀ e, s.stackRead s.sp = .error e → ∀ i ∈ [Instr.or, .xor, .and], FaultsWith (exec i s) e.cause e.info s

/-- R179 to R184: the comparisons are signed and write 0 or 1. Signedness: the spec's decision D17. -/
def Obligations.CompareOpcodesWriteBool : Prop :=
  ∀ (s : State) (a : Word), s.stackRead s.sp = .ok a →
    ∀ p ∈ [(Instr.eq, decide (a = s.ax)), (Instr.ne, decide (a ≠ s.ax)),
           (Instr.lt, decide (a.toInt < s.ax.toInt)), (Instr.gt, decide (s.ax.toInt < a.toInt)),
           (Instr.le, decide (a.toInt ≤ s.ax.toInt)), (Instr.ge, decide (s.ax.toInt ≤ a.toInt))],
      ∃ t, exec p.1 s = .next t ∧ t.ax = (if p.2 = true then 1 else 0) ∧ BinaryDone p.1 s t

/-- R187, R188, R189: ADD, SUB and MUL wrap modulo 2^64, read signed or unsigned. Wrapping: the spec's decision D14.
-/
def Obligations.AddSubMulWrap : Prop :=
  ∀ (s : State) (a : Word), s.stackRead s.sp = .ok a →
    ∀ p ∈ [(Instr.add, a.toInt + s.ax.toInt, a.toNat + s.ax.toNat),
           (Instr.sub, a.toInt - s.ax.toInt, a.toNat + (2 ^ 64 - s.ax.toNat)),
           (Instr.mul, a.toInt * s.ax.toInt, a.toNat * s.ax.toNat)],
      ∃ t, exec p.1 s = .next t ∧ t.ax = BitVec.ofInt 64 p.2.1 ∧ t.ax.toNat = p.2.2 % 2 ^ 64
        ∧ BinaryDone p.1 s t

/-- R185, R186: SHL and SHR complete for every count; a count in 0..63 gives the value the rules name, any other
leaves ax unstated (a free value), with everything else as for the other binary opcodes. The free value: log entry 5;
the counts and the kind of SHR: the spec's decision D16. -/
def Obligations.ShiftOpcodes : Prop :=
  ∀ (s : State) (a : Word), s.stackRead s.sp = .ok a →
    ∀ i ∈ [Instr.shl, Instr.shr],
      ∃ t, exec i s = .next t ∧ Retired i s t ∧ BytesKept s t ∧ t.pc = s.pc + 8 ∧ t.bp = s.bp ∧ t.sp = s.sp + 8
        ∧ t.requests = s.requests ∧ t.replies = s.replies ∧ t.heap = s.heap
        ∧ ((0 ≤ s.ax.toInt ∧ s.ax.toInt ≤ 63) →
            t.draws = s.draws
            ∧ (i = .shl → t.ax.toNat = a.toNat * 2 ^ s.ax.toNat % 2 ^ 64)
            ∧ (i = .shr → t.ax.toInt = a.toInt / 2 ^ s.ax.toNat))

/-- R190, R191: DIV and MOD: their faults in order, and their results otherwise. Faults and rounding: the spec's
decision D15. -/
def Obligations.DivAndModDivide : Prop :=
  ∀ (s : State) (a : Word), s.stackRead s.sp = .ok a →
    ∀ p ∈ [(Instr.div, a.toInt.tdiv s.ax.toInt), (Instr.mod, a.toInt - a.toInt.tdiv s.ax.toInt * s.ax.toInt)],
      (s.ax = 0 → FaultsWith (exec p.1 s) .divZero a s)
      ∧ (a.toInt = -2 ^ 63 → s.ax.toInt = -1 → FaultsWith (exec p.1 s) .divOverflow a s)
      ∧ (s.ax ≠ 0 → ¬ (a.toInt = -2 ^ 63 ∧ s.ax.toInt = -1) →
          ∃ t, exec p.1 s = .next t ∧ t.ax.toInt = p.2 ∧ BinaryDone p.1 s t)

/-! ### Host calls (spec/45_host_calls.md) -/

/-- R75, R205, R217: a host call changes no register but ax, and no control register; the opcodes other than READ and
MSET write no segment byte. The spec marks its table as derived; the access rule is its decision D40. -/
def Obligations.HostCallsTouchOnlyAx : Prop :=
  ∀ (s t : State), ∀ i ∈ hostCallOpcodes, exec i s = .next t →
    t.bp = s.bp ∧ t.sp = s.sp ∧ t.opCounter = s.opCounter ∧ t.dataCursor = s.dataCursor
    ∧ t.exitValue = s.exitValue ∧ t.par = s.par
    ∧ ((∃ c info, PreciseFault c info s t) ∨ (Retired i s t ∧ t.pc = s.pc + 8))
    ∧ (i ≠ .read → i ≠ .mset → ∀ X, t.seg X = s.seg X)

/-- R207, R254: CLOS, MALC, FREE, OPEN, READ, MSET and MCMP: an argument that is no stack cell raises STACK_RANGE, in
the order the arguments are listed; nothing is asked of the host. (PRTF's slots: PrtfPassesFiveValues.) The slots: the
spec's decision D23; the order is marked derived. -/
def Obligations.HostCallArgumentFaults : Prop :=
  ∀ (s : State) (e : Trap),
    (∀ i ∈ [Instr.clos, .malc, .free], s.stackRead s.sp = .error e → FaultsUnasked (exec i s) e.cause e.info s)
    ∧ (s.stackRead (s.sp + 8) = .error e → FaultsUnasked (exec .opn s) e.cause e.info s)
    ∧ (∀ v, s.stackRead (s.sp + 8) = .ok v → s.stackRead s.sp = .error e →
        FaultsUnasked (exec .opn s) e.cause e.info s)
    ∧ ∀ i ∈ [Instr.read, .mset, .mcmp],
        (s.stackRead (s.sp + 16) = .error e → FaultsUnasked (exec i s) e.cause e.info s)
        ∧ (∀ v, s.stackRead (s.sp + 16) = .ok v → s.stackRead (s.sp + 8) = .error e →
            FaultsUnasked (exec i s) e.cause e.info s)
        ∧ (∀ v w, s.stackRead (s.sp + 16) = .ok v → s.stackRead (s.sp + 8) = .ok w → s.stackRead s.sp = .error e →
            FaultsUnasked (exec i s) e.cause e.info s)

/-- R206, R208: OPEN. The answer is free, log entry 3; that no answer fails at the host's choice: log entry 9; a
string that runs past 2^64: log entry 12; the spec's decisions D23, D24, D40. -/
def Obligations.OpenAsksHost : Prop :=
  ∀ (s : State) (path flags : Word) (r : HostAnswer), s.stackRead (s.sp + 8) = .ok path →
    s.stackRead s.sp = .ok flags → s.nextAnswer = some r →
    (∀ n, StringAt s path n →
      ∃ t, exec .opn s = .next t ∧ t.ax = r.value ∧ PortUsed (.opn path flags) s t ∧ t.heap = s.heap
        ∧ PointersKept s t ∧ Retired .opn s t ∧ BytesKept s t)
    ∧ (∀ n, StringStopsAt s path n →
        FaultsWith (exec .opn s) .hostFault (path + BitVec.ofNat 64 n) s)

/-- R206, R209: READ. The host's answer is `r`; an answer that fails is HOST_FAULT with no address (log entry 9).
Answers: log entries 3, 9, 13; a range that runs past 2^64: log entry 12; the spec's decisions D23, D24, D40. -/
def Obligations.ReadKeepsCountLaw : Prop :=
  ∀ (s : State) (fd buf count : Word) (r : HostAnswer), s.stackRead (s.sp + 16) = .ok fd →
    s.stackRead (s.sp + 8) = .ok buf → s.stackRead s.sp = .ok count → s.nextAnswer = some r →
    let res := readResult count r.value
    (res.toInt = -1 ∨ (0 ≤ res.toInt ∧ res.toInt ≤ count.toNat))
    ∧ ((r.value.toInt = -1 ∨ (0 ≤ r.value.toInt ∧ r.value.toInt ≤ count.toNat)) → res = r.value)
    ∧ (r.fails.isSome = true → FaultsWith (exec .read s) .hostFault 0 s)
    ∧ (r.fails = none → RangeAccessible s buf res.toInt.toNat →
        ∃ t, exec .read s = .next t ∧ t.ax = res
          ∧ (∀ i < res.toInt.toNat, t.byteAt (buf + BitVec.ofNat 64 i) = some (r.bytes.getD i 0))
          ∧ BytesKeptOff buf res.toInt.toNat s t ∧ PortUsed (.read fd buf count) s t ∧ t.heap = s.heap
          ∧ PointersKept s t ∧ Retired .read s t)
    ∧ (∀ k, r.fails = none → RangeStopsAt s buf res.toInt.toNat k →
        FaultsWith (exec .read s) .hostFault (buf + BitVec.ofNat 64 k) s)

/-- R210: CLOS. The answer is free, log entry 3; that no answer fails at the host's choice: log entry 9. -/
def Obligations.ClosAsksHost : Prop :=
  ∀ (s : State) (fd : Word) (r : HostAnswer), s.stackRead s.sp = .ok fd → s.nextAnswer = some r →
    ∃ t, exec .clos s = .next t ∧ t.ax = r.value ∧ PortUsed (.clos fd) s t ∧ t.heap = s.heap
      ∧ PointersKept s t ∧ Retired .clos s t ∧ BytesKept s t

/-- R211, R212, R254: PRTF reads its count from the operand of the following ADJ, then the format and five values
whatever the count is, each in its order; the host reads the format and the strings its `%s` conversions name; the answer
to a format not known to need at most five values is the host's choice. How a format is read: log entry 10; an answer
that fails at the host's choice: log entry 9; several unreadable strings: log entry 22; a string that runs past 2^64: log
entry 12; the answer is free: log entry 3; the count: the spec's decision D22, more than five values: D24. -/
def Obligations.PrtfPassesFiveValues : Prop :=
  ConversionRules ∧ ∀ (s : State) (k : Word),
    (∀ e, s.fetch (s.pc + 16) = .error e → FaultsUnasked (exec .prtf s) e.cause e.info s)
    ∧ (s.fetch (s.pc + 16) = .ok k →
      let slot (j : Nat) := s.stackRead (s.sp + BitVec.ofInt 64 (k.toInt * 8) - BitVec.ofNat 64 (8 * j))
      (∀ e, ∀ j < 6, (∀ i < j, ∃ v, slot (i + 1) = .ok v) → slot (j + 1) = .error e →
        FaultsUnasked (exec .prtf s) e.cause e.info s)
      ∧ ∀ fmt v1 v2 v3 v4 v5 r, slot 1 = .ok fmt → slot 2 = .ok v1 → slot 3 = .ok v2 → slot 4 = .ok v3 →
          slot 5 = .ok v4 → slot 6 = .ok v5 → s.nextAnswer = some r →
          let values := [v1, v2, v3, v4, v5]
          let completes := ∃ t, exec .prtf s = .next t ∧ t.ax = r.value ∧ PortUsed (.prtf fmt v1 v2 v3 v4 v5) s t
              ∧ t.heap = s.heap ∧ PointersKept s t ∧ Retired .prtf s t ∧ BytesKept s t
          (∀ n, StringStopsAt s fmt n → FaultsWith (exec .prtf s) .hostFault (fmt + BitVec.ofNat 64 n) s)
          ∧ ∀ f, StringIs s fmt f →
            (NeedsFiveAtMost f → (∀ j x, NamesString f values j x → ∃ n, StringAt s x n) →
              (r.fails = none → completes) ∧ (r.fails.isSome = true → FaultsWith (exec .prtf s) .hostFault 0 s))
            ∧ (NeedsFiveAtMost f → ∀ j x n, NamesString f values j x → StringStopsAt s x n →
              (r.fails = some (x + BitVec.ofNat 64 n) →
                FaultsWith (exec .prtf s) .hostFault (x + BitVec.ofNat 64 n) s)
              ∧ (Inv s → ∃ j' x' n', NamesString f values j' x' ∧ StringStopsAt s x' n'
                ∧ FaultsWith (exec .prtf s) .hostFault (x' + BitVec.ofNat 64 n') s))
            ∧ (¬ NeedsFiveAtMost f →
              (r.fails = none → completes) ∧ ∀ a, r.fails = some a → FaultsWith (exec .prtf s) .hostFault a s))

/-- R213: MALC answers 0 and changes nothing, or a fresh range, whose bytes were not accessible and now are; and the
host may answer every such range. Log entries 3, 13, 14; that no answer fails at the host's choice: log entry 9; the
spec's decision D24. -/
def Obligations.MalcAllocatesFreshRange : Prop :=
  ∀ (s : State) (size : Word) (r : HostAnswer), Inv s → s.stackRead s.sp = .ok size → s.nextAnswer = some r →
    ∃ t, exec .malc s = .next t ∧ PortUsed (.malc size) s t ∧ PointersKept s t ∧ Retired .malc s t
      ∧ (r.value ≠ 0 → r.value.toNat + size.toNat ≤ 2 ^ 64 →
          (∀ i < size.toNat, s.byteAt (r.value + BitVec.ofNat 64 i) = none) →
          lookup s.heap r.value.toNat = none → t.ax = r.value)
      ∧ ((t.ax = 0 ∧ BytesKept s t ∧ t.heap = s.heap)
        ∨ (t.ax = r.value ∧ t.ax ≠ 0 ∧ t.ax.toNat + size.toNat ≤ 2 ^ 64
          ∧ (∀ i < size.toNat, s.byteAt (t.ax + BitVec.ofNat 64 i) = none
              ∧ t.byteAt (t.ax + BitVec.ofNat 64 i) = some (r.bytes.getD i 0))
          ∧ BytesKeptOff t.ax size.toNat s t ∧ lookup t.heap t.ax.toNat = some size.toNat
          ∧ ∀ q, q ≠ t.ax.toNat → lookup t.heap q = lookup s.heap q))

/-- R214: FREE ignores 0, releases a live range, and is a HOST_FAULT on any other address. ax is free, log entry 3;
that no answer fails at the host's choice: log entry 9; the law is the spec's decision D24. -/
def Obligations.FreeReleasesRange : Prop :=
  ∀ (s : State) (ptr : Word) (r : HostAnswer), Inv s → s.stackRead s.sp = .ok ptr → s.nextAnswer = some r →
    (ptr = 0 → ∃ t, exec .free s = .next t ∧ BytesKept s t ∧ t.heap = s.heap ∧ PortUsed (.free ptr) s t
      ∧ PointersKept s t ∧ Retired .free s t)
    ∧ (∀ n, ptr ≠ 0 → lookup s.heap ptr.toNat = some n →
        ∃ t, exec .free s = .next t ∧ (∀ i < n, t.byteAt (ptr + BitVec.ofNat 64 i) = none) ∧ BytesKeptOff ptr n s t
          ∧ lookup t.heap ptr.toNat = none ∧ (∀ q, q ≠ ptr.toNat → lookup t.heap q = lookup s.heap q)
          ∧ PortUsed (.free ptr) s t ∧ PointersKept s t ∧ Retired .free s t)
    ∧ (ptr ≠ 0 → lookup s.heap ptr.toNat = none → FaultsWith (exec .free s) .hostFault ptr s)

/-- R206, R215: MSET fills exactly its range, or faults having written nothing. That no answer fails at the host's
choice: log entry 9; a range that runs past 2^64: log entry 12; fill byte and result: the spec's decision D46. -/
def Obligations.MsetFillsRange : Prop :=
  ∀ (s : State) (dst val len : Word) (r : HostAnswer), s.stackRead (s.sp + 16) = .ok dst →
    s.stackRead (s.sp + 8) = .ok val → s.stackRead s.sp = .ok len → s.nextAnswer = some r →
    (RangeAccessible s dst len.toNat →
      ∃ t, exec .mset s = .next t ∧ t.ax = dst
        ∧ (∀ i < len.toNat, t.byteAt (dst + BitVec.ofNat 64 i) = some (val.setWidth 8))
        ∧ BytesKeptOff dst len.toNat s t ∧ PortUsed (.mset dst val len) s t ∧ t.heap = s.heap
        ∧ PointersKept s t ∧ Retired .mset s t)
    ∧ (∀ k, RangeStopsAt s dst len.toNat k → FaultsWith (exec .mset s) .hostFault (dst + BitVec.ofNat 64 k) s)

/-- R206, R216: MCMP's result is 0 for equal ranges and else has the sign of the first difference, bytes unsigned.
That no answer fails at the host's choice: log entry 9; a range that runs past 2^64: log entry 12; the magnitude is
free, log entries 3, 13; two unreadable ranges: log entry 11. -/
def Obligations.McmpComparesRanges : Prop :=
  ∀ (s : State) (a b len : Word) (r : HostAnswer), s.stackRead (s.sp + 16) = .ok a →
    s.stackRead (s.sp + 8) = .ok b → s.stackRead s.sp = .ok len → s.nextAnswer = some r →
    (RangeAccessible s a len.toNat → RangeAccessible s b len.toNat →
      ∃ t, exec .mcmp s = .next t
        ∧ ((∀ i < len.toNat, s.byteAt (a + BitVec.ofNat 64 i) = s.byteAt (b + BitVec.ofNat 64 i)) → t.ax = 0)
        ∧ (∀ k < len.toNat, ∀ x y : Byte,
            (∀ i < k, s.byteAt (a + BitVec.ofNat 64 i) = s.byteAt (b + BitVec.ofNat 64 i)) →
            s.byteAt (a + BitVec.ofNat 64 k) = some x → s.byteAt (b + BitVec.ofNat 64 k) = some y →
            (x.toNat < y.toNat → t.ax.toInt < 0) ∧ (y.toNat < x.toNat → 0 < t.ax.toInt))
        ∧ PortUsed (.mcmp a b len) s t ∧ t.heap = s.heap ∧ PointersKept s t ∧ Retired .mcmp s t ∧ BytesKept s t)
    ∧ (∀ k, RangeStopsAt s a len.toNat k → RangeAccessible s b len.toNat →
        FaultsWith (exec .mcmp s) .hostFault (a + BitVec.ofNat 64 k) s)
    ∧ (∀ k, RangeAccessible s a len.toNat → RangeStopsAt s b len.toNat k →
        FaultsWith (exec .mcmp s) .hostFault (b + BitVec.ofNat 64 k) s)

/-! ### EXIT (spec/46_halt.md) -/

/-- R225: EXIT records the top of the stack, which it does not pop. That it does not pop: the spec's decision D34. -/
def Obligations.ExitRecordsTopOfStack : Prop :=
  ∀ s : State,
    (∀ v, s.stackRead s.sp = .ok v →
      ∃ t, exec .exit s = .next t ∧ t.exitValue = v ∧ t.status = .exit ∧ PointersKept s t ∧ t.ax = s.ax
        ∧ t.cycle = s.cycle + 1 ∧ t.opCounter = s.opCounter ∧ t.dataCursor = s.dataCursor ∧ t.par = s.par
        ∧ t.faultCause = s.faultCause ∧ t.faultPc = s.faultPc ∧ t.faultInfo = s.faultInfo
        ∧ t.mode = s.mode ∧ t.traceOn = s.traceOn
        ∧ t.trace = (if s.traceOn then s.trace ++ [⟨s.cycle + 1, 38, none⟩] else s.trace)
        ∧ PortQuiet s t ∧ BytesKept s t)
    ∧ (∀ e, s.stackRead s.sp = .error e → FaultsWith (exec .exit s) e.cause e.info s)

/-! ### The host's operations (spec/47_host_interface.md) -/

/-- R231: append commits one cell, or reports the overflow and changes nothing. The overflow: the spec's decision D27.
-/
def Obligations.AppendCommitsCell : Prop :=
  ∀ (s : State) (v : Word),
    (s.opCounter < cap s.par →
      ∃ t, s.append v = (.ok, t) ∧ t.opCounter = s.opCounter + 1 ∧ t.codeCell s.opCounter = v
        ∧ (∀ o, ¬ (8 * s.opCounter ≤ o ∧ o < 8 * s.opCounter + 8) → Memory.read t.code o = Memory.read s.code o)
        ∧ t = { s with code := t.code, opCounter := t.opCounter })
    ∧ (cap s.par ≤ s.opCounter → s.append v = (.opCounterOverflow, s))

/-- R232: put_constant places one word at data_cursor, or reports the overflow and changes nothing. Width and
overflow: the spec's decision D26; outside the invariant: log entry 17. -/
def Obligations.PutConstantPlacesWord : Prop :=
  ∀ (s : State) (v : Word), Inv s →
    (s.dataCursor + 8 ≤ s.par.dataBase + s.par.poolSize →
      ∃ t, s.putConstant v = (.placed (BitVec.ofNat 64 s.dataCursor), t)
        ∧ BytesHold (BitVec.ofNat 64 s.dataCursor) 8 v t
        ∧ BytesKeptOutside (BitVec.ofNat 64 s.dataCursor) 8 s t ∧ t.dataCursor = s.dataCursor + 8
        ∧ t = { s with data := t.data, dataCursor := t.dataCursor })
    ∧ (s.par.dataBase + s.par.poolSize < s.dataCursor + 8 → s.putConstant v = (.dataOverflow, s))

/-- R236: setup_entry builds the entry stub and main's frame, and cannot fault. The sequence: the spec's decision D25.
-/
def Obligations.SetupEntryBuildsStub : Prop :=
  ∀ (s : State) (entry argc argv : Word), s.par.wf = true →
    let e := BitVec.ofNat 64 (s.par.stackBase + s.par.poolSize)
    ∃ t, s.setupEntry entry argc argv = .ok t ∧ t.pc = entry ∧ t.sp = e - 40 ∧ t.bp = e - 32
      ∧ t.stackRead (e - 8) = .ok 38 ∧ t.stackRead (e - 16) = .ok 13 ∧ t.stackRead (e - 24) = .ok argc
      ∧ t.stackRead (e - 32) = .ok argv ∧ t.stackRead (e - 40) = .ok (e - 16)
      ∧ BytesKeptOutside (e - 40) 40 s t
      ∧ t = { s with pc := t.pc, bp := t.bp, sp := t.sp, stack := t.stack }

/-- R237: the committed cells are instructions and cells that are no opcode, one after the other, and at the end there
may stand an opcode cell `op` whose operand is not committed; disassembling lists them in order, each with its first
cell's number: an instruction with its mnemonic and operand, another cell as UNKNOWN, `op` as INCOMPLETE. The form of
an entry: the spec's decision D39; mnemonics as text: log entry 19. -/
def Obligations.DisassembleListsProgram : Prop :=
  ∀ (s : State) (items : List CodeItem) (cut : Option Word),
    (∀ c, CodeItem.unknown c ∈ items → ¬ (0 ≤ c.toInt ∧ c.toInt ≤ 38)) →
    (∀ op ∈ cut, 0 ≤ op.toInt ∧ op.toInt ≤ 7) →
    let cells := items.flatMap CodeItem.cells ++ cut.toList
    s.opCounter = cells.length → (∀ k < s.opCounter, some (s.codeCell k) = cells[k]?) →
    s.disassemble = listingOf cut 0 items
end

