-- ==== Sys2Proof/Laws/Memory.lean ====
section
/-! SUPPORT. The laws of the byte stores: a read after a write, and that every operation keeps the canonical form. -/

namespace Sys2Proof.Machine

/-! ### Association lists -/

theorem lookup_insertKey {β : Type} (m : List (Nat × β)) (k q : Nat) (v : β) :
    lookup (insertKey m k v) q = if k = q then some v else lookup m q := by
  induction m with
  | nil => simp [insertKey, lookup]
  | cons c rest ih =>
    obtain ⟨j, w⟩ := c
    unfold insertKey
    split
    · simp [lookup]
    · split
      · subst_vars; simp only [lookup]; split <;> rfl
      · simp only [lookup, ih]
        split <;> split <;> first | rfl | omega

theorem lookup_filter {β : Type} (m : List (Nat × β)) (f : Nat → Bool) (q : Nat) :
    lookup (m.filter fun c => f c.1) q = if f q then lookup m q else none := by
  induction m with
  | nil => simp [lookup]
  | cons c rest ih =>
    obtain ⟨j, w⟩ := c
    by_cases hf : f j
    · simp only [List.filter_cons, hf, if_true, lookup, ih]
      by_cases hj : j = q
      · subst hj; simp [hf]
      · simp [hj]
    · rw [List.filter_cons_of_neg (by simpa using hf), ih]
      by_cases hj : j = q
      · subst hj; simp [hf]
      · simp [lookup, hj]

theorem lookup_eraseKey {β : Type} (m : List (Nat × β)) (k q : Nat) :
    lookup (eraseKey m k) q = if q = k then none else lookup m q := by
  have h := lookup_filter m (fun x => decide (x ≠ k)) q
  unfold eraseKey
  rw [h]
  by_cases hq : q = k <;> simp [hq]

/-- A value found is listed. -/
theorem mem_of_lookup {β : Type} {m : List (Nat × β)} {k : Nat} {v : β} (h : lookup m k = some v) : (k, v) ∈ m := by
  induction m with
  | nil => simp [lookup] at h
  | cons c rest ih =>
    obtain ⟨j, w⟩ := c
    simp only [lookup] at h
    split at h
    · subst_vars; simp_all
    · exact List.mem_cons_of_mem _ (ih h)

/-- A listed key is found. -/
theorem lookup_isSome_of_mem {β : Type} {m : List (Nat × β)} {c : Nat × β} (h : c ∈ m) :
    (lookup m c.1).isSome = true := by
  induction m with
  | nil => simp at h
  | cons d rest ih =>
    obtain ⟨j, w⟩ := d
    simp only [lookup]
    split
    · rfl
    · rcases List.mem_cons.mp h with rfl | h
      · simp_all
      · exact ih h

theorem mem_insertKey {β : Type} {m : List (Nat × β)} {k : Nat} {v : β} {c : Nat × β}
    (h : c ∈ insertKey m k v) : c = (k, v) ∨ c ∈ m := by
  induction m with
  | nil => simpa [insertKey] using h
  | cons d rest ih =>
    obtain ⟨j, w⟩ := d
    unfold insertKey at h
    split at h
    · simpa using h
    · split at h
      · rcases List.mem_cons.mp h with h | h
        · exact .inl h
        · exact .inr (List.mem_cons_of_mem _ h)
      · rcases List.mem_cons.mp h with h | h
        · exact .inr (h ▸ List.mem_cons_self)
        · exact (ih h).imp id (List.mem_cons_of_mem _)

/-! ### Keys strictly rising -/

/-- The canonical order as a pairwise relation. -/
theorem keysRising_iff {β : Type} (m : List (Nat × β)) :
    keysRising m = true ↔ m.Pairwise fun a b => a.1 < b.1 := by
  induction m with
  | nil => simp [keysRising]
  | cons a rest ih =>
    cases rest with
    | nil => simp [keysRising]
    | cons b rest =>
      simp only [keysRising, Bool.and_eq_true, decide_eq_true_eq, ih]
      constructor
      · rintro ⟨hab, hp⟩
        refine List.pairwise_cons.mpr ⟨?_, hp⟩
        intro c hc
        rcases List.mem_cons.mp hc with rfl | hc
        · exact hab
        · exact hab.trans ((List.pairwise_cons.mp hp).1 c hc)
      · intro hp
        have h := List.pairwise_cons.mp hp
        exact ⟨h.1 b List.mem_cons_self, h.2⟩

theorem keysRising_insertKey {β : Type} {m : List (Nat × β)} (h : keysRising m = true) (k : Nat) (v : β) :
    keysRising (insertKey m k v) = true := by
  rw [keysRising_iff] at h ⊢
  induction m with
  | nil => simp [insertKey]
  | cons c rest ih =>
    obtain ⟨j, w⟩ := c
    have hc := List.pairwise_cons.mp h
    unfold insertKey
    split
    · rename_i hkj
      refine List.pairwise_cons.mpr ⟨?_, h⟩
      intro d hd
      rcases List.mem_cons.mp hd with rfl | hd
      · exact hkj
      · exact hkj.trans (hc.1 d hd)
    · split
      · rename_i hkj; subst hkj
        exact List.pairwise_cons.mpr ⟨hc.1, hc.2⟩
      · refine List.pairwise_cons.mpr ⟨?_, ih hc.2⟩
        intro d hd
        rcases mem_insertKey hd with rfl | hd
        · simp only; omega
        · exact hc.1 d hd

theorem keysRising_filter {β : Type} {m : List (Nat × β)} (h : keysRising m = true) (f : Nat × β → Bool) :
    keysRising (m.filter f) = true := by
  rw [keysRising_iff] at h ⊢
  exact h.filter f

theorem keysRising_eraseKey {β : Type} {m : List (Nat × β)} (h : keysRising m = true) (k : Nat) :
    keysRising (eraseKey m k) = true := keysRising_filter h _

/-- With rising keys, a key is listed with one value only. -/
theorem lookup_of_mem {β : Type} {m : List (Nat × β)} (h : keysRising m = true) {k : Nat} {v : β}
    (hm : (k, v) ∈ m) : lookup m k = some v := by
  rw [keysRising_iff] at h
  induction m with
  | nil => simp at hm
  | cons c rest ih =>
    obtain ⟨j, w⟩ := c
    have hc := List.pairwise_cons.mp h
    simp only [lookup]
    rcases List.mem_cons.mp hm with hm | hm
    · simp_all
    · have := hc.1 _ hm
      rw [if_neg (by simp only at this; omega)]
      exact ih hc.2 hm

/-- With rising keys, a list is known by what it lists under each key: equal contents are equal data. -/
theorem eq_of_lookup_eq {β : Type} {m n : List (Nat × β)} (hm : keysRising m = true) (hn : keysRising n = true)
    (h : ∀ k, lookup m k = lookup n k) : m = n := by
  induction m generalizing n with
  | nil =>
    cases n with
    | nil => rfl
    | cons d _ => simpa [lookup] using h d.1
  | cons c m ih =>
    cases n with
    | nil => simpa [lookup] using h c.1
    | cons d n =>
      obtain ⟨j, v⟩ := c
      obtain ⟨k, w⟩ := d
      have hcm := List.pairwise_cons.mp ((keysRising_iff _).mp hm)
      have hdn := List.pairwise_cons.mp ((keysRising_iff _).mp hn)
      have hjk : j = k := by
        rcases Nat.lt_trichotomy j k with hlt | heq | hlt
        · have h1 := h j
          simp only [lookup, if_true] at h1
          rw [if_neg (by omega)] at h1
          have := hdn.1 _ (mem_of_lookup h1.symm)
          simp only at this; omega
        · exact heq
        · have h1 := h k
          simp only [lookup, if_true] at h1
          rw [if_neg (by omega)] at h1
          have := hcm.1 _ (mem_of_lookup h1)
          simp only at this; omega
      subst hjk
      have hvw : v = w := by simpa [lookup] using h j
      subst hvw
      congr 1
      refine ih ((keysRising_iff _).mpr hcm.2) ((keysRising_iff _).mpr hdn.2) fun q => ?_
      by_cases hq : j = q
      · subst hq
        have none1 : lookup m j = none := by
          by_contra hne
          obtain ⟨x, hx⟩ := Option.ne_none_iff_exists'.mp hne
          exact absurd (hcm.1 _ (mem_of_lookup hx)) (by simp)
        have none2 : lookup n j = none := by
          by_contra hne
          obtain ⟨x, hx⟩ := Option.ne_none_iff_exists'.mp hne
          exact absurd (hdn.1 _ (mem_of_lookup hx)) (by simp)
        rw [none1, none2]
      · simpa [lookup, hq] using h q

/-! ### Segments -/

namespace Memory

theorem read_write (m : List Host.Cell) (o k : Nat) (b : Byte) :
    read (write m o b) k = if o = k then b else read m k := by
  unfold read write
  split
  · subst_vars
    rw [lookup_eraseKey]
    by_cases hk : k = o
    · simp [hk]
    · rw [if_neg hk, if_neg (Ne.symm hk)]
  · rw [lookup_insertKey]
    split <;> rfl

theorem wf_iff (size : Nat) (m : List Host.Cell) :
    wf size m = true ↔ keysRising m = true ∧ ∀ c ∈ m, c.1 < size ∧ c.2 ≠ 0 := by
  simp [wf, List.all_eq_true]

theorem wf_nil (size : Nat) : wf size [] = true := rfl

theorem wf_write {size : Nat} {m : List Host.Cell} (h : wf size m = true) {o : Nat} (ho : o < size) (b : Byte) :
    wf size (write m o b) = true := by
  rw [wf_iff] at h ⊢
  unfold write
  split
  · exact ⟨keysRising_eraseKey h.1 o, fun c hc => h.2 c (List.mem_filter.mp hc).1⟩
  · rename_i hb
    refine ⟨keysRising_insertKey h.1 o b, fun c hc => ?_⟩
    rcases mem_insertKey hc with rfl | hc
    · exact ⟨ho, hb⟩
    · exact h.2 c hc

/-- Canonical segments that read alike are equal. -/
theorem eq_of_read_eq {size : Nat} {m n : List Host.Cell} (hm : wf size m = true) (hn : wf size n = true)
    (h : ∀ o, read m o = read n o) : m = n := by
  rw [wf_iff] at hm hn
  refine eq_of_lookup_eq hm.1 hn.1 fun k => ?_
  have hk := h k
  unfold read at hk
  cases h1 : lookup m k with
  | none =>
    cases h2 : lookup n k with
    | none => rfl
    | some w =>
      rw [h1, h2] at hk
      exact absurd hk.symm (hn.2 _ (mem_of_lookup h2)).2
  | some v =>
    cases h2 : lookup n k with
    | none =>
      rw [h1, h2] at hk
      exact absurd hk (hm.2 _ (mem_of_lookup h1)).2
    | some w => rw [h1, h2] at hk; simpa using hk

/-- What a multi-byte write leaves at each offset. -/
theorem read_writeWord (m : List Host.Cell) (o n : Nat) (v : Word) (k : Nat) :
    read (writeWord m o n v) k = if o ≤ k ∧ k < o + n then byteOf v (k - o) else read m k := by
  induction n with
  | zero => rw [if_neg (by omega)]; rfl
  | succ n ih =>
    unfold writeWord at ih ⊢
    rw [List.range_succ, List.foldl_append]
    simp only [List.foldl_cons, List.foldl_nil, read_write, ih]
    by_cases hk : o + n = k
    · subst hk; simp
    · rw [if_neg hk]
      by_cases hin : o ≤ k ∧ k < o + n
      · rw [if_pos hin, if_pos (by omega)]
      · rw [if_neg hin, if_neg (by omega)]

theorem wf_writeWord {size : Nat} {m : List Host.Cell} (h : wf size m = true) {o n : Nat} (ho : o + n ≤ size)
    (v : Word) : wf size (writeWord m o n v) = true := by
  induction n with
  | zero => simpa [writeWord] using h
  | succ n ih =>
    unfold writeWord at ih ⊢
    rw [List.range_succ, List.foldl_append]
    exact wf_write (ih (by omega)) (by omega) _

end Memory

/-! ### Host memory -/

namespace HostMemory

theorem lookup_writeWord (m : List Host.Cell) (a n : Nat) (v : Word) (k : Nat) :
    lookup (writeWord m a n v) k = if a ≤ k ∧ k < a + n then some (byteOf v (k - a)) else lookup m k := by
  induction n with
  | zero => rw [if_neg (by omega)]; rfl
  | succ n ih =>
    unfold writeWord at ih ⊢
    rw [List.range_succ, List.foldl_append]
    simp only [List.foldl_cons, List.foldl_nil, lookup_insertKey, ih]
    by_cases hk : a + n = k
    · subst hk; simp
    · rw [if_neg hk]
      by_cases hin : a ≤ k ∧ k < a + n
      · rw [if_pos hin, if_pos (by omega)]
      · rw [if_neg hin, if_neg (by omega)]

theorem lookup_allocate (m : List Host.Cell) (a n : Nat) (bytes : List Byte) (k : Nat) :
    lookup (allocate m a n bytes) k
      = if a ≤ k ∧ k < a + n then some (bytes.getD (k - a) 0) else lookup m k := by
  induction n with
  | zero => rw [if_neg (by omega)]; rfl
  | succ n ih =>
    unfold allocate at ih ⊢
    rw [List.range_succ, List.foldl_append]
    simp only [List.foldl_cons, List.foldl_nil, lookup_insertKey, ih]
    by_cases hk : a + n = k
    · subst hk; simp
    · rw [if_neg hk]
      by_cases hin : a ≤ k ∧ k < a + n
      · rw [if_pos hin, if_pos (by omega)]
      · rw [if_neg hin, if_neg (by omega)]

theorem lookup_release (m : List Host.Cell) (a n k : Nat) :
    lookup (release m a n) k = if a ≤ k ∧ k < a + n then none else lookup m k := by
  have h := lookup_filter m (fun x => !(decide (a ≤ x) && decide (x < a + n))) k
  unfold release
  rw [h]
  by_cases hin : a ≤ k ∧ k < a + n <;> simp [hin]

theorem allocated_iff (m : List Host.Cell) (a n : Nat) :
    allocated m a n = true ↔ ∀ i < n, (lookup m (a + i)).isSome = true := by
  simp [allocated, List.all_eq_true]

theorem vacant_iff (m : List Host.Cell) (a n : Nat) :
    vacant m a n = true ↔ ∀ k, a ≤ k → k < a + n → lookup m k = none := by
  simp only [vacant, List.all_eq_true, Bool.not_eq_true', Bool.and_eq_false_iff, decide_eq_false_iff_not]
  constructor
  · intro h k h1 h2
    by_contra hne
    obtain ⟨v, hv⟩ := Option.ne_none_iff_exists'.mp hne
    have := h _ (mem_of_lookup hv)
    simp only at this; omega
  · intro h c hc
    by_contra hne
    have hs := lookup_isSome_of_mem hc
    rw [h c.1 (by omega) (by omega)] at hs
    simp at hs

theorem keysRising_writeWord {m : List Host.Cell} (h : keysRising m = true) (a n : Nat) (v : Word) :
    keysRising (writeWord m a n v) = true := by
  induction n with
  | zero => simpa [writeWord] using h
  | succ n ih =>
    unfold writeWord at ih ⊢
    rw [List.range_succ, List.foldl_append]
    exact keysRising_insertKey ih _ _

theorem keysRising_allocate {m : List Host.Cell} (h : keysRising m = true) (a n : Nat) (bytes : List Byte) :
    keysRising (allocate m a n bytes) = true := by
  induction n with
  | zero => simpa [allocate] using h
  | succ n ih =>
    unfold allocate at ih ⊢
    rw [List.range_succ, List.foldl_append]
    exact keysRising_insertKey ih _ _

theorem keysRising_release {m : List Host.Cell} (h : keysRising m = true) (a n : Nat) :
    keysRising (release m a n) = true := keysRising_filter h _

end HostMemory

end Sys2Proof.Machine
end

