-- ==== Sys2Proof/Laws/State.lean ====
section
/-! SUPPORT. One lemma per field per named update of State, so that no proof unfolds a record update. -/

namespace Sys2Proof.Machine

/-! ### setAx -/

@[simp] theorem State.setAx_par (s : State) (v : Word) : (s.setAx v).par = s.par := rfl
@[simp] theorem State.setAx_pc (s : State) (v : Word) : (s.setAx v).pc = s.pc := rfl
@[simp] theorem State.setAx_bp (s : State) (v : Word) : (s.setAx v).bp = s.bp := rfl
@[simp] theorem State.setAx_sp (s : State) (v : Word) : (s.setAx v).sp = s.sp := rfl
@[simp] theorem State.setAx_ax (s : State) (v : Word) : (s.setAx v).ax = v := rfl
@[simp] theorem State.setAx_status (s : State) (v : Word) : (s.setAx v).status = s.status := rfl
@[simp] theorem State.setAx_opCounter (s : State) (v : Word) : (s.setAx v).opCounter = s.opCounter := rfl
@[simp] theorem State.setAx_dataCursor (s : State) (v : Word) : (s.setAx v).dataCursor = s.dataCursor := rfl
@[simp] theorem State.setAx_cycle (s : State) (v : Word) : (s.setAx v).cycle = s.cycle := rfl
@[simp] theorem State.setAx_exitValue (s : State) (v : Word) : (s.setAx v).exitValue = s.exitValue := rfl
@[simp] theorem State.setAx_faultCause (s : State) (v : Word) : (s.setAx v).faultCause = s.faultCause := rfl
@[simp] theorem State.setAx_faultPc (s : State) (v : Word) : (s.setAx v).faultPc = s.faultPc := rfl
@[simp] theorem State.setAx_faultInfo (s : State) (v : Word) : (s.setAx v).faultInfo = s.faultInfo := rfl
@[simp] theorem State.setAx_code (s : State) (v : Word) : (s.setAx v).code = s.code := rfl
@[simp] theorem State.setAx_data (s : State) (v : Word) : (s.setAx v).data = s.data := rfl
@[simp] theorem State.setAx_stack (s : State) (v : Word) : (s.setAx v).stack = s.stack := rfl
@[simp] theorem State.setAx_hmem (s : State) (v : Word) : (s.setAx v).hmem = s.hmem := rfl
@[simp] theorem State.setAx_heap (s : State) (v : Word) : (s.setAx v).heap = s.heap := rfl
@[simp] theorem State.setAx_mode (s : State) (v : Word) : (s.setAx v).mode = s.mode := rfl
@[simp] theorem State.setAx_traceOn (s : State) (v : Word) : (s.setAx v).traceOn = s.traceOn := rfl
@[simp] theorem State.setAx_trace (s : State) (v : Word) : (s.setAx v).trace = s.trace := rfl
@[simp] theorem State.setAx_requests (s : State) (v : Word) : (s.setAx v).requests = s.requests := rfl
@[simp] theorem State.setAx_replies (s : State) (v : Word) : (s.setAx v).replies = s.replies := rfl
@[simp] theorem State.setAx_draws (s : State) (v : Word) : (s.setAx v).draws = s.draws := rfl

/-! ### setBp -/

@[simp] theorem State.setBp_par (s : State) (v : Word) : (s.setBp v).par = s.par := rfl
@[simp] theorem State.setBp_pc (s : State) (v : Word) : (s.setBp v).pc = s.pc := rfl
@[simp] theorem State.setBp_bp (s : State) (v : Word) : (s.setBp v).bp = v := rfl
@[simp] theorem State.setBp_sp (s : State) (v : Word) : (s.setBp v).sp = s.sp := rfl
@[simp] theorem State.setBp_ax (s : State) (v : Word) : (s.setBp v).ax = s.ax := rfl
@[simp] theorem State.setBp_status (s : State) (v : Word) : (s.setBp v).status = s.status := rfl
@[simp] theorem State.setBp_opCounter (s : State) (v : Word) : (s.setBp v).opCounter = s.opCounter := rfl
@[simp] theorem State.setBp_dataCursor (s : State) (v : Word) : (s.setBp v).dataCursor = s.dataCursor := rfl
@[simp] theorem State.setBp_cycle (s : State) (v : Word) : (s.setBp v).cycle = s.cycle := rfl
@[simp] theorem State.setBp_exitValue (s : State) (v : Word) : (s.setBp v).exitValue = s.exitValue := rfl
@[simp] theorem State.setBp_faultCause (s : State) (v : Word) : (s.setBp v).faultCause = s.faultCause := rfl
@[simp] theorem State.setBp_faultPc (s : State) (v : Word) : (s.setBp v).faultPc = s.faultPc := rfl
@[simp] theorem State.setBp_faultInfo (s : State) (v : Word) : (s.setBp v).faultInfo = s.faultInfo := rfl
@[simp] theorem State.setBp_code (s : State) (v : Word) : (s.setBp v).code = s.code := rfl
@[simp] theorem State.setBp_data (s : State) (v : Word) : (s.setBp v).data = s.data := rfl
@[simp] theorem State.setBp_stack (s : State) (v : Word) : (s.setBp v).stack = s.stack := rfl
@[simp] theorem State.setBp_hmem (s : State) (v : Word) : (s.setBp v).hmem = s.hmem := rfl
@[simp] theorem State.setBp_heap (s : State) (v : Word) : (s.setBp v).heap = s.heap := rfl
@[simp] theorem State.setBp_mode (s : State) (v : Word) : (s.setBp v).mode = s.mode := rfl
@[simp] theorem State.setBp_traceOn (s : State) (v : Word) : (s.setBp v).traceOn = s.traceOn := rfl
@[simp] theorem State.setBp_trace (s : State) (v : Word) : (s.setBp v).trace = s.trace := rfl
@[simp] theorem State.setBp_requests (s : State) (v : Word) : (s.setBp v).requests = s.requests := rfl
@[simp] theorem State.setBp_replies (s : State) (v : Word) : (s.setBp v).replies = s.replies := rfl
@[simp] theorem State.setBp_draws (s : State) (v : Word) : (s.setBp v).draws = s.draws := rfl

/-! ### setSp -/

@[simp] theorem State.setSp_par (s : State) (v : Word) : (s.setSp v).par = s.par := rfl
@[simp] theorem State.setSp_pc (s : State) (v : Word) : (s.setSp v).pc = s.pc := rfl
@[simp] theorem State.setSp_bp (s : State) (v : Word) : (s.setSp v).bp = s.bp := rfl
@[simp] theorem State.setSp_sp (s : State) (v : Word) : (s.setSp v).sp = v := rfl
@[simp] theorem State.setSp_ax (s : State) (v : Word) : (s.setSp v).ax = s.ax := rfl
@[simp] theorem State.setSp_status (s : State) (v : Word) : (s.setSp v).status = s.status := rfl
@[simp] theorem State.setSp_opCounter (s : State) (v : Word) : (s.setSp v).opCounter = s.opCounter := rfl
@[simp] theorem State.setSp_dataCursor (s : State) (v : Word) : (s.setSp v).dataCursor = s.dataCursor := rfl
@[simp] theorem State.setSp_cycle (s : State) (v : Word) : (s.setSp v).cycle = s.cycle := rfl
@[simp] theorem State.setSp_exitValue (s : State) (v : Word) : (s.setSp v).exitValue = s.exitValue := rfl
@[simp] theorem State.setSp_faultCause (s : State) (v : Word) : (s.setSp v).faultCause = s.faultCause := rfl
@[simp] theorem State.setSp_faultPc (s : State) (v : Word) : (s.setSp v).faultPc = s.faultPc := rfl
@[simp] theorem State.setSp_faultInfo (s : State) (v : Word) : (s.setSp v).faultInfo = s.faultInfo := rfl
@[simp] theorem State.setSp_code (s : State) (v : Word) : (s.setSp v).code = s.code := rfl
@[simp] theorem State.setSp_data (s : State) (v : Word) : (s.setSp v).data = s.data := rfl
@[simp] theorem State.setSp_stack (s : State) (v : Word) : (s.setSp v).stack = s.stack := rfl
@[simp] theorem State.setSp_hmem (s : State) (v : Word) : (s.setSp v).hmem = s.hmem := rfl
@[simp] theorem State.setSp_heap (s : State) (v : Word) : (s.setSp v).heap = s.heap := rfl
@[simp] theorem State.setSp_mode (s : State) (v : Word) : (s.setSp v).mode = s.mode := rfl
@[simp] theorem State.setSp_traceOn (s : State) (v : Word) : (s.setSp v).traceOn = s.traceOn := rfl
@[simp] theorem State.setSp_trace (s : State) (v : Word) : (s.setSp v).trace = s.trace := rfl
@[simp] theorem State.setSp_requests (s : State) (v : Word) : (s.setSp v).requests = s.requests := rfl
@[simp] theorem State.setSp_replies (s : State) (v : Word) : (s.setSp v).replies = s.replies := rfl
@[simp] theorem State.setSp_draws (s : State) (v : Word) : (s.setSp v).draws = s.draws := rfl

/-! ### setPc -/

@[simp] theorem State.setPc_par (s : State) (v : Word) : (s.setPc v).par = s.par := rfl
@[simp] theorem State.setPc_pc (s : State) (v : Word) : (s.setPc v).pc = v := rfl
@[simp] theorem State.setPc_bp (s : State) (v : Word) : (s.setPc v).bp = s.bp := rfl
@[simp] theorem State.setPc_sp (s : State) (v : Word) : (s.setPc v).sp = s.sp := rfl
@[simp] theorem State.setPc_ax (s : State) (v : Word) : (s.setPc v).ax = s.ax := rfl
@[simp] theorem State.setPc_status (s : State) (v : Word) : (s.setPc v).status = s.status := rfl
@[simp] theorem State.setPc_opCounter (s : State) (v : Word) : (s.setPc v).opCounter = s.opCounter := rfl
@[simp] theorem State.setPc_dataCursor (s : State) (v : Word) : (s.setPc v).dataCursor = s.dataCursor := rfl
@[simp] theorem State.setPc_cycle (s : State) (v : Word) : (s.setPc v).cycle = s.cycle := rfl
@[simp] theorem State.setPc_exitValue (s : State) (v : Word) : (s.setPc v).exitValue = s.exitValue := rfl
@[simp] theorem State.setPc_faultCause (s : State) (v : Word) : (s.setPc v).faultCause = s.faultCause := rfl
@[simp] theorem State.setPc_faultPc (s : State) (v : Word) : (s.setPc v).faultPc = s.faultPc := rfl
@[simp] theorem State.setPc_faultInfo (s : State) (v : Word) : (s.setPc v).faultInfo = s.faultInfo := rfl
@[simp] theorem State.setPc_code (s : State) (v : Word) : (s.setPc v).code = s.code := rfl
@[simp] theorem State.setPc_data (s : State) (v : Word) : (s.setPc v).data = s.data := rfl
@[simp] theorem State.setPc_stack (s : State) (v : Word) : (s.setPc v).stack = s.stack := rfl
@[simp] theorem State.setPc_hmem (s : State) (v : Word) : (s.setPc v).hmem = s.hmem := rfl
@[simp] theorem State.setPc_heap (s : State) (v : Word) : (s.setPc v).heap = s.heap := rfl
@[simp] theorem State.setPc_mode (s : State) (v : Word) : (s.setPc v).mode = s.mode := rfl
@[simp] theorem State.setPc_traceOn (s : State) (v : Word) : (s.setPc v).traceOn = s.traceOn := rfl
@[simp] theorem State.setPc_trace (s : State) (v : Word) : (s.setPc v).trace = s.trace := rfl
@[simp] theorem State.setPc_requests (s : State) (v : Word) : (s.setPc v).requests = s.requests := rfl
@[simp] theorem State.setPc_replies (s : State) (v : Word) : (s.setPc v).replies = s.replies := rfl
@[simp] theorem State.setPc_draws (s : State) (v : Word) : (s.setPc v).draws = s.draws := rfl

/-! ### setHmem -/

@[simp] theorem State.setHmem_par (s : State) (v : List Host.Cell) : (s.setHmem v).par = s.par := rfl
@[simp] theorem State.setHmem_pc (s : State) (v : List Host.Cell) : (s.setHmem v).pc = s.pc := rfl
@[simp] theorem State.setHmem_bp (s : State) (v : List Host.Cell) : (s.setHmem v).bp = s.bp := rfl
@[simp] theorem State.setHmem_sp (s : State) (v : List Host.Cell) : (s.setHmem v).sp = s.sp := rfl
@[simp] theorem State.setHmem_ax (s : State) (v : List Host.Cell) : (s.setHmem v).ax = s.ax := rfl
@[simp] theorem State.setHmem_status (s : State) (v : List Host.Cell) : (s.setHmem v).status = s.status := rfl
@[simp] theorem State.setHmem_opCounter (s : State) (v : List Host.Cell) : (s.setHmem v).opCounter = s.opCounter := rfl
@[simp] theorem State.setHmem_dataCursor (s : State) (v : List Host.Cell) : (s.setHmem v).dataCursor = s.dataCursor := rfl
@[simp] theorem State.setHmem_cycle (s : State) (v : List Host.Cell) : (s.setHmem v).cycle = s.cycle := rfl
@[simp] theorem State.setHmem_exitValue (s : State) (v : List Host.Cell) : (s.setHmem v).exitValue = s.exitValue := rfl
@[simp] theorem State.setHmem_faultCause (s : State) (v : List Host.Cell) : (s.setHmem v).faultCause = s.faultCause := rfl
@[simp] theorem State.setHmem_faultPc (s : State) (v : List Host.Cell) : (s.setHmem v).faultPc = s.faultPc := rfl
@[simp] theorem State.setHmem_faultInfo (s : State) (v : List Host.Cell) : (s.setHmem v).faultInfo = s.faultInfo := rfl
@[simp] theorem State.setHmem_code (s : State) (v : List Host.Cell) : (s.setHmem v).code = s.code := rfl
@[simp] theorem State.setHmem_data (s : State) (v : List Host.Cell) : (s.setHmem v).data = s.data := rfl
@[simp] theorem State.setHmem_stack (s : State) (v : List Host.Cell) : (s.setHmem v).stack = s.stack := rfl
@[simp] theorem State.setHmem_hmem (s : State) (v : List Host.Cell) : (s.setHmem v).hmem = v := rfl
@[simp] theorem State.setHmem_heap (s : State) (v : List Host.Cell) : (s.setHmem v).heap = s.heap := rfl
@[simp] theorem State.setHmem_mode (s : State) (v : List Host.Cell) : (s.setHmem v).mode = s.mode := rfl
@[simp] theorem State.setHmem_traceOn (s : State) (v : List Host.Cell) : (s.setHmem v).traceOn = s.traceOn := rfl
@[simp] theorem State.setHmem_trace (s : State) (v : List Host.Cell) : (s.setHmem v).trace = s.trace := rfl
@[simp] theorem State.setHmem_requests (s : State) (v : List Host.Cell) : (s.setHmem v).requests = s.requests := rfl
@[simp] theorem State.setHmem_replies (s : State) (v : List Host.Cell) : (s.setHmem v).replies = s.replies := rfl
@[simp] theorem State.setHmem_draws (s : State) (v : List Host.Cell) : (s.setHmem v).draws = s.draws := rfl

/-! ### setSeg -/

@[simp] theorem State.setSeg_par (s : State) (X : Seg) (m : List Host.Cell) : (s.setSeg X m).par = s.par := by cases X <;> rfl
@[simp] theorem State.setSeg_pc (s : State) (X : Seg) (m : List Host.Cell) : (s.setSeg X m).pc = s.pc := by cases X <;> rfl
@[simp] theorem State.setSeg_bp (s : State) (X : Seg) (m : List Host.Cell) : (s.setSeg X m).bp = s.bp := by cases X <;> rfl
@[simp] theorem State.setSeg_sp (s : State) (X : Seg) (m : List Host.Cell) : (s.setSeg X m).sp = s.sp := by cases X <;> rfl
@[simp] theorem State.setSeg_ax (s : State) (X : Seg) (m : List Host.Cell) : (s.setSeg X m).ax = s.ax := by cases X <;> rfl
@[simp] theorem State.setSeg_status (s : State) (X : Seg) (m : List Host.Cell) : (s.setSeg X m).status = s.status := by cases X <;> rfl
@[simp] theorem State.setSeg_opCounter (s : State) (X : Seg) (m : List Host.Cell) : (s.setSeg X m).opCounter = s.opCounter := by cases X <;> rfl
@[simp] theorem State.setSeg_dataCursor (s : State) (X : Seg) (m : List Host.Cell) : (s.setSeg X m).dataCursor = s.dataCursor := by cases X <;> rfl
@[simp] theorem State.setSeg_cycle (s : State) (X : Seg) (m : List Host.Cell) : (s.setSeg X m).cycle = s.cycle := by cases X <;> rfl
@[simp] theorem State.setSeg_exitValue (s : State) (X : Seg) (m : List Host.Cell) : (s.setSeg X m).exitValue = s.exitValue := by cases X <;> rfl
@[simp] theorem State.setSeg_faultCause (s : State) (X : Seg) (m : List Host.Cell) : (s.setSeg X m).faultCause = s.faultCause := by cases X <;> rfl
@[simp] theorem State.setSeg_faultPc (s : State) (X : Seg) (m : List Host.Cell) : (s.setSeg X m).faultPc = s.faultPc := by cases X <;> rfl
@[simp] theorem State.setSeg_faultInfo (s : State) (X : Seg) (m : List Host.Cell) : (s.setSeg X m).faultInfo = s.faultInfo := by cases X <;> rfl
@[simp] theorem State.setSeg_hmem (s : State) (X : Seg) (m : List Host.Cell) : (s.setSeg X m).hmem = s.hmem := by cases X <;> rfl
@[simp] theorem State.setSeg_heap (s : State) (X : Seg) (m : List Host.Cell) : (s.setSeg X m).heap = s.heap := by cases X <;> rfl
@[simp] theorem State.setSeg_mode (s : State) (X : Seg) (m : List Host.Cell) : (s.setSeg X m).mode = s.mode := by cases X <;> rfl
@[simp] theorem State.setSeg_traceOn (s : State) (X : Seg) (m : List Host.Cell) : (s.setSeg X m).traceOn = s.traceOn := by cases X <;> rfl
@[simp] theorem State.setSeg_trace (s : State) (X : Seg) (m : List Host.Cell) : (s.setSeg X m).trace = s.trace := by cases X <;> rfl
@[simp] theorem State.setSeg_requests (s : State) (X : Seg) (m : List Host.Cell) : (s.setSeg X m).requests = s.requests := by cases X <;> rfl
@[simp] theorem State.setSeg_replies (s : State) (X : Seg) (m : List Host.Cell) : (s.setSeg X m).replies = s.replies := by cases X <;> rfl
@[simp] theorem State.setSeg_draws (s : State) (X : Seg) (m : List Host.Cell) : (s.setSeg X m).draws = s.draws := by cases X <;> rfl

@[simp] theorem State.seg_setSeg_same (s : State) (X : Seg) (m : List Host.Cell) : (s.setSeg X m).seg X = m := by
  cases X <;> rfl

theorem State.seg_setSeg_ne (s : State) {X Y : Seg} (m : List Host.Cell) (h : Y ≠ X) :
    (s.setSeg X m).seg Y = s.seg Y := by
  cases X <;> cases Y <;> first | rfl | exact absurd rfl h

@[simp] theorem State.seg_setAx (s : State) (v : Word) (X : Seg) : (s.setAx v).seg X = s.seg X := by cases X <;> rfl
@[simp] theorem State.seg_setBp (s : State) (v : Word) (X : Seg) : (s.setBp v).seg X = s.seg X := by cases X <;> rfl
@[simp] theorem State.seg_setSp (s : State) (v : Word) (X : Seg) : (s.setSp v).seg X = s.seg X := by cases X <;> rfl
@[simp] theorem State.seg_setPc (s : State) (v : Word) (X : Seg) : (s.setPc v).seg X = s.seg X := by cases X <;> rfl
@[simp] theorem State.seg_setHmem (s : State) (v : List Host.Cell) (X : Seg) : (s.setHmem v).seg X = s.seg X := by cases X <;> rfl

/-! ### begun -/

@[simp] theorem State.begun_par (s : State) (i : Instr) :
    (s.begun i).par = s.par := by
  unfold State.begun State.emit; split <;> simp_all
@[simp] theorem State.begun_pc (s : State) (i : Instr) :
    (s.begun i).pc = s.pc + BitVec.ofNat 64 (8 * i.width) := by
  unfold State.begun State.emit; split <;> simp_all
@[simp] theorem State.begun_bp (s : State) (i : Instr) :
    (s.begun i).bp = s.bp := by
  unfold State.begun State.emit; split <;> simp_all
@[simp] theorem State.begun_sp (s : State) (i : Instr) :
    (s.begun i).sp = s.sp := by
  unfold State.begun State.emit; split <;> simp_all
@[simp] theorem State.begun_ax (s : State) (i : Instr) :
    (s.begun i).ax = s.ax := by
  unfold State.begun State.emit; split <;> simp_all
@[simp] theorem State.begun_status (s : State) (i : Instr) :
    (s.begun i).status = .running := by
  unfold State.begun State.emit; split <;> simp_all
@[simp] theorem State.begun_opCounter (s : State) (i : Instr) :
    (s.begun i).opCounter = s.opCounter := by
  unfold State.begun State.emit; split <;> simp_all
@[simp] theorem State.begun_dataCursor (s : State) (i : Instr) :
    (s.begun i).dataCursor = s.dataCursor := by
  unfold State.begun State.emit; split <;> simp_all
@[simp] theorem State.begun_cycle (s : State) (i : Instr) :
    (s.begun i).cycle = s.cycle + 1 := by
  unfold State.begun State.emit; split <;> simp_all
@[simp] theorem State.begun_exitValue (s : State) (i : Instr) :
    (s.begun i).exitValue = s.exitValue := by
  unfold State.begun State.emit; split <;> simp_all
@[simp] theorem State.begun_faultCause (s : State) (i : Instr) :
    (s.begun i).faultCause = s.faultCause := by
  unfold State.begun State.emit; split <;> simp_all
@[simp] theorem State.begun_faultPc (s : State) (i : Instr) :
    (s.begun i).faultPc = s.faultPc := by
  unfold State.begun State.emit; split <;> simp_all
@[simp] theorem State.begun_faultInfo (s : State) (i : Instr) :
    (s.begun i).faultInfo = s.faultInfo := by
  unfold State.begun State.emit; split <;> simp_all
@[simp] theorem State.begun_code (s : State) (i : Instr) :
    (s.begun i).code = s.code := by
  unfold State.begun State.emit; split <;> simp_all
@[simp] theorem State.begun_data (s : State) (i : Instr) :
    (s.begun i).data = s.data := by
  unfold State.begun State.emit; split <;> simp_all
@[simp] theorem State.begun_stack (s : State) (i : Instr) :
    (s.begun i).stack = s.stack := by
  unfold State.begun State.emit; split <;> simp_all
@[simp] theorem State.begun_hmem (s : State) (i : Instr) :
    (s.begun i).hmem = s.hmem := by
  unfold State.begun State.emit; split <;> simp_all
@[simp] theorem State.begun_heap (s : State) (i : Instr) :
    (s.begun i).heap = s.heap := by
  unfold State.begun State.emit; split <;> simp_all
@[simp] theorem State.begun_mode (s : State) (i : Instr) :
    (s.begun i).mode = s.mode := by
  unfold State.begun State.emit; split <;> simp_all
@[simp] theorem State.begun_traceOn (s : State) (i : Instr) :
    (s.begun i).traceOn = s.traceOn := by
  unfold State.begun State.emit; split <;> simp_all
@[simp] theorem State.begun_trace (s : State) (i : Instr) :
    (s.begun i).trace = if s.traceOn then s.trace ++ [⟨s.cycle + 1, i.opcode, i.operand⟩] else s.trace := by
  unfold State.begun State.emit; split <;> simp_all
@[simp] theorem State.begun_requests (s : State) (i : Instr) :
    (s.begun i).requests = s.requests := by
  unfold State.begun State.emit; split <;> simp_all
@[simp] theorem State.begun_replies (s : State) (i : Instr) :
    (s.begun i).replies = s.replies := by
  unfold State.begun State.emit; split <;> simp_all
@[simp] theorem State.begun_draws (s : State) (i : Instr) :
    (s.begun i).draws = s.draws := by
  unfold State.begun State.emit; split <;> simp_all
@[simp] theorem State.seg_begun (s : State) (i : Instr) (X : Seg) : (s.begun i).seg X = s.seg X := by
  cases X <;> simp [State.seg]

/-! ### takeFault -/

@[simp] theorem State.takeFault_par (s u : State) (e : Trap) : (s.takeFault u e).par = s.par := rfl
@[simp] theorem State.takeFault_pc (s u : State) (e : Trap) : (s.takeFault u e).pc = s.pc := rfl
@[simp] theorem State.takeFault_bp (s u : State) (e : Trap) : (s.takeFault u e).bp = s.bp := rfl
@[simp] theorem State.takeFault_sp (s u : State) (e : Trap) : (s.takeFault u e).sp = s.sp := rfl
@[simp] theorem State.takeFault_ax (s u : State) (e : Trap) : (s.takeFault u e).ax = s.ax := rfl
@[simp] theorem State.takeFault_status (s u : State) (e : Trap) : (s.takeFault u e).status = .fault := rfl
@[simp] theorem State.takeFault_opCounter (s u : State) (e : Trap) : (s.takeFault u e).opCounter = s.opCounter := rfl
@[simp] theorem State.takeFault_dataCursor (s u : State) (e : Trap) : (s.takeFault u e).dataCursor = s.dataCursor := rfl
@[simp] theorem State.takeFault_cycle (s u : State) (e : Trap) : (s.takeFault u e).cycle = s.cycle := rfl
@[simp] theorem State.takeFault_exitValue (s u : State) (e : Trap) : (s.takeFault u e).exitValue = s.exitValue := rfl
@[simp] theorem State.takeFault_faultCause (s u : State) (e : Trap) : (s.takeFault u e).faultCause = e.cause := rfl
@[simp] theorem State.takeFault_faultPc (s u : State) (e : Trap) : (s.takeFault u e).faultPc = s.pc := rfl
@[simp] theorem State.takeFault_faultInfo (s u : State) (e : Trap) : (s.takeFault u e).faultInfo = e.info := rfl
@[simp] theorem State.takeFault_code (s u : State) (e : Trap) : (s.takeFault u e).code = s.code := rfl
@[simp] theorem State.takeFault_data (s u : State) (e : Trap) : (s.takeFault u e).data = s.data := rfl
@[simp] theorem State.takeFault_stack (s u : State) (e : Trap) : (s.takeFault u e).stack = s.stack := rfl
@[simp] theorem State.takeFault_hmem (s u : State) (e : Trap) : (s.takeFault u e).hmem = s.hmem := rfl
@[simp] theorem State.takeFault_heap (s u : State) (e : Trap) : (s.takeFault u e).heap = s.heap := rfl
@[simp] theorem State.takeFault_mode (s u : State) (e : Trap) : (s.takeFault u e).mode = s.mode := rfl
@[simp] theorem State.takeFault_traceOn (s u : State) (e : Trap) : (s.takeFault u e).traceOn = s.traceOn := rfl
@[simp] theorem State.takeFault_trace (s u : State) (e : Trap) : (s.takeFault u e).trace = u.trace := rfl
@[simp] theorem State.takeFault_requests (s u : State) (e : Trap) : (s.takeFault u e).requests = u.requests := rfl
@[simp] theorem State.takeFault_replies (s u : State) (e : Trap) : (s.takeFault u e).replies = u.replies := rfl
@[simp] theorem State.takeFault_draws (s u : State) (e : Trap) : (s.takeFault u e).draws = u.draws := rfl

/-! ### unknownOpcode -/

@[simp] theorem State.unknownOpcode_par (s : State) (op : Word) :
    (s.unknownOpcode op).par = s.par := by
  unfold State.unknownOpcode State.emit; split <;> simp_all
@[simp] theorem State.unknownOpcode_pc (s : State) (op : Word) :
    (s.unknownOpcode op).pc = s.pc + 8 := by
  unfold State.unknownOpcode State.emit; split <;> simp_all
@[simp] theorem State.unknownOpcode_bp (s : State) (op : Word) :
    (s.unknownOpcode op).bp = s.bp := by
  unfold State.unknownOpcode State.emit; split <;> simp_all
@[simp] theorem State.unknownOpcode_sp (s : State) (op : Word) :
    (s.unknownOpcode op).sp = s.sp := by
  unfold State.unknownOpcode State.emit; split <;> simp_all
@[simp] theorem State.unknownOpcode_ax (s : State) (op : Word) :
    (s.unknownOpcode op).ax = s.ax := by
  unfold State.unknownOpcode State.emit; split <;> simp_all
@[simp] theorem State.unknownOpcode_status (s : State) (op : Word) :
    (s.unknownOpcode op).status = .error := by
  unfold State.unknownOpcode State.emit; split <;> simp_all
@[simp] theorem State.unknownOpcode_opCounter (s : State) (op : Word) :
    (s.unknownOpcode op).opCounter = s.opCounter := by
  unfold State.unknownOpcode State.emit; split <;> simp_all
@[simp] theorem State.unknownOpcode_dataCursor (s : State) (op : Word) :
    (s.unknownOpcode op).dataCursor = s.dataCursor := by
  unfold State.unknownOpcode State.emit; split <;> simp_all
@[simp] theorem State.unknownOpcode_cycle (s : State) (op : Word) :
    (s.unknownOpcode op).cycle = s.cycle + 1 := by
  unfold State.unknownOpcode State.emit; split <;> simp_all
@[simp] theorem State.unknownOpcode_exitValue (s : State) (op : Word) :
    (s.unknownOpcode op).exitValue = s.exitValue := by
  unfold State.unknownOpcode State.emit; split <;> simp_all
@[simp] theorem State.unknownOpcode_faultCause (s : State) (op : Word) :
    (s.unknownOpcode op).faultCause = .unknownOpcode := by
  unfold State.unknownOpcode State.emit; split <;> simp_all
@[simp] theorem State.unknownOpcode_faultPc (s : State) (op : Word) :
    (s.unknownOpcode op).faultPc = s.pc := by
  unfold State.unknownOpcode State.emit; split <;> simp_all
@[simp] theorem State.unknownOpcode_faultInfo (s : State) (op : Word) :
    (s.unknownOpcode op).faultInfo = op := by
  unfold State.unknownOpcode State.emit; split <;> simp_all
@[simp] theorem State.unknownOpcode_code (s : State) (op : Word) :
    (s.unknownOpcode op).code = s.code := by
  unfold State.unknownOpcode State.emit; split <;> simp_all
@[simp] theorem State.unknownOpcode_data (s : State) (op : Word) :
    (s.unknownOpcode op).data = s.data := by
  unfold State.unknownOpcode State.emit; split <;> simp_all
@[simp] theorem State.unknownOpcode_stack (s : State) (op : Word) :
    (s.unknownOpcode op).stack = s.stack := by
  unfold State.unknownOpcode State.emit; split <;> simp_all
@[simp] theorem State.unknownOpcode_hmem (s : State) (op : Word) :
    (s.unknownOpcode op).hmem = s.hmem := by
  unfold State.unknownOpcode State.emit; split <;> simp_all
@[simp] theorem State.unknownOpcode_heap (s : State) (op : Word) :
    (s.unknownOpcode op).heap = s.heap := by
  unfold State.unknownOpcode State.emit; split <;> simp_all
@[simp] theorem State.unknownOpcode_mode (s : State) (op : Word) :
    (s.unknownOpcode op).mode = s.mode := by
  unfold State.unknownOpcode State.emit; split <;> simp_all
@[simp] theorem State.unknownOpcode_traceOn (s : State) (op : Word) :
    (s.unknownOpcode op).traceOn = s.traceOn := by
  unfold State.unknownOpcode State.emit; split <;> simp_all
@[simp] theorem State.unknownOpcode_trace (s : State) (op : Word) :
    (s.unknownOpcode op).trace = if s.traceOn then s.trace ++ [⟨s.cycle + 1, op, none⟩] else s.trace := by
  unfold State.unknownOpcode State.emit; split <;> simp_all
@[simp] theorem State.unknownOpcode_requests (s : State) (op : Word) :
    (s.unknownOpcode op).requests = s.requests := by
  unfold State.unknownOpcode State.emit; split <;> simp_all
@[simp] theorem State.unknownOpcode_replies (s : State) (op : Word) :
    (s.unknownOpcode op).replies = s.replies := by
  unfold State.unknownOpcode State.emit; split <;> simp_all
@[simp] theorem State.unknownOpcode_draws (s : State) (op : Word) :
    (s.unknownOpcode op).draws = s.draws := by
  unfold State.unknownOpcode State.emit; split <;> simp_all

/-! ### sent -/

@[simp] theorem State.sent_par (s : State) (q : HostRequest) : (s.sent q).par = s.par := rfl
@[simp] theorem State.sent_pc (s : State) (q : HostRequest) : (s.sent q).pc = s.pc := rfl
@[simp] theorem State.sent_bp (s : State) (q : HostRequest) : (s.sent q).bp = s.bp := rfl
@[simp] theorem State.sent_sp (s : State) (q : HostRequest) : (s.sent q).sp = s.sp := rfl
@[simp] theorem State.sent_ax (s : State) (q : HostRequest) : (s.sent q).ax = s.ax := rfl
@[simp] theorem State.sent_status (s : State) (q : HostRequest) : (s.sent q).status = s.status := rfl
@[simp] theorem State.sent_opCounter (s : State) (q : HostRequest) : (s.sent q).opCounter = s.opCounter := rfl
@[simp] theorem State.sent_dataCursor (s : State) (q : HostRequest) : (s.sent q).dataCursor = s.dataCursor := rfl
@[simp] theorem State.sent_cycle (s : State) (q : HostRequest) : (s.sent q).cycle = s.cycle := rfl
@[simp] theorem State.sent_exitValue (s : State) (q : HostRequest) : (s.sent q).exitValue = s.exitValue := rfl
@[simp] theorem State.sent_faultCause (s : State) (q : HostRequest) : (s.sent q).faultCause = s.faultCause := rfl
@[simp] theorem State.sent_faultPc (s : State) (q : HostRequest) : (s.sent q).faultPc = s.faultPc := rfl
@[simp] theorem State.sent_faultInfo (s : State) (q : HostRequest) : (s.sent q).faultInfo = s.faultInfo := rfl
@[simp] theorem State.sent_code (s : State) (q : HostRequest) : (s.sent q).code = s.code := rfl
@[simp] theorem State.sent_data (s : State) (q : HostRequest) : (s.sent q).data = s.data := rfl
@[simp] theorem State.sent_stack (s : State) (q : HostRequest) : (s.sent q).stack = s.stack := rfl
@[simp] theorem State.sent_hmem (s : State) (q : HostRequest) : (s.sent q).hmem = s.hmem := rfl
@[simp] theorem State.sent_heap (s : State) (q : HostRequest) : (s.sent q).heap = s.heap := rfl
@[simp] theorem State.sent_mode (s : State) (q : HostRequest) : (s.sent q).mode = s.mode := rfl
@[simp] theorem State.sent_traceOn (s : State) (q : HostRequest) : (s.sent q).traceOn = s.traceOn := rfl
@[simp] theorem State.sent_trace (s : State) (q : HostRequest) : (s.sent q).trace = s.trace := rfl
@[simp] theorem State.sent_requests (s : State) (q : HostRequest) : (s.sent q).requests = s.requests ++ [q] := rfl
@[simp] theorem State.sent_replies (s : State) (q : HostRequest) : (s.sent q).replies = s.replies.tail := rfl
@[simp] theorem State.sent_draws (s : State) (q : HostRequest) : (s.sent q).draws = s.draws + 1 := rfl
@[simp] theorem State.seg_sent (s : State) (q : HostRequest) (X : Seg) : (s.sent q).seg X = s.seg X := by cases X <;> rfl

/-! ### recordExit -/

@[simp] theorem State.recordExit_par (s : State) (v : Word) : (s.recordExit v).par = s.par := rfl
@[simp] theorem State.recordExit_pc (s : State) (v : Word) : (s.recordExit v).pc = s.pc := rfl
@[simp] theorem State.recordExit_bp (s : State) (v : Word) : (s.recordExit v).bp = s.bp := rfl
@[simp] theorem State.recordExit_sp (s : State) (v : Word) : (s.recordExit v).sp = s.sp := rfl
@[simp] theorem State.recordExit_ax (s : State) (v : Word) : (s.recordExit v).ax = s.ax := rfl
@[simp] theorem State.recordExit_status (s : State) (v : Word) : (s.recordExit v).status = .exit := rfl
@[simp] theorem State.recordExit_opCounter (s : State) (v : Word) : (s.recordExit v).opCounter = s.opCounter := rfl
@[simp] theorem State.recordExit_dataCursor (s : State) (v : Word) : (s.recordExit v).dataCursor = s.dataCursor := rfl
@[simp] theorem State.recordExit_cycle (s : State) (v : Word) : (s.recordExit v).cycle = s.cycle := rfl
@[simp] theorem State.recordExit_exitValue (s : State) (v : Word) : (s.recordExit v).exitValue = v := rfl
@[simp] theorem State.recordExit_faultCause (s : State) (v : Word) : (s.recordExit v).faultCause = s.faultCause := rfl
@[simp] theorem State.recordExit_faultPc (s : State) (v : Word) : (s.recordExit v).faultPc = s.faultPc := rfl
@[simp] theorem State.recordExit_faultInfo (s : State) (v : Word) : (s.recordExit v).faultInfo = s.faultInfo := rfl
@[simp] theorem State.recordExit_code (s : State) (v : Word) : (s.recordExit v).code = s.code := rfl
@[simp] theorem State.recordExit_data (s : State) (v : Word) : (s.recordExit v).data = s.data := rfl
@[simp] theorem State.recordExit_stack (s : State) (v : Word) : (s.recordExit v).stack = s.stack := rfl
@[simp] theorem State.recordExit_hmem (s : State) (v : Word) : (s.recordExit v).hmem = s.hmem := rfl
@[simp] theorem State.recordExit_heap (s : State) (v : Word) : (s.recordExit v).heap = s.heap := rfl
@[simp] theorem State.recordExit_mode (s : State) (v : Word) : (s.recordExit v).mode = s.mode := rfl
@[simp] theorem State.recordExit_traceOn (s : State) (v : Word) : (s.recordExit v).traceOn = s.traceOn := rfl
@[simp] theorem State.recordExit_trace (s : State) (v : Word) : (s.recordExit v).trace = s.trace := rfl
@[simp] theorem State.recordExit_requests (s : State) (v : Word) : (s.recordExit v).requests = s.requests := rfl
@[simp] theorem State.recordExit_replies (s : State) (v : Word) : (s.recordExit v).replies = s.replies := rfl
@[simp] theorem State.recordExit_draws (s : State) (v : Word) : (s.recordExit v).draws = s.draws := rfl
@[simp] theorem State.seg_recordExit (s : State) (v : Word) (X : Seg) : (s.recordExit v).seg X = s.seg X := by cases X <;> rfl

/-! ### drawAx -/

@[simp] theorem State.drawAx_par (s : State) : s.drawAx.par = s.par := rfl
@[simp] theorem State.drawAx_pc (s : State) : s.drawAx.pc = s.pc := rfl
@[simp] theorem State.drawAx_bp (s : State) : s.drawAx.bp = s.bp := rfl
@[simp] theorem State.drawAx_sp (s : State) : s.drawAx.sp = s.sp := rfl
@[simp] theorem State.drawAx_ax (s : State) : s.drawAx.ax = Config.shiftDraw s.draws := rfl
@[simp] theorem State.drawAx_status (s : State) : s.drawAx.status = s.status := rfl
@[simp] theorem State.drawAx_opCounter (s : State) : s.drawAx.opCounter = s.opCounter := rfl
@[simp] theorem State.drawAx_dataCursor (s : State) : s.drawAx.dataCursor = s.dataCursor := rfl
@[simp] theorem State.drawAx_cycle (s : State) : s.drawAx.cycle = s.cycle := rfl
@[simp] theorem State.drawAx_exitValue (s : State) : s.drawAx.exitValue = s.exitValue := rfl
@[simp] theorem State.drawAx_faultCause (s : State) : s.drawAx.faultCause = s.faultCause := rfl
@[simp] theorem State.drawAx_faultPc (s : State) : s.drawAx.faultPc = s.faultPc := rfl
@[simp] theorem State.drawAx_faultInfo (s : State) : s.drawAx.faultInfo = s.faultInfo := rfl
@[simp] theorem State.drawAx_code (s : State) : s.drawAx.code = s.code := rfl
@[simp] theorem State.drawAx_data (s : State) : s.drawAx.data = s.data := rfl
@[simp] theorem State.drawAx_stack (s : State) : s.drawAx.stack = s.stack := rfl
@[simp] theorem State.drawAx_hmem (s : State) : s.drawAx.hmem = s.hmem := rfl
@[simp] theorem State.drawAx_heap (s : State) : s.drawAx.heap = s.heap := rfl
@[simp] theorem State.drawAx_mode (s : State) : s.drawAx.mode = s.mode := rfl
@[simp] theorem State.drawAx_traceOn (s : State) : s.drawAx.traceOn = s.traceOn := rfl
@[simp] theorem State.drawAx_trace (s : State) : s.drawAx.trace = s.trace := rfl
@[simp] theorem State.drawAx_requests (s : State) : s.drawAx.requests = s.requests := rfl
@[simp] theorem State.drawAx_replies (s : State) : s.drawAx.replies = s.replies := rfl
@[simp] theorem State.drawAx_draws (s : State) : s.drawAx.draws = s.draws + 1 := rfl
@[simp] theorem State.seg_drawAx (s : State) (X : Seg) : s.drawAx.seg X = s.seg X := by cases X <;> rfl

/-! ### allocateRange -/

@[simp] theorem State.allocateRange_par (s : State) (a n : Nat) (bytes : List Byte) : (s.allocateRange a n bytes).par = s.par := rfl
@[simp] theorem State.allocateRange_pc (s : State) (a n : Nat) (bytes : List Byte) : (s.allocateRange a n bytes).pc = s.pc := rfl
@[simp] theorem State.allocateRange_bp (s : State) (a n : Nat) (bytes : List Byte) : (s.allocateRange a n bytes).bp = s.bp := rfl
@[simp] theorem State.allocateRange_sp (s : State) (a n : Nat) (bytes : List Byte) : (s.allocateRange a n bytes).sp = s.sp := rfl
@[simp] theorem State.allocateRange_ax (s : State) (a n : Nat) (bytes : List Byte) : (s.allocateRange a n bytes).ax = s.ax := rfl
@[simp] theorem State.allocateRange_status (s : State) (a n : Nat) (bytes : List Byte) : (s.allocateRange a n bytes).status = s.status := rfl
@[simp] theorem State.allocateRange_opCounter (s : State) (a n : Nat) (bytes : List Byte) : (s.allocateRange a n bytes).opCounter = s.opCounter := rfl
@[simp] theorem State.allocateRange_dataCursor (s : State) (a n : Nat) (bytes : List Byte) : (s.allocateRange a n bytes).dataCursor = s.dataCursor := rfl
@[simp] theorem State.allocateRange_cycle (s : State) (a n : Nat) (bytes : List Byte) : (s.allocateRange a n bytes).cycle = s.cycle := rfl
@[simp] theorem State.allocateRange_exitValue (s : State) (a n : Nat) (bytes : List Byte) : (s.allocateRange a n bytes).exitValue = s.exitValue := rfl
@[simp] theorem State.allocateRange_faultCause (s : State) (a n : Nat) (bytes : List Byte) : (s.allocateRange a n bytes).faultCause = s.faultCause := rfl
@[simp] theorem State.allocateRange_faultPc (s : State) (a n : Nat) (bytes : List Byte) : (s.allocateRange a n bytes).faultPc = s.faultPc := rfl
@[simp] theorem State.allocateRange_faultInfo (s : State) (a n : Nat) (bytes : List Byte) : (s.allocateRange a n bytes).faultInfo = s.faultInfo := rfl
@[simp] theorem State.allocateRange_code (s : State) (a n : Nat) (bytes : List Byte) : (s.allocateRange a n bytes).code = s.code := rfl
@[simp] theorem State.allocateRange_data (s : State) (a n : Nat) (bytes : List Byte) : (s.allocateRange a n bytes).data = s.data := rfl
@[simp] theorem State.allocateRange_stack (s : State) (a n : Nat) (bytes : List Byte) : (s.allocateRange a n bytes).stack = s.stack := rfl
@[simp] theorem State.allocateRange_hmem (s : State) (a n : Nat) (bytes : List Byte) : (s.allocateRange a n bytes).hmem = HostMemory.allocate s.hmem a n bytes := rfl
@[simp] theorem State.allocateRange_heap (s : State) (a n : Nat) (bytes : List Byte) : (s.allocateRange a n bytes).heap = insertKey s.heap a n := rfl
@[simp] theorem State.allocateRange_mode (s : State) (a n : Nat) (bytes : List Byte) : (s.allocateRange a n bytes).mode = s.mode := rfl
@[simp] theorem State.allocateRange_traceOn (s : State) (a n : Nat) (bytes : List Byte) : (s.allocateRange a n bytes).traceOn = s.traceOn := rfl
@[simp] theorem State.allocateRange_trace (s : State) (a n : Nat) (bytes : List Byte) : (s.allocateRange a n bytes).trace = s.trace := rfl
@[simp] theorem State.allocateRange_requests (s : State) (a n : Nat) (bytes : List Byte) : (s.allocateRange a n bytes).requests = s.requests := rfl
@[simp] theorem State.allocateRange_replies (s : State) (a n : Nat) (bytes : List Byte) : (s.allocateRange a n bytes).replies = s.replies := rfl
@[simp] theorem State.allocateRange_draws (s : State) (a n : Nat) (bytes : List Byte) : (s.allocateRange a n bytes).draws = s.draws := rfl
@[simp] theorem State.seg_allocateRange (s : State) (a n : Nat) (bytes : List Byte) (X : Seg) : (s.allocateRange a n bytes).seg X = s.seg X := by cases X <;> rfl

/-! ### releaseRange -/

@[simp] theorem State.releaseRange_par (s : State) (a n : Nat) : (s.releaseRange a n).par = s.par := rfl
@[simp] theorem State.releaseRange_pc (s : State) (a n : Nat) : (s.releaseRange a n).pc = s.pc := rfl
@[simp] theorem State.releaseRange_bp (s : State) (a n : Nat) : (s.releaseRange a n).bp = s.bp := rfl
@[simp] theorem State.releaseRange_sp (s : State) (a n : Nat) : (s.releaseRange a n).sp = s.sp := rfl
@[simp] theorem State.releaseRange_ax (s : State) (a n : Nat) : (s.releaseRange a n).ax = s.ax := rfl
@[simp] theorem State.releaseRange_status (s : State) (a n : Nat) : (s.releaseRange a n).status = s.status := rfl
@[simp] theorem State.releaseRange_opCounter (s : State) (a n : Nat) : (s.releaseRange a n).opCounter = s.opCounter := rfl
@[simp] theorem State.releaseRange_dataCursor (s : State) (a n : Nat) : (s.releaseRange a n).dataCursor = s.dataCursor := rfl
@[simp] theorem State.releaseRange_cycle (s : State) (a n : Nat) : (s.releaseRange a n).cycle = s.cycle := rfl
@[simp] theorem State.releaseRange_exitValue (s : State) (a n : Nat) : (s.releaseRange a n).exitValue = s.exitValue := rfl
@[simp] theorem State.releaseRange_faultCause (s : State) (a n : Nat) : (s.releaseRange a n).faultCause = s.faultCause := rfl
@[simp] theorem State.releaseRange_faultPc (s : State) (a n : Nat) : (s.releaseRange a n).faultPc = s.faultPc := rfl
@[simp] theorem State.releaseRange_faultInfo (s : State) (a n : Nat) : (s.releaseRange a n).faultInfo = s.faultInfo := rfl
@[simp] theorem State.releaseRange_code (s : State) (a n : Nat) : (s.releaseRange a n).code = s.code := rfl
@[simp] theorem State.releaseRange_data (s : State) (a n : Nat) : (s.releaseRange a n).data = s.data := rfl
@[simp] theorem State.releaseRange_stack (s : State) (a n : Nat) : (s.releaseRange a n).stack = s.stack := rfl
@[simp] theorem State.releaseRange_hmem (s : State) (a n : Nat) : (s.releaseRange a n).hmem = HostMemory.release s.hmem a n := rfl
@[simp] theorem State.releaseRange_heap (s : State) (a n : Nat) : (s.releaseRange a n).heap = eraseKey s.heap a := rfl
@[simp] theorem State.releaseRange_mode (s : State) (a n : Nat) : (s.releaseRange a n).mode = s.mode := rfl
@[simp] theorem State.releaseRange_traceOn (s : State) (a n : Nat) : (s.releaseRange a n).traceOn = s.traceOn := rfl
@[simp] theorem State.releaseRange_trace (s : State) (a n : Nat) : (s.releaseRange a n).trace = s.trace := rfl
@[simp] theorem State.releaseRange_requests (s : State) (a n : Nat) : (s.releaseRange a n).requests = s.requests := rfl
@[simp] theorem State.releaseRange_replies (s : State) (a n : Nat) : (s.releaseRange a n).replies = s.replies := rfl
@[simp] theorem State.releaseRange_draws (s : State) (a n : Nat) : (s.releaseRange a n).draws = s.draws := rfl
@[simp] theorem State.seg_releaseRange (s : State) (a n : Nat) (X : Seg) : (s.releaseRange a n).seg X = s.seg X := by cases X <;> rfl

end Sys2Proof.Machine
end

