-- ==== Sys2Proof/Laws/Ops.lean ====
section
/-! SUPPORT. What the shared operations can do, said once: the multiplexer, the access primitives, one byte of guest
memory, running an instruction. -/

namespace Sys2Proof.Machine

/-! ### Cells as bytes -/

theorem byteOf_getLsbD (v : Word) (i k : Nat) : (byteOf v i).getLsbD k = (decide (k < 8) && v.getLsbD (8 * i + k)) := by
  simp [byteOf]

/-- Little-endian assembly, bit by bit. -/
theorem leWord_getLsbD (rd : Nat → Byte) (a n k : Nat) :
    (leWord rd a n).getLsbD k = (decide (k < 64) && decide (k < 8 * n) && (rd (a + k / 8)).getLsbD (k % 8)) := by
  induction n generalizing a k with
  | zero => simp [leWord]
  | succ n ih =>
    simp only [leWord, BitVec.getLsbD_or, BitVec.getLsbD_setWidth, BitVec.getLsbD_shiftLeft, ih]
    by_cases h64 : k < 64
    · by_cases h8 : k < 8
      · have h0 : k / 8 = 0 := by omega
        have h1 : k % 8 = k := by omega
        have h2 : k < 8 * (n + 1) := by omega
        simp [h64, h8, h0, h1, h2]
      · have hd : a + 1 + (k - 8) / 8 = a + k / 8 := by omega
        have hm : (k - 8) % 8 = k % 8 := by omega
        have h2 : (k - 8 < 8 * n) ↔ (k < 8 * (n + 1)) := by omega
        have h3 : (rd a).getLsbD k = false := BitVec.getLsbD_of_ge _ _ (by omega)
        have h4 : k - 8 < 64 := by omega
        simp [h64, h8, hd, hm, h2, h3, h4]
    · simp [h64]

/-- R52: a word is what its own bytes assemble to. -/
theorem leWord_byteOf (rd : Nat → Byte) (a : Nat) (v : Word) (h : ∀ i < 8, rd (a + i) = byteOf v i) :
    leWord rd a 8 = v := by
  refine BitVec.eq_of_getLsbD_eq fun k hk => ?_
  rw [leWord_getLsbD, h (k / 8) (by omega), byteOf_getLsbD]
  have : 8 * (k / 8) + k % 8 = k := by omega
  simp [hk, this, Nat.mod_lt]

/-- R52: the bytes of an assembled word. -/
theorem byteOf_leWord (rd : Nat → Byte) (a n i : Nat) (hi : i < n) (hn : n ≤ 8) :
    byteOf (leWord rd a n) i = rd (a + i) := by
  refine BitVec.eq_of_getLsbD_eq fun k hk => ?_
  rw [byteOf_getLsbD, leWord_getLsbD]
  have h1 : (8 * i + k) / 8 = i := by omega
  have h2 : (8 * i + k) % 8 = k := by omega
  have h3 : 8 * i + k < 64 := by omega
  have h4 : 8 * i + k < 8 * n := by omega
  simp [hk, h1, h2, h3, h4]

theorem Memory.readWord_writeWord (m : List Host.Cell) (o : Nat) (v : Word) :
    Memory.readWord (Memory.writeWord m o 8 v) o 8 = v := by
  refine leWord_byteOf _ _ _ fun i hi => ?_
  rw [Memory.read_writeWord, if_pos (by omega)]
  congr 1; omega

/-! ### The parameters -/

/-- R8, R9, spelled out. -/
theorem Params.wf_iff (p : Params) : p.wf = true ↔
    p.poolSize % 8 = 0 ∧ 48 ≤ p.poolSize
    ∧ (∀ X, base p X % 8 = 0 ∧ 8 ≤ base p X ∧ base p X + p.poolSize ≤ 2 ^ 64)
    ∧ (∀ X Y, X ≠ Y → base p X + p.poolSize ≤ base p Y ∨ base p Y + p.poolSize ≤ base p X) := by
  simp only [Params.wf, baseOk, rangesDisjoint, Bool.and_eq_true, Bool.or_eq_true, decide_eq_true_eq]
  constructor
  · rintro ⟨⟨⟨⟨⟨⟨⟨h1, h2⟩, h3⟩, h4⟩, h5⟩, h6⟩, h7⟩, h8⟩
    refine ⟨h1, h2, fun X => ?_, fun X Y hXY => ?_⟩
    · cases X <;> simp only [base] <;> omega
    · cases X <;> cases Y <;> simp only [base] <;> first | omega | exact absurd rfl hXY
  · rintro ⟨h1, h2, h3, h4⟩
    have c := h3 .code; have d := h3 .data; have st := h3 .stack
    have cd := h4 .code .data (by decide); have cs := h4 .code .stack (by decide)
    have ds := h4 .data .stack (by decide)
    simp only [base] at c d st cd cs ds
    omega

/-! ### The multiplexer -/

theorem inSegment_iff (p : Params) (X : Seg) (a n : Nat) :
    inSegment p X a n = true ↔ base p X ≤ a ∧ a + n ≤ base p X + p.poolSize := by simp [inSegment]

theorem meetsSegment_iff (p : Params) (X : Seg) (a n : Nat) :
    meetsSegment p X a n = true ↔ a < base p X + p.poolSize ∧ base p X < a + n := by simp [meetsSegment]

/-- R55: what a route to a segment says of the address. -/
theorem route_seg {p : Params} {a : Word} {n : Nat} {X : Seg} {o : Nat} (h : route p a n = .seg X o) :
    base p X ≤ a.toNat ∧ a.toNat + n ≤ base p X + p.poolSize ∧ a.toNat = base p X + o := by
  unfold route at h
  split at h
  · rename_i hc; have hc := (inSegment_iff _ _ _ _).mp hc
    injection h with h1 h2; subst h1; simp only [base] at *; omega
  · split at h
    · rename_i hc; have hc := (inSegment_iff _ _ _ _).mp hc
      injection h with h1 h2; subst h1; simp only [base] at *; omega
    · split at h
      · rename_i hc; have hc := (inSegment_iff _ _ _ _).mp hc
        injection h with h1 h2; subst h1; simp only [base] at *; omega
      · split at h <;> simp at h

/-- R55: what a route to host memory says of the address. -/
theorem route_hostMem {p : Params} {a : Word} {n x : Nat} (h : route p a n = .hostMem x) :
    x = a.toNat ∧ a.toNat + n ≤ 2 ^ 64
    ∧ ∀ X, ¬ (a.toNat < base p X + p.poolSize ∧ base p X < a.toNat + n) := by
  unfold route at h
  split at h
  · simp at h
  · split at h
    · simp at h
    · split at h
      · simp at h
      · split at h
        · simp at h
        · rename_i hm
          simp only [Bool.or_eq_true, decide_eq_true_eq, not_or, meetsSegment_iff] at hm
          refine ⟨by injection h with h; exact h.symm, by omega, fun X => ?_⟩
          cases X
          · exact hm.1.1.1
          · exact hm.1.1.2
          · exact hm.1.2

/-- Inside a segment, the route is that segment. -/
theorem route_of_inside {p : Params} (hp : p.wf = true) {a : Word} {n : Nat} (hn : 0 < n) {X : Seg}
    (h1 : base p X ≤ a.toNat) (h2 : a.toNat + n ≤ base p X + p.poolSize) :
    route p a n = .seg X (a.toNat - base p X) := by
  obtain ⟨-, -, -, hd⟩ := (Params.wf_iff p).mp hp
  have hin : inSegment p X a.toNat n = true := (inSegment_iff _ _ _ _).mpr ⟨h1, h2⟩
  have hout : ∀ Y, Y ≠ X → ¬ inSegment p Y a.toNat n = true := by
    intro Y hY hc
    have hc := (inSegment_iff _ _ _ _).mp hc
    have := hd X Y (Ne.symm hY)
    omega
  unfold route
  cases X
  · rw [if_pos hin]; rfl
  · rw [if_neg (hout .code (by decide)), if_pos hin]; rfl
  · rw [if_neg (hout .code (by decide)), if_neg (hout .data (by decide)), if_pos hin]; rfl

/-- Clear of every segment and inside the address space, the route is host memory. -/
theorem route_of_clear {p : Params} {a : Word} {n : Nat} (hn : 0 < n)
    (h1 : ∀ X, ¬ (a.toNat < base p X + p.poolSize ∧ base p X < a.toNat + n)) (h2 : a.toNat + n ≤ 2 ^ 64) :
    route p a n = .hostMem a.toNat := by
  have hout : ∀ X, ¬ inSegment p X a.toNat n = true := by
    intro X hc
    have hc := (inSegment_iff _ _ _ _).mp hc
    have := h1 X
    omega
  have hm : ∀ X, meetsSegment p X a.toNat n = false := by
    intro X
    rw [Bool.eq_false_iff]
    exact fun hc => h1 X ((meetsSegment_iff _ _ _ _).mp hc)
  unfold route
  rw [if_neg (hout _), if_neg (hout _), if_neg (hout _), if_neg]
  simp only [hm, Bool.or_self, Bool.false_or, decide_eq_true_eq]
  omega

/-- An access of one byte never straddles. -/
theorem route_one (p : Params) (a : Word) : route p a 1 ≠ .straddle := by
  have ha := a.isLt
  have hm : ∀ X, ¬ inSegment p X a.toNat 1 = true → meetsSegment p X a.toNat 1 = false := by
    intro X hi
    rw [Bool.eq_false_iff]
    intro hc
    have hc := (meetsSegment_iff _ _ _ _).mp hc
    exact hi ((inSegment_iff _ _ _ _).mpr (by omega))
  unfold route
  intro h
  split at h
  · simp at h
  · split at h
    · simp at h
    · split at h
      · simp at h
      · rename_i c1 c2 c3
        rw [hm _ c1, hm _ c2, hm _ c3] at h
        split at h
        · rename_i hc
          simp only [Bool.or_self, Bool.false_or, decide_eq_true_eq] at hc
          omega
        · simp at h

/-- The cases of an access of one byte. -/
theorem route_one_cases (p : Params) (a : Word) :
    (∃ X o, route p a 1 = .seg X o) ∨ route p a 1 = .hostMem a.toNat := by
  cases h : route p a 1 with
  | seg X o => exact .inl ⟨X, o, rfl⟩
  | straddle => exact absurd h (route_one p a)
  | hostMem x => rw [(route_hostMem h).1]; exact .inr rfl

theorem toNat_add_ofNat {a : Word} {i : Nat} (h : a.toNat + i < 2 ^ 64) :
    (a + BitVec.ofNat 64 i).toNat = a.toNat + i := by
  rw [BitVec.toNat_add, BitVec.toNat_ofNat, Nat.mod_eq_of_lt (a := i) (by omega), Nat.mod_eq_of_lt h]

/-- Each byte of an access routed to a segment is routed to that segment. -/
theorem route_byte_seg {p : Params} (hp : p.wf = true) {a : Word} {n : Nat} {X : Seg} {o : Nat}
    (h : route p a n = .seg X o) {i : Nat} (hi : i < n) :
    route p (a + BitVec.ofNat 64 i) 1 = .seg X (o + i) := by
  obtain ⟨h1, h2, h3⟩ := route_seg h
  obtain ⟨-, -, hb, -⟩ := (Params.wf_iff p).mp hp
  have hb := hb X
  have ht := toNat_add_ofNat (a := a) (i := i) (by omega)
  rw [route_of_inside hp (by omega) (X := X) (by omega) (by omega)]
  congr 1; omega

/-- Each byte of an access routed to host memory is routed to host memory. -/
theorem route_byte_hostMem {p : Params} {a : Word} {n x : Nat}
    (h : route p a n = .hostMem x) {i : Nat} (hi : i < n) :
    route p (a + BitVec.ofNat 64 i) 1 = .hostMem (x + i) := by
  obtain ⟨h1, h2, h3⟩ := route_hostMem h
  have ht := toNat_add_ofNat (a := a) (i := i) (by omega)
  rw [route_of_clear (by omega) (fun X => by have := h3 X; omega) (by omega), ht, h1]

/-! ### One byte of guest memory -/

/-- byteAt depends on the parameters, the segments and host memory alone. -/
theorem byteAt_congr {s t : State} (hp : t.par = s.par) (hseg : ∀ X, t.seg X = s.seg X) (hh : t.hmem = s.hmem)
    (x : Word) : t.byteAt x = s.byteAt x := by
  unfold State.byteAt
  rw [hp, hh]
  cases route s.par x 1 <;> simp only [hseg]

@[simp] theorem byteAt_setAx (s : State) (v x : Word) : (s.setAx v).byteAt x = s.byteAt x :=
  byteAt_congr rfl (by simp) rfl x
@[simp] theorem byteAt_setBp (s : State) (v x : Word) : (s.setBp v).byteAt x = s.byteAt x :=
  byteAt_congr rfl (by simp) rfl x
@[simp] theorem byteAt_setSp (s : State) (v x : Word) : (s.setSp v).byteAt x = s.byteAt x :=
  byteAt_congr rfl (by simp) rfl x
@[simp] theorem byteAt_setPc (s : State) (v x : Word) : (s.setPc v).byteAt x = s.byteAt x :=
  byteAt_congr rfl (by simp) rfl x
@[simp] theorem byteAt_begun (s : State) (i : Instr) (x : Word) : (s.begun i).byteAt x = s.byteAt x :=
  byteAt_congr (by simp) (by simp) (by simp) x
@[simp] theorem byteAt_sent (s : State) (q : HostRequest) (x : Word) : (s.sent q).byteAt x = s.byteAt x :=
  byteAt_congr rfl (by simp) rfl x

@[simp] theorem byteAt_recordExit (s : State) (v x : Word) : (s.recordExit v).byteAt x = s.byteAt x :=
  byteAt_congr rfl (by simp) rfl x
@[simp] theorem byteAt_drawAx (s : State) (x : Word) : s.drawAx.byteAt x = s.byteAt x :=
  byteAt_congr rfl (by simp) rfl x

/-- What writing a multi-byte value to a segment leaves at each address. -/
theorem byteAt_writeSeg {s : State} (hp : s.par.wf = true) {a : Word} {n : Nat} {X : Seg} {o : Nat}
    (h : route s.par a n = .seg X o) (v x : Word) :
    (s.setSeg X (Memory.writeWord (s.seg X) o n v)).byteAt x
      = if a.toNat ≤ x.toNat ∧ x.toNat < a.toNat + n then some (byteOf v (x.toNat - a.toNat)) else s.byteAt x := by
  obtain ⟨h1, h2, h3⟩ := route_seg h
  unfold State.byteAt
  simp only [State.setSeg_par, State.setSeg_hmem]
  by_cases hin : a.toNat ≤ x.toNat ∧ x.toNat < a.toNat + n
  · rw [if_pos hin, route_of_inside hp (by omega) (X := X) (by omega) (by omega)]
    simp only [State.seg_setSeg_same]
    rw [Memory.read_writeWord, if_pos (by omega)]
    congr 2; omega
  · rw [if_neg hin]
    cases hx : route s.par x 1 with
    | straddle => rfl
    | hostMem y => rfl
    | seg Y k =>
      obtain ⟨k1, k2, k3⟩ := route_seg hx
      by_cases hXY : Y = X
      · subst hXY
        simp only [State.seg_setSeg_same]
        rw [Memory.read_writeWord, if_neg (by omega)]
      · simp only [State.seg_setSeg_ne s _ hXY]

/-- What writing a multi-byte value to host memory leaves at each address. -/
theorem byteAt_writeHost {s : State} {a : Word} {n y : Nat} (h : route s.par a n = .hostMem y) (v x : Word) :
    (s.setHmem (HostMemory.writeWord s.hmem y n v)).byteAt x
      = if a.toNat ≤ x.toNat ∧ x.toNat < a.toNat + n then some (byteOf v (x.toNat - a.toNat)) else s.byteAt x := by
  obtain ⟨h1, h2, h3⟩ := route_hostMem h
  unfold State.byteAt
  simp only [State.setHmem_par, State.setHmem_hmem, State.seg_setHmem]
  by_cases hin : a.toNat ≤ x.toNat ∧ x.toNat < a.toNat + n
  · rw [if_pos hin, route_of_clear (by omega) (fun X => by have := h3 X; omega) (by have := x.isLt; omega)]
    simp only [HostMemory.lookup_writeWord]
    rw [if_pos (by omega), h1]
  · rw [if_neg hin]
    rcases route_one_cases s.par x with ⟨Y, k, hx⟩ | hx
    · rw [hx]
    · rw [hx]; simp only [HostMemory.lookup_writeWord]; rw [if_neg (by omega)]

/-- R53: writing one byte changes that byte alone, and makes no address accessible or inaccessible. -/
theorem byteAt_setByte {s : State} {a : Word} (ha : (s.byteAt a).isSome = true) (b : Byte) (x : Word) :
    (s.setByte a b).byteAt x = if x = a then some b else s.byteAt x := by
  unfold State.setByte
  cases hr : route s.par a 1 with
  | straddle => exact absurd hr (route_one s.par a)
  | seg X o =>
    obtain ⟨h1, h2, h3⟩ := route_seg hr
    unfold State.byteAt
    simp only [State.setSeg_par, State.setSeg_hmem]
    by_cases hx : x = a
    · subst hx; rw [if_pos rfl, hr]; simp [Memory.read_write]
    · rw [if_neg hx]
      cases hrx : route s.par x 1 with
      | straddle => rfl
      | hostMem y => rfl
      | seg Y k =>
        obtain ⟨k1, k2, k3⟩ := route_seg hrx
        by_cases hXY : Y = X
        · subst hXY
          have : o ≠ k := fun hok => hx (BitVec.eq_of_toNat_eq (by omega))
          simp [Memory.read_write, this]
        · simp only [State.seg_setSeg_ne s _ hXY]
  | hostMem y =>
    obtain ⟨h1, h2, h3⟩ := route_hostMem hr
    unfold State.byteAt
    simp only [State.setHmem_par, State.setHmem_hmem, State.seg_setHmem]
    by_cases hx : x = a
    · subst hx; rw [if_pos rfl, hr]; simp [lookup_insertKey]
    · rw [if_neg hx]
      rcases route_one_cases s.par x with ⟨Y, k, hrx⟩ | hrx
      · rw [hrx]
      · rw [hrx]
        have : y ≠ x.toNat := fun he => hx (BitVec.eq_of_toNat_eq (by omega))
        simp [lookup_insertKey, this]

/-! ### Stack accesses -/

/-- R62: when a stack access succeeds. -/
theorem stackCell_ok {s : State} {a : Word} {o : Nat} (h : s.stackCell a = .ok o) :
    route s.par a 8 = .seg .stack o ∧ a.toNat % 8 = 0 := by
  unfold State.stackCell at h
  split at h <;> first | (simp at h; done) | skip
  rename_i o' hr
  split at h
  · rename_i hal
    simp only [Except.ok.injEq] at h
    subst h
    exact ⟨hr, by simpa [aligned] using hal⟩
  · simp at h

/-- R62: a stack access that fails raises STACK_RANGE with its address. -/
theorem stackCell_error {s : State} {a : Word} {e : Trap} (h : s.stackCell a = .error e) : e = ⟨.stackRange, a⟩ := by
  unfold State.stackCell at h
  split at h <;> first | (simp at h; exact h.symm) | skip
  split at h <;> simp at h; exact h.symm

theorem stackCell_of_isStackCell {s : State} {a : Word} (hp : s.par.wf = true) (h : IsStackCell s.par a) :
    s.stackCell a = .ok (a.toNat - s.par.stackBase) := by
  obtain ⟨h1, h2, h3⟩ := h
  unfold State.stackCell
  rw [route_of_inside hp (by omega) (X := .stack) h1 h2]
  simp [aligned, h3, base]

theorem isStackCell_of_stackCell {s : State} {a : Word} {o : Nat} (h : s.stackCell a = .ok o) :
    IsStackCell s.par a := by
  obtain ⟨hr, hal⟩ := stackCell_ok h
  obtain ⟨h1, h2, h3⟩ := route_seg hr
  exact ⟨h1, h2, hal⟩

theorem stackCell_of_not {s : State} {a : Word} (h : ¬ IsStackCell s.par a) :
    s.stackCell a = .error ⟨.stackRange, a⟩ := by
  cases hc : s.stackCell a with
  | ok o => exact absurd (isStackCell_of_stackCell hc) h
  | error e => rw [stackCell_error hc]

/-- A stack access depends on the parameters and the stack segment alone. -/
theorem stackRead_congr {s t : State} (hp : t.par = s.par) (hs : t.stack = s.stack) (a : Word) :
    t.stackRead a = s.stackRead a := by
  unfold State.stackRead State.stackCell
  rw [hp, hs]

@[simp] theorem stackRead_begun (s : State) (i : Instr) (a : Word) : (s.begun i).stackRead a = s.stackRead a :=
  stackRead_congr (by simp) (by simp) a
@[simp] theorem stackRead_setSp (s : State) (v a : Word) : (s.setSp v).stackRead a = s.stackRead a :=
  stackRead_congr rfl rfl a
@[simp] theorem stackRead_setBp (s : State) (v a : Word) : (s.setBp v).stackRead a = s.stackRead a :=
  stackRead_congr rfl rfl a

theorem stackRead_error {s : State} {a : Word} {e : Trap} (h : s.stackRead a = .error e) : e = ⟨.stackRange, a⟩ := by
  unfold State.stackRead at h
  cases hc : s.stackCell a with
  | ok o => rw [hc] at h; simp [Except.map] at h
  | error e' => rw [hc] at h; simp only [Except.map, Except.error.injEq] at h; rw [← h, stackCell_error hc]

/-! ### Running an instruction -/

@[simp] theorem settle_ok (s u t : State) : s.settle u (.ok t) = t := rfl
@[simp] theorem settle_error (s u : State) (e : Trap) : s.settle u (.error e) = s.takeFault u e := rfl

/-- An instruction that asks nothing of the host always answers a next state. -/
theorem runInstr_ok {i : Instr} {f : State → Access State} {s t : State} (h : f (s.begun i) = .ok t) :
    runInstr i f s = .next t := by
  unfold runInstr; rw [h]; rfl

theorem runInstr_error {i : Instr} {f : State → Access State} {s : State} {e : Trap}
    (h : f (s.begun i) = .error e) : runInstr i f s = .next (s.takeFault (s.begun i) e) := by
  unfold runInstr; rw [h]; rfl

/-- R115: what `takeFault` leaves is a precise fault. -/
theorem preciseFault_takeFault (s u : State) (e : Trap) : PreciseFault e.cause e.info s (s.takeFault u e) := by
  constructor <;> rfl

theorem faultsWith_runInstr {i : Instr} {f : State → Access State} {s : State} {e : Trap}
    (h : f (s.begun i) = .error e) : FaultsWith (runInstr i f s) e.cause e.info s :=
  ⟨_, runInstr_error h, preciseFault_takeFault s _ e⟩

/-- Whatever an instruction that asks nothing of the host answers is its effect's result or the exception it raised. -/
theorem runInstr_cases {i : Instr} {f : State → Access State} {s t : State} (h : runInstr i f s = .next t) :
    f (s.begun i) = .ok t ∨ ∃ e, f (s.begun i) = .error e ∧ t = s.takeFault (s.begun i) e := by
  unfold runInstr at h
  simp only [Host.Outcome.next.injEq] at h
  cases hf : f (s.begun i) with
  | ok u => rw [hf] at h; exact .inl (by rw [← h]; rfl)
  | error e => rw [hf] at h; exact .inr ⟨e, rfl, h.symm⟩

/-- What a host call can come to: an argument fault, silence, or an answer served. -/
theorem runHostCall_cases (i : Instr) (f : State → Access HostRequest) (s : State) :
    (∃ e, f (s.begun i) = .error e ∧ runHostCall i f s = .next (s.takeFault (s.begun i) e))
    ∨ (∃ q, f (s.begun i) = .ok q ∧ s.nextAnswer = none ∧ runHostCall i f s = .fault .hostNeverAnswers)
    ∨ (∃ q r, f (s.begun i) = .ok q ∧ s.nextAnswer = some r
        ∧ runHostCall i f s
          = .next (s.settle ((s.begun i).sent q) (serve q r ((s.begun i).sent q)))) := by
  have hn : (s.begun i).nextAnswer = s.nextAnswer := by simp [State.nextAnswer]
  unfold runHostCall
  simp only [hn]
  cases hf : f (s.begun i) with
  | error e => exact .inl ⟨e, rfl, rfl⟩
  | ok q =>
    cases hr : s.nextAnswer with
    | none => exact .inr (.inl ⟨q, rfl, rfl, rfl⟩)
    | some r => exact .inr (.inr ⟨q, r, rfl, rfl, rfl⟩)

/-- R105: exec refuses no instruction. -/
theorem exec_not_refused (i : Instr) (s : State) (r : Refusal) : exec i s ≠ .refused r := by
  have hh : ∀ j f, runHostCall j f s ≠ .refused r := by
    intro j f h
    rcases runHostCall_cases j f s with ⟨e, -, h'⟩ | ⟨q, -, -, h'⟩ | ⟨q, a, -, -, h'⟩ <;> rw [h'] at h <;> simp at h
  cases i <;> first | exact hh _ _ | (intro h; simp [exec, execLea, execImm, execJmp, execCall, execJz, execJnz, execEnt, execAdj, execLev, execLi, execLc, execSi, execSc, execPush, execOr, execXor, execAnd, execEq, execNe, execLt, execGt, execLe, execGe, execShl, execShr, execAdd, execSub, execMul, execDiv, execMod, execExit, runInstr] at h)

end Sys2Proof.Machine
end

