-- ==== Sys2Proof/Laws/Exec.lean ====
section
/-! SUPPORT. Each arm of exec as the shared operation it is, and the width of each instruction. -/

namespace Sys2Proof.Machine

theorem exec_lea (imm : Word) (s : State) :
    exec (.lea imm) s = runInstr (.lea imm) (fun t => .ok (t.setAx (t.bp + cellOffset imm))) s := rfl
theorem exec_imm (imm : Word) (s : State) :
    exec (.imm imm) s = runInstr (.imm imm) (fun t => .ok (t.setAx imm)) s := rfl
theorem exec_jmp (imm : Word) (s : State) :
    exec (.jmp imm) s = runInstr (.jmp imm) (fun t => .ok (t.setPc imm)) s := rfl
theorem exec_call (imm : Word) (s : State) :
    exec (.call imm) s = runInstr (.call imm) (fun t => (t.push t.pc).map fun u => u.setPc imm) s := rfl
theorem exec_jz (imm : Word) (s : State) :
    exec (.jz imm) s = runInstr (.jz imm) (fun t => .ok (if t.axZero then t.setPc imm else t)) s := rfl
theorem exec_jnz (imm : Word) (s : State) :
    exec (.jnz imm) s = runInstr (.jnz imm) (fun t => .ok (if t.axZero then t else t.setPc imm)) s := rfl
theorem exec_ent (imm : Word) (s : State) :
    exec (.ent imm) s = runInstr (.ent imm) (fun t => (t.push t.bp).map fun u => (u.setBp u.sp).setSp (u.sp - cellOffset imm)) s := rfl
theorem exec_adj (imm : Word) (s : State) :
    exec (.adj imm) s = runInstr (.adj imm) (fun t => .ok (t.setSp (t.sp + cellOffset imm))) s := rfl
theorem exec_lev (s : State) :
    exec .lev s = runInstr .lev leaveFrame s := rfl
theorem exec_li (s : State) :
    exec .li s = runInstr .li (fun t => (t.memRead t.ax 8).map t.setAx) s := rfl
theorem exec_lc (s : State) :
    exec .lc s = runInstr .lc (fun t => (t.memRead t.ax 1).map fun b => t.setAx (widenByte t.par.lcExtend b)) s := rfl
theorem exec_si (s : State) :
    exec .si s = runInstr .si storeWord s := rfl
theorem exec_sc (s : State) :
    exec .sc s = runInstr .sc storeByte s := rfl
theorem exec_push (s : State) :
    exec .push s = runInstr .push (fun t => t.push t.ax) s := rfl
theorem exec_or (s : State) :
    exec .or s = runInstr .or (fun t => t.binary fun a b => .ok (a ||| b)) s := rfl
theorem exec_xor (s : State) :
    exec .xor s = runInstr .xor (fun t => t.binary fun a b => .ok (a ^^^ b)) s := rfl
theorem exec_and (s : State) :
    exec .and s = runInstr .and (fun t => t.binary fun a b => .ok (a &&& b)) s := rfl
theorem exec_eq (s : State) :
    exec .eq s = runInstr .eq (fun t => t.binary fun a b => .ok (boolWord (decide (a = b)))) s := rfl
theorem exec_ne (s : State) :
    exec .ne s = runInstr .ne (fun t => t.binary fun a b => .ok (boolWord (decide (a ≠ b)))) s := rfl
theorem exec_lt (s : State) :
    exec .lt s = runInstr .lt (fun t => t.binary fun a b => .ok (boolWord (decide (a.toInt < b.toInt)))) s := rfl
theorem exec_gt (s : State) :
    exec .gt s = runInstr .gt (fun t => t.binary fun a b => .ok (boolWord (decide (a.toInt > b.toInt)))) s := rfl
theorem exec_le (s : State) :
    exec .le s = runInstr .le (fun t => t.binary fun a b => .ok (boolWord (decide (a.toInt ≤ b.toInt)))) s := rfl
theorem exec_ge (s : State) :
    exec .ge s = runInstr .ge (fun t => t.binary fun a b => .ok (boolWord (decide (a.toInt ≥ b.toInt)))) s := rfl
theorem exec_shl (s : State) :
    exec .shl s = runInstr .shl (fun t => t.shift shiftLeft) s := rfl
theorem exec_shr (s : State) :
    exec .shr s = runInstr .shr (fun t => t.shift shiftRight) s := rfl
theorem exec_add (s : State) :
    exec .add s = runInstr .add (fun t => t.binary fun a b => .ok (a + b)) s := rfl
theorem exec_sub (s : State) :
    exec .sub s = runInstr .sub (fun t => t.binary fun a b => .ok (a - b)) s := rfl
theorem exec_mul (s : State) :
    exec .mul s = runInstr .mul (fun t => t.binary fun a b => .ok (BitVec.ofInt 64 (a.toInt * b.toInt))) s := rfl
theorem exec_div (s : State) :
    exec .div s = runInstr .div (fun t => t.binary (divided quotient)) s := rfl
theorem exec_mod (s : State) :
    exec .mod s = runInstr .mod (fun t => t.binary (divided remainder)) s := rfl
theorem exec_opn (s : State) :
    exec .opn s = runHostCall .opn requestOpn s := rfl
theorem exec_read (s : State) :
    exec .read s = runHostCall .read requestRead s := rfl
theorem exec_clos (s : State) :
    exec .clos s = runHostCall .clos requestClos s := rfl
theorem exec_prtf (s : State) :
    exec .prtf s = runHostCall .prtf requestPrtf s := rfl
theorem exec_malc (s : State) :
    exec .malc s = runHostCall .malc requestMalc s := rfl
theorem exec_free (s : State) :
    exec .free s = runHostCall .free requestFree s := rfl
theorem exec_mset (s : State) :
    exec .mset s = runHostCall .mset requestMset s := rfl
theorem exec_mcmp (s : State) :
    exec .mcmp s = runHostCall .mcmp requestMcmp s := rfl
theorem exec_exit (s : State) :
    exec .exit s = runInstr .exit (fun t => (t.stackRead t.sp).map t.recordExit) s := rfl

@[simp] theorem width_lea (w : Word) : (Instr.lea w).width = 2 := rfl
@[simp] theorem width_imm (w : Word) : (Instr.imm w).width = 2 := rfl
@[simp] theorem width_jmp (w : Word) : (Instr.jmp w).width = 2 := rfl
@[simp] theorem width_call (w : Word) : (Instr.call w).width = 2 := rfl
@[simp] theorem width_jz (w : Word) : (Instr.jz w).width = 2 := rfl
@[simp] theorem width_jnz (w : Word) : (Instr.jnz w).width = 2 := rfl
@[simp] theorem width_ent (w : Word) : (Instr.ent w).width = 2 := rfl
@[simp] theorem width_adj (w : Word) : (Instr.adj w).width = 2 := rfl
@[simp] theorem width_lev : Instr.lev.width = 1 := rfl
@[simp] theorem width_li : Instr.li.width = 1 := rfl
@[simp] theorem width_lc : Instr.lc.width = 1 := rfl
@[simp] theorem width_si : Instr.si.width = 1 := rfl
@[simp] theorem width_sc : Instr.sc.width = 1 := rfl
@[simp] theorem width_push : Instr.push.width = 1 := rfl
@[simp] theorem width_or : Instr.or.width = 1 := rfl
@[simp] theorem width_xor : Instr.xor.width = 1 := rfl
@[simp] theorem width_and : Instr.and.width = 1 := rfl
@[simp] theorem width_eq : Instr.eq.width = 1 := rfl
@[simp] theorem width_ne : Instr.ne.width = 1 := rfl
@[simp] theorem width_lt : Instr.lt.width = 1 := rfl
@[simp] theorem width_gt : Instr.gt.width = 1 := rfl
@[simp] theorem width_le : Instr.le.width = 1 := rfl
@[simp] theorem width_ge : Instr.ge.width = 1 := rfl
@[simp] theorem width_shl : Instr.shl.width = 1 := rfl
@[simp] theorem width_shr : Instr.shr.width = 1 := rfl
@[simp] theorem width_add : Instr.add.width = 1 := rfl
@[simp] theorem width_sub : Instr.sub.width = 1 := rfl
@[simp] theorem width_mul : Instr.mul.width = 1 := rfl
@[simp] theorem width_div : Instr.div.width = 1 := rfl
@[simp] theorem width_mod : Instr.mod.width = 1 := rfl
@[simp] theorem width_opn : Instr.opn.width = 1 := rfl
@[simp] theorem width_read : Instr.read.width = 1 := rfl
@[simp] theorem width_clos : Instr.clos.width = 1 := rfl
@[simp] theorem width_prtf : Instr.prtf.width = 1 := rfl
@[simp] theorem width_malc : Instr.malc.width = 1 := rfl
@[simp] theorem width_free : Instr.free.width = 1 := rfl
@[simp] theorem width_mset : Instr.mset.width = 1 := rfl
@[simp] theorem width_mcmp : Instr.mcmp.width = 1 := rfl
@[simp] theorem width_exit : Instr.exit.width = 1 := rfl

end Sys2Proof.Machine
end

