-- ==== Sys2Proof/Laws/Access.lean ====
section
/-! SUPPORT. What the access operations do (spec/20_memory.md rules R61 to R64): a data access and its route, a stack
access, push and pop, and what each leaves at every address. -/

namespace Sys2Proof.Machine

/-- What dataRoute accepts. -/
theorem dataRoute_ok {s : State} {a : Word} {n : Nat} {r : Route} (h : s.dataRoute a n = .ok r) :
    route s.par a n = r ∧ (n = 8 → a.toNat % 8 = 0)
    ∧ ((∃ X o, r = .seg X o) ∨ (∃ x, r = .hostMem x ∧ HostMemory.allocated s.hmem x n = true)) := by
  unfold State.dataRoute at h
  split at h
  · simp at h
  · rename_i x hr
    split at h
    · simp at h
    · rename_i hal
      split at h
      · simp at h
      · rename_i h8
        simp only [Except.ok.injEq] at h
        subst h
        refine ⟨hr, fun hn => ?_, .inr ⟨x, rfl, by simpa using hal⟩⟩
        by_contra hne
        exact h8 ⟨hn, by simpa [aligned] using hne⟩
  · rename_i X o hr
    split at h
    · simp at h
    · rename_i h8
      simp only [Except.ok.injEq] at h
      subst h
      refine ⟨hr, fun hn => ?_, .inl ⟨X, o, rfl⟩⟩
      by_contra hne
      exact h8 ⟨hn, by simpa [aligned] using hne⟩

theorem memWrite_ok {s t : State} {a v : Word} {n : Nat} (h : s.memWrite a n v = .ok t) :
    ∃ r, s.dataRoute a n = .ok r ∧ t = s.writeRoute r n v := by
  unfold State.memWrite at h
  cases hd : s.dataRoute a n with
  | error e => rw [hd] at h; simp [Except.map] at h
  | ok r => rw [hd] at h; simp only [Except.map, Except.ok.injEq] at h; exact ⟨r, rfl, h.symm⟩

theorem byteAt_writeRoute {s : State} (hp : s.par.wf = true) {a : Word} {n : Nat} {r : Route}
    (h : s.dataRoute a n = .ok r) (v x : Word) :
    (s.writeRoute r n v).byteAt x
      = if a.toNat ≤ x.toNat ∧ x.toNat < a.toNat + n then some (byteOf v (x.toNat - a.toNat)) else s.byteAt x := by
  obtain ⟨hr, -, hc⟩ := dataRoute_ok h
  rcases hc with ⟨X, o, rfl⟩ | ⟨y, rfl, -⟩
  · exact byteAt_writeSeg hp hr v x
  · exact byteAt_writeHost hr v x

theorem route_end {s : State} (hp : s.par.wf = true) {a : Word} {n : Nat} {r : Route}
    (h : s.dataRoute a n = .ok r) : a.toNat + n ≤ 2 ^ 64 := by
  obtain ⟨hr, -, hc⟩ := dataRoute_ok h
  obtain ⟨-, -, hb, -⟩ := (Params.wf_iff _).mp hp
  rcases hc with ⟨X, o, rfl⟩ | ⟨y, rfl, -⟩
  · have := route_seg hr; have := hb X; omega
  · exact (route_hostMem hr).2.1

theorem bytesHold_of {a : Word} {n : Nat} {v : Word} {t : State} (hend : a.toNat + n ≤ 2 ^ 64)
    (h : ∀ x : Word, a.toNat ≤ x.toNat ∧ x.toNat < a.toNat + n → t.byteAt x = some (byteOf v (x.toNat - a.toNat))) :
    BytesHold a n v t := by
  intro i hi
  have ht := toNat_add_ofNat (a := a) (i := i) (by omega)
  rw [h _ (by omega), ht]
  congr 2; omega

/-- The bytes of a route, one by one. -/
theorem byteAt_readRoute {s : State} (hp : s.par.wf = true) {a : Word} {n : Nat} {r : Route} (hn : n ≤ 8)
    (h : s.dataRoute a n = .ok r) : BytesHold a n (s.readRoute r n) s := by
  obtain ⟨hr, -, hc⟩ := dataRoute_ok h
  intro i hi
  rcases hc with ⟨X, o, rfl⟩ | ⟨y, rfl, hal⟩
  · unfold State.byteAt
    rw [route_byte_seg hp hr hi]
    simp only [State.readRoute, Memory.readWord]
    rw [byteOf_leWord _ _ _ _ hi hn]
  · unfold State.byteAt
    rw [route_byte_hostMem hr hi]
    simp only [State.readRoute, HostMemory.readWord]
    rw [byteOf_leWord _ _ _ _ hi hn]
    have := (HostMemory.allocated_iff _ _ _).mp hal i hi
    obtain ⟨b, hb⟩ := Option.isSome_iff_exists.mp this
    simp [hb]

/-- An assembled word has no bit above its bytes. -/
theorem leWord_lt (rd : Nat → Byte) (a n : Nat) : (leWord rd a n).toNat < 2 ^ (8 * n) := by
  refine Nat.lt_pow_two_of_testBit _ fun k hk => ?_
  have := leWord_getLsbD rd a n k
  rw [BitVec.getLsbD] at this
  rw [this]
  have : ¬ k < 8 * n := by omega
  simp [this]

/-- A read of a route after a write to it. -/
theorem readRoute_writeRoute {s : State} {a v : Word} {n : Nat} {r : Route}
    (h : s.dataRoute a n = .ok r) (hn : n = 1 ∨ n = 8) :
    (s.writeRoute r n v).readRoute r n = if n = 8 then v else (v.setWidth 8).setWidth 64 := by
  obtain ⟨hr, -, hc⟩ := dataRoute_ok h
  have h1 : ∀ rd : Nat → Byte, ∀ o, rd o = byteOf v 0 → leWord rd o 1 = (v.setWidth 8).setWidth 64 := by
    intro rd o ho
    simp [leWord, ho, byteOf]
  rcases hc with ⟨X, o, rfl⟩ | ⟨y, rfl, hal⟩
  · simp only [State.writeRoute, State.readRoute, State.seg_setSeg_same]
    rcases hn with rfl | rfl
    · rw [if_neg (by omega)]
      exact h1 _ _ (by rw [Memory.read_writeWord, if_pos (by omega), Nat.sub_self])
    · rw [if_pos rfl, Memory.readWord_writeWord]
  · simp only [State.writeRoute, State.readRoute, State.setHmem_hmem, HostMemory.readWord]
    rcases hn with rfl | rfl
    · rw [if_neg (by omega)]
      exact h1 _ _ (by rw [HostMemory.lookup_writeWord, if_pos (by omega), Nat.sub_self]; rfl)
    · rw [if_pos rfl]
      refine leWord_byteOf _ _ _ fun i hi => ?_
      rw [HostMemory.lookup_writeWord, if_pos (by omega)]
      simp

/-- Writing to a route changes no check a data access makes. -/
theorem dataRoute_writeRoute {s : State} {a v : Word} {n : Nat} {r : Route} (h : s.dataRoute a n = .ok r) :
    (s.writeRoute r n v).dataRoute a n = .ok r := by
  obtain ⟨hr, h8, hc⟩ := dataRoute_ok h
  have hal8 : ¬ (n = 8 ∧ aligned a = false) := fun ⟨h1, h2⟩ => by
    have := h8 h1; simp [aligned, this] at h2
  rcases hc with ⟨X, o, rfl⟩ | ⟨y, rfl, hal⟩
  · unfold State.dataRoute
    simp only [State.writeRoute, State.setSeg_par, hr]
    rw [if_neg hal8]
  · unfold State.dataRoute
    simp only [State.writeRoute, State.setHmem_par, State.setHmem_hmem, hr]
    have : HostMemory.allocated (HostMemory.writeWord s.hmem y n v) y n = true := by
      rw [HostMemory.allocated_iff]
      intro i hi
      rw [HostMemory.lookup_writeWord, if_pos (by omega)]; rfl
    split
    · rename_i hc; rw [this] at hc; simp at hc
    · rfl

theorem writeRoute_frame (s : State) (r : Route) (n : Nat) (v : Word) :
    s.writeRoute r n v = { s with
      code := (s.writeRoute r n v).code, data := (s.writeRoute r n v).data
      stack := (s.writeRoute r n v).stack, hmem := (s.writeRoute r n v).hmem } := by
  cases r with
  | seg X o => cases X <;> rfl
  | straddle => rfl
  | hostMem x => rfl

theorem stackRead_ok {s : State} {a v : Word} (h : s.stackRead a = .ok v) :
    ∃ o, s.stackCell a = .ok o ∧ v = Memory.readWord s.stack o 8 := by
  unfold State.stackRead at h
  cases hc : s.stackCell a with
  | error e => rw [hc] at h; simp [Except.map] at h
  | ok o => rw [hc] at h; simp only [Except.map, Except.ok.injEq] at h; exact ⟨o, rfl, h.symm⟩

/-- What a stack write leaves at each address. -/
theorem byteAt_stackWrite {s t : State} (hp : s.par.wf = true) {a v : Word} (h : s.stackWrite a v = .ok t) (x : Word) :
    t.byteAt x
      = if a.toNat ≤ x.toNat ∧ x.toNat < a.toNat + 8 then some (byteOf v (x.toNat - a.toNat)) else s.byteAt x := by
  unfold State.stackWrite at h
  cases hc : s.stackCell a with
  | error e => rw [hc] at h; simp [Except.map] at h
  | ok o =>
    rw [hc] at h; simp only [Except.map, Except.ok.injEq] at h; subst h
    exact byteAt_writeSeg hp (stackCell_ok hc).1 v x

theorem isStackCell_end {p : Params} (hp : p.wf = true) {a : Word} (h : IsStackCell p a) : a.toNat + 8 ≤ 2 ^ 64 := by
  obtain ⟨-, -, hb, -⟩ := (Params.wf_iff _).mp hp
  have := hb .stack
  simp only [base] at this
  obtain ⟨h1, h2, -⟩ := h
  omega

/-- R64: what a push does. -/
theorem push_ok {s t : State} {v : Word} (h : s.push v = .ok t) :
    ∃ o, s.stackCell (s.sp - 8) = .ok o
      ∧ t = (s.setSeg .stack (Memory.writeWord s.stack o 8 v)).setSp (s.sp - 8) := by
  unfold State.push State.stackWrite at h
  cases hc : s.stackCell (s.sp - 8) with
  | error e => rw [hc] at h; simp [Except.map] at h
  | ok o => rw [hc] at h; simp only [Except.map, Except.ok.injEq] at h; exact ⟨o, rfl, h.symm⟩

theorem push_of_cell {s : State} {v : Word} {o : Nat} (h : s.stackCell (s.sp - 8) = .ok o) :
    s.push v = .ok ((s.setSeg .stack (Memory.writeWord s.stack o 8 v)).setSp (s.sp - 8)) := by
  unfold State.push State.stackWrite; rw [h]; rfl

theorem push_of_not {s : State} {v : Word} (h : ¬ IsStackCell s.par (s.sp - 8)) :
    s.push v = .error ⟨.stackRange, s.sp - 8⟩ := by
  unfold State.push State.stackWrite; rw [stackCell_of_not h]; rfl

/-- A stack cell's address depends on the parameters alone. -/
theorem stackCell_congr {s t : State} (hp : t.par = s.par) (a : Word) : t.stackCell a = s.stackCell a := by
  unfold State.stackCell; rw [hp]

theorem dataRoute_congr {s t : State} (hp : t.par = s.par) (hh : t.hmem = s.hmem) (a : Word) (n : Nat) :
    t.dataRoute a n = s.dataRoute a n := by
  unfold State.dataRoute; rw [hp, hh]

theorem memRead_congr {s t : State} (hp : t.par = s.par) (hseg : ∀ X, t.seg X = s.seg X) (hh : t.hmem = s.hmem)
    (a : Word) (n : Nat) : t.memRead a n = s.memRead a n := by
  unfold State.memRead
  rw [dataRoute_congr hp hh]
  congr 1; funext r
  cases r <;> simp only [State.readRoute, hseg, hh]

theorem fetch_congr {s t : State} (hp : t.par = s.par) (hc : t.code = s.code) (hs : t.stack = s.stack)
    (ho : t.opCounter = s.opCounter) (a : Word) : t.fetch a = s.fetch a := by
  unfold State.fetch; rw [hp, hc, hs, ho]

@[simp] theorem memRead_begun (s : State) (i : Instr) (a : Word) (n : Nat) :
    (s.begun i).memRead a n = s.memRead a n := memRead_congr (by simp) (by simp) (by simp) a n

@[simp] theorem fetch_begun (s : State) (i : Instr) (a : Word) : (s.begun i).fetch a = s.fetch a :=
  fetch_congr (by simp) (by simp) (by simp) (by simp) a

/-- R64: what a pop does. -/
theorem pop_of_read {s : State} {v : Word} (h : s.stackRead s.sp = .ok v) : s.pop = .ok (v, s.setSp (s.sp + 8)) := by
  unfold State.pop; rw [h]; rfl

theorem pop_of_error {s : State} {e : Trap} (h : s.stackRead s.sp = .error e) : s.pop = .error e := by
  unfold State.pop; rw [h]; rfl

theorem pc_two {i : Instr} (h : i.width = 2) (s : State) : (s.begun i).pc = s.pc + 16 := by
  rw [State.begun_pc, h]; rfl

theorem pc_one {i : Instr} (h : i.width = 1) (s : State) : (s.begun i).pc = s.pc + 8 := by
  rw [State.begun_pc, h]; rfl

/-- A push from an instruction: its result, and what it leaves at each address. -/
theorem push_begun {s : State} {i : Instr} {v : Word} (hp : s.par.wf = true) (h : IsStackCell s.par (s.sp - 8)) :
    ∃ t, (s.begun i).push v = .ok t ∧ BytesHold (s.sp - 8) 8 v t ∧ BytesKeptOutside (s.sp - 8) 8 s t
      ∧ t.sp = s.sp - 8 ∧ t.bp = s.bp ∧ t.ax = s.ax ∧ t.pc = (s.begun i).pc ∧ Retired i s t ∧ PortQuiet s t := by
  have hc : (s.begun i).stackCell ((s.begun i).sp - 8) = .ok ((s.sp - 8).toNat - s.par.stackBase) := by
    rw [stackCell_congr (s := s) (by simp), State.begun_sp, stackCell_of_isStackCell hp h]
  have hb : ∀ x, _ := byteAt_stackWrite (s := s.begun i) (a := s.sp - 8) (v := v) (by simpa using hp)
    (t := (s.begun i).setSeg .stack (Memory.writeWord (s.begun i).stack _ 8 v))
    (by rw [State.stackWrite]; rw [State.begun_sp] at hc; rw [hc]; rfl)
  refine ⟨_, push_of_cell hc, ?_, ?_, by simp, by simp, by simp, by simp, by constructor <;> simp, by constructor <;> simp⟩
  · refine bytesHold_of (isStackCell_end hp h) fun x hx => ?_
    rw [byteAt_setSp, hb, if_pos hx]
  · intro x hx
    rw [byteAt_setSp, hb, if_neg hx, byteAt_begun]

theorem push_begun_fault {s : State} {i : Instr} {v : Word} (h : ¬ IsStackCell s.par (s.sp - 8)) :
    (s.begun i).push v = .error ⟨.stackRange, s.sp - 8⟩ := by
  have := push_of_not (s := s.begun i) (v := v) (by simpa using h)
  simpa using this

/-- A data access of one byte is the byte at the address. -/
theorem memRead_one {s : State} {a : Word} {b : Byte} (h : s.byteAt a = some b) :
    ∃ v, s.memRead a 1 = .ok v ∧ v.setWidth 8 = b := by
  unfold State.byteAt at h
  unfold State.memRead State.dataRoute
  cases hr : route s.par a 1 with
  | straddle => rw [hr] at h; simp at h
  | seg X o =>
    rw [hr] at h; simp only [Option.some.injEq] at h
    refine ⟨s.readRoute (.seg X o) 1, by simp [Except.map], ?_⟩
    simp [State.readRoute, Memory.readWord, leWord, h]
  | hostMem x =>
    rw [hr] at h; simp only at h
    have : HostMemory.allocated s.hmem x 1 = true := by
      rw [HostMemory.allocated_iff]; intro i hi; have : i = 0 := by omega
      subst this; simp [h]
    refine ⟨s.readRoute (.hostMem x) 1, by simp [this, Except.map], ?_⟩
    simp [State.readRoute, HostMemory.readWord, leWord, h]

theorem dataRoute_one {s : State} {a : Word} (h : (s.byteAt a).isSome = true) : ∃ r, s.dataRoute a 1 = .ok r := by
  obtain ⟨b, hb⟩ := Option.isSome_iff_exists.mp h
  obtain ⟨v, hv, -⟩ := memRead_one hb
  unfold State.memRead at hv
  cases hd : s.dataRoute a 1 with
  | ok r => exact ⟨r, rfl⟩
  | error e => rw [hd] at hv; simp [Except.map] at hv

theorem dataRoute_one_none {s : State} {a : Word} (h : s.byteAt a = none) :
    s.dataRoute a 1 = .error ⟨.dataAddress, a⟩ := by
  unfold State.byteAt at h
  unfold State.dataRoute
  cases hr : route s.par a 1 with
  | straddle => rfl
  | seg X o => rw [hr] at h; simp at h
  | hostMem x =>
    rw [hr] at h; simp only at h
    have : HostMemory.allocated s.hmem x 1 = false := by
      rw [Bool.eq_false_iff]; intro hc
      have := (HostMemory.allocated_iff _ _ _).mp hc 0 (by omega)
      simp [h] at this
    simp [this]

theorem widenByte_eq (x : LcExtend) (v : Word) :
    widenByte x v = if x = .sign then (v.setWidth 8).signExtend 64 else (v.setWidth 8).zeroExtend 64 := by
  cases x <;> rfl

/-- What a write to a route leaves unchanged. -/
theorem retired_writeRoute {i : Instr} {s t : State} (r : Route) (n : Nat) (v : Word) (h : Retired i s t) :
    Retired i s (t.writeRoute r n v) := by
  rw [writeRoute_frame]; exact ⟨h.1, h.2, h.3, h.4, h.5, h.6, h.7, h.8, h.9, h.10, h.11, h.12⟩

theorem portQuiet_writeRoute {s t : State} (r : Route) (n : Nat) (v : Word) (h : PortQuiet s t) :
    PortQuiet s (t.writeRoute r n v) := by
  rw [writeRoute_frame]; exact ⟨h.1, h.2, h.3, h.4⟩

@[simp] theorem State.writeRoute_par (s : State) (r : Route) (n : Nat) (v : Word) : (s.writeRoute r n v).par = s.par := by
  rw [writeRoute_frame]
@[simp] theorem State.writeRoute_pc (s : State) (r : Route) (n : Nat) (v : Word) : (s.writeRoute r n v).pc = s.pc := by
  rw [writeRoute_frame]
@[simp] theorem State.writeRoute_bp (s : State) (r : Route) (n : Nat) (v : Word) : (s.writeRoute r n v).bp = s.bp := by
  rw [writeRoute_frame]
@[simp] theorem State.writeRoute_sp (s : State) (r : Route) (n : Nat) (v : Word) : (s.writeRoute r n v).sp = s.sp := by
  rw [writeRoute_frame]
@[simp] theorem State.writeRoute_ax (s : State) (r : Route) (n : Nat) (v : Word) : (s.writeRoute r n v).ax = s.ax := by
  rw [writeRoute_frame]
@[simp] theorem State.writeRoute_status (s : State) (r : Route) (n : Nat) (v : Word) : (s.writeRoute r n v).status = s.status := by
  rw [writeRoute_frame]
@[simp] theorem State.writeRoute_opCounter (s : State) (r : Route) (n : Nat) (v : Word) : (s.writeRoute r n v).opCounter = s.opCounter := by
  rw [writeRoute_frame]
@[simp] theorem State.writeRoute_dataCursor (s : State) (r : Route) (n : Nat) (v : Word) : (s.writeRoute r n v).dataCursor = s.dataCursor := by
  rw [writeRoute_frame]
@[simp] theorem State.writeRoute_cycle (s : State) (r : Route) (n : Nat) (v : Word) : (s.writeRoute r n v).cycle = s.cycle := by
  rw [writeRoute_frame]
@[simp] theorem State.writeRoute_exitValue (s : State) (r : Route) (n : Nat) (v : Word) : (s.writeRoute r n v).exitValue = s.exitValue := by
  rw [writeRoute_frame]
@[simp] theorem State.writeRoute_faultCause (s : State) (r : Route) (n : Nat) (v : Word) : (s.writeRoute r n v).faultCause = s.faultCause := by
  rw [writeRoute_frame]
@[simp] theorem State.writeRoute_faultPc (s : State) (r : Route) (n : Nat) (v : Word) : (s.writeRoute r n v).faultPc = s.faultPc := by
  rw [writeRoute_frame]
@[simp] theorem State.writeRoute_faultInfo (s : State) (r : Route) (n : Nat) (v : Word) : (s.writeRoute r n v).faultInfo = s.faultInfo := by
  rw [writeRoute_frame]
@[simp] theorem State.writeRoute_heap (s : State) (r : Route) (n : Nat) (v : Word) : (s.writeRoute r n v).heap = s.heap := by
  rw [writeRoute_frame]
@[simp] theorem State.writeRoute_mode (s : State) (r : Route) (n : Nat) (v : Word) : (s.writeRoute r n v).mode = s.mode := by
  rw [writeRoute_frame]
@[simp] theorem State.writeRoute_traceOn (s : State) (r : Route) (n : Nat) (v : Word) : (s.writeRoute r n v).traceOn = s.traceOn := by
  rw [writeRoute_frame]
@[simp] theorem State.writeRoute_trace (s : State) (r : Route) (n : Nat) (v : Word) : (s.writeRoute r n v).trace = s.trace := by
  rw [writeRoute_frame]
@[simp] theorem State.writeRoute_requests (s : State) (r : Route) (n : Nat) (v : Word) : (s.writeRoute r n v).requests = s.requests := by
  rw [writeRoute_frame]
@[simp] theorem State.writeRoute_replies (s : State) (r : Route) (n : Nat) (v : Word) : (s.writeRoute r n v).replies = s.replies := by
  rw [writeRoute_frame]
@[simp] theorem State.writeRoute_draws (s : State) (r : Route) (n : Nat) (v : Word) : (s.writeRoute r n v).draws = s.draws := by
  rw [writeRoute_frame]

theorem leWord_congr {rd rd' : Nat → Byte} (a n : Nat) (h : ∀ i < n, rd (a + i) = rd' (a + i)) :
    leWord rd a n = leWord rd' a n := by
  induction n generalizing a with
  | zero => rfl
  | succ n ih =>
    unfold leWord
    rw [ih (a + 1) (fun i hi => by have := h (i + 1) (by omega); rwa [show a + (i + 1) = a + 1 + i by omega] at this)]
    have := h 0 (by omega); rw [Nat.add_zero] at this; rw [this]

/-- A cell outside the one written reads as before. -/
theorem readWord_writeWord_ne (m : List Host.Cell) (o p : Nat) (v : Word) (h : o + 8 ≤ p ∨ p + 8 ≤ o) :
    Memory.readWord (Memory.writeWord m o 8 v) p 8 = Memory.readWord m p 8 := by
  refine leWord_congr p 8 fun i hi => ?_
  rw [Memory.read_writeWord, if_neg (by omega)]

end Sys2Proof.Machine
end

