-- ==== Sys2Proof/Laws/Alu.lean ====
section
/-! SUPPORT. What the shapes of the binary opcodes do (spec/44_alu.md rule R175), and the ranges of the integers a word
stands for. -/

namespace Sys2Proof.Machine

/-- R175: a binary opcode whose operand is on the stack: its function's value, or the fault it names. -/
theorem binary_of_read {s : State} {i : Instr} {a : Word} (h : s.stackRead s.sp = .ok a)
    (f : Word → Word → Access Word) :
    (s.begun i).binary f = (f a s.ax).map fun r => ((s.begun i).setSp (s.sp + 8)).setAx r := by
  have hp := pop_of_read (s := s.begun i) (v := a) (by simpa using h)
  unfold State.binary
  rw [hp]
  simp only [bind, Except.bind, State.setSp_ax, State.begun_ax, State.begun_sp]
  cases f a s.ax <;> rfl

theorem binary_of_error {s : State} {i : Instr} {e : Trap} (h : s.stackRead s.sp = .error e)
    (f : Word → Word → Access Word) : (s.begun i).binary f = .error e := by
  have hp := pop_of_error (s := s.begun i) (e := e) (by simpa using h)
  unfold State.binary
  rw [hp]; rfl

theorem shift_of_read {s : State} {i : Instr} {a : Word} (h : s.stackRead s.sp = .ok a)
    (f : Word → Word → Word) :
    (s.begun i).shift f = .ok (if shiftInRange s.ax then ((s.begun i).setSp (s.sp + 8)).setAx (f a s.ax)
      else ((s.begun i).setSp (s.sp + 8)).drawAx) := by
  have hp := pop_of_read (s := s.begun i) (v := a) (by simpa using h)
  unfold State.shift
  rw [hp]
  simp only [Except.map, State.setSp_ax, State.begun_ax, State.begun_sp]

theorem shift_of_error {s : State} {i : Instr} {e : Trap} (h : s.stackRead s.sp = .error e)
    (f : Word → Word → Word) : (s.begun i).shift f = .error e := by
  have hp := pop_of_error (s := s.begun i) (e := e) (by simpa using h)
  unfold State.shift
  rw [hp]; rfl

/-- R175: the state a binary opcode with result `r` ends in. -/
theorem binaryDone (s : State) {i : Instr} (hw : i.width = 1) (r : Word) :
    BinaryDone i s (((s.begun i).setSp (s.sp + 8)).setAx r) := by
  refine ⟨by constructor <;> simp, by constructor <;> simp, fun x => by simp, by simp [hw], by simp, by simp⟩

/-- The function of each binary opcode other than a shift. -/
theorem exec_binary_cases : ∀ i ∈ binaryOpcodes, i.width = 1 ∧
    ((∃ f, ∀ s, exec i s = runInstr i (fun t => t.binary f) s)
      ∨ ((i = .shl ∨ i = .shr) ∧ ∃ f, ∀ s, exec i s = runInstr i (fun t => t.shift f) s)) := by
  intro i hi
  simp only [binaryOpcodes, List.mem_cons, List.not_mem_nil, or_false] at hi
  rcases hi with rfl | rfl | rfl | rfl | rfl | rfl | rfl | rfl | rfl | rfl | rfl | rfl | rfl | rfl | rfl | rfl <;>
    refine ⟨rfl, ?_⟩ <;> first | exact .inl ⟨_, fun _ => rfl⟩ | exact .inr ⟨by simp, _, fun _ => rfl⟩

theorem exec_binary_ok {i : Instr} {f : Word → Word → Access Word} (hf : ∀ s, exec i s = runInstr i (fun t => t.binary f) s)
    (hw : i.width = 1) {s : State} {a r : Word} (ha : s.stackRead s.sp = .ok a) (hr : f a s.ax = .ok r) :
    ∃ t, exec i s = .next t ∧ t.ax = r ∧ BinaryDone i s t :=
  ⟨_, by rw [hf]; exact runInstr_ok (by rw [binary_of_read ha, hr]; rfl), by simp, binaryDone s hw r⟩

theorem toNat_of_shiftInRange {b : Word} (h : shiftInRange b = true) : b.toNat ≤ 63 := by
  simp only [shiftInRange, Bool.and_eq_true, decide_eq_true_eq, BitVec.toInt] at h
  have := b.isLt
  split at h <;> omega

theorem toInt_ofInt_of_range {x : Int} (h1 : -2 ^ 63 ≤ x) (h2 : x < 2 ^ 63) : (BitVec.ofInt 64 x).toInt = x := by
  rw [BitVec.toInt_ofInt, Int.bmod_eq_of_le] <;> simp <;> omega

theorem toInt_range (a : Word) : -2 ^ 63 ≤ a.toInt ∧ a.toInt < 2 ^ 63 := by
  have := a.isLt
  unfold BitVec.toInt; split <;> omega

end Sys2Proof.Machine
end

