-- ==== Sys2Proof/Laws/Decode.lean ====
section
/-! SUPPORT. What decoding reads of an encoding, and what a decoded instruction says of its cells (spec/30_encoding.md).
-/

namespace Sys2Proof

open Machine

theorem takeCell_cellBytes (v : Word) (rest : List Byte) : takeCell (cellBytes v ++ rest) = some (v, rest) := by
  have h : cellBytes v = [byteOf v 0, byteOf v 1, byteOf v 2, byteOf v 3, byteOf v 4, byteOf v 5, byteOf v 6, byteOf v 7] := rfl
  rw [h]
  simp only [List.cons_append, List.nil_append, takeCell, Option.some.injEq, Prod.mk.injEq, and_true]
  refine leWord_byteOf _ _ _ fun i hi => ?_
  have : i = 0 ∨ i = 1 ∨ i = 2 ∨ i = 3 ∨ i = 4 ∨ i = 5 ∨ i = 6 ∨ i = 7 := by omega
  rcases this with rfl | rfl | rfl | rfl | rfl | rfl | rfl | rfl <;> rfl

theorem decodeInstr_opcode (i : Instr) : decodeInstr i.opcode (i.operand.getD 0) = some i := by
  cases i <;> rfl

theorem valid_opcode (i : Instr) : validOpcode i.opcode = true := by cases i <;> rfl

theorem width_opcode (i : Instr) : widthCells i.opcode = i.width := by cases i <;> rfl

theorem cellBytes_of_takeCell {bs rest : List Byte} {v : Word} (h : takeCell bs = some (v, rest)) :
    bs = cellBytes v ++ rest := by
  unfold takeCell at h
  split at h
  · rename_i b0 b1 b2 b3 b4 b5 b6 b7 r
    simp only [Option.some.injEq, Prod.mk.injEq] at h
    obtain ⟨rfl, rfl⟩ := h
    have hb := fun i (hi : i < 8) => byteOf_leWord (fun i => [b0, b1, b2, b3, b4, b5, b6, b7].getD i 0) 0 8 i hi (by omega)
    have e : ∀ v : Word, cellBytes v = [byteOf v 0, byteOf v 1, byteOf v 2, byteOf v 3, byteOf v 4, byteOf v 5, byteOf v 6, byteOf v 7] := fun _ => rfl
    rw [e, hb 0 (by omega), hb 1 (by omega), hb 2 (by omega), hb 3 (by omega), hb 4 (by omega), hb 5 (by omega), hb 6 (by omega), hb 7 (by omega)]
    rfl
  · simp at h

theorem toNat_of_valid {op : Word} (h : validOpcode op = true) : op.toNat ≤ 38 := by
  simp only [validOpcode, Bool.and_eq_true, decide_eq_true_eq, BitVec.toInt] at h
  have := op.isLt
  split at h <;> omega

theorem valid_iff (op : Word) : validOpcode op = true ↔ op.toNat ≤ 38 := by
  constructor
  · exact toNat_of_valid
  · intro h
    simp only [validOpcode, Bool.and_eq_true, decide_eq_true_eq, BitVec.toInt]
    split <;> omega

theorem decode_facts {op imm : Word} {i : Instr} (h : decodeInstr op imm = some i) :
    i.opcode = op ∧ (∀ w, i.operand = some w → w = imm) ∧ op.toNat ≤ 38 := by
  unfold decodeInstr at h
  split at h <;> first | (simp at h; done) | skip
  all_goals
    rename_i hn
    simp only [Option.some.injEq] at h
    subst h
    refine ⟨BitVec.eq_of_toNat_eq ?_, ?_, by omega⟩
    · rw [hn]; rfl
    · simp [Instr.operand]

theorem mnemonic_isSome (i : Instr) : ∃ m, mnemonicOf i.opcode = some m := by cases i <;> exact ⟨_, rfl⟩

end Sys2Proof
end

