-- ==== Sys2Proof/Laws/Effect.lean ====
section
/-! SUPPORT. What the effect of an instruction that asks nothing of the host keeps: the control registers, which of
bp, sp and ax, and the form of memory; and which causes its traps have (spec/60_exceptions.md rule R254). Every memory
operation keeps the canonical form (`memOk_…`). -/

namespace Sys2Proof.Machine

/-- The part of the invariant about memory. -/
structure MemOk (s : State) : Prop where
  params : s.par.wf = true
  code : Memory.wf s.par.poolSize s.code = true
  data : Memory.wf s.par.poolSize s.data = true
  stack : Memory.wf s.par.poolSize s.stack = true
  hostMemory : HostMemory.wf s.par s.hmem = true
  heap : HeapOk s.hmem s.heap

/-- An access that gives a state with `P`, or raises a trap with one of the fault causes. -/
def Yields (P : State → Prop) : Access State → Prop
  | .ok t => P t
  | .error e => e.cause ≠ .none ∧ e.cause ≠ .unknownOpcode

/-- What the effect of an instruction may change of the state it is given. -/
structure Kept (i : Instr) (t u : State) : Prop where
  par : u.par = t.par
  opCounter : u.opCounter = t.opCounter
  dataCursor : u.dataCursor = t.dataCursor
  cycle : u.cycle = t.cycle
  faultCause : u.faultCause = t.faultCause
  faultPc : u.faultPc = t.faultPc
  faultInfo : u.faultInfo = t.faultInfo
  mode : u.mode = t.mode
  traceOn : u.traceOn = t.traceOn
  trace : u.trace = t.trace
  status : i ≠ .exit → u.status = t.status
  exitValue : i ≠ .exit → u.exitValue = t.exitValue
  exited : i = .exit → u.status = .exit
  bp : u.bp ≠ t.bp → i = .lev ∨ ∃ w, i = .ent w
  sp : u.sp ≠ t.sp →
    i ∈ binaryOpcodes ∨ i ∈ [Instr.lev, .si, .sc, .push] ∨ ∃ w, i = .call w ∨ i = .ent w ∨ i = .adj w
  ax : u.ax ≠ t.ax →
    i ∈ binaryOpcodes ∨ i ∈ hostCallOpcodes ∨ i ∈ [Instr.li, .lc, .sc] ∨ ∃ w, i = .lea w ∨ i = .imm w
  mem : MemOk t → MemOk u

theorem HostMemory.wf_iff (p : Params) (m : List Host.Cell) : HostMemory.wf p m = true ↔
    keysRising m = true ∧ ∀ x, (lookup m x).isSome = true → 0 < x ∧ x < 2 ^ 64 ∧ ∀ X, inSegment p X x 1 = false := by
  unfold HostMemory.wf
  simp only [Bool.and_eq_true, List.all_eq_true, decide_eq_true_eq, Bool.not_eq_true']
  refine and_congr_right fun hr => ⟨fun h x hx => ?_, fun h c hc => ?_⟩
  · obtain ⟨v, hv⟩ := Option.isSome_iff_exists.mp hx
    have := h _ (mem_of_lookup hv)
    exact ⟨this.1.1.1.1, this.1.1.1.2, fun X => by cases X <;> simp [this]⟩
  · have hx := lookup_isSome_of_mem hc
    obtain ⟨h1, h2, h3⟩ := h _ hx
    exact ⟨⟨⟨⟨h1, h2⟩, h3 .code⟩, h3 .data⟩, h3 .stack⟩

/-- Writing over allocated addresses keeps the form of host memory, and what is allocated. -/
theorem isSome_insertKey {m : List Host.Cell} {x : Nat} (hx : (lookup m x).isSome = true) (b : Byte) (q : Nat) :
    (lookup (insertKey m x b) q).isSome = (lookup m q).isSome := by
  rw [lookup_insertKey]; split
  · rename_i h; subst h; simp [hx]
  · rfl

theorem HostMemory.wf_congr {p : Params} {m n : List Host.Cell} (h : HostMemory.wf p m = true)
    (hr : keysRising n = true) (he : ∀ q, (lookup n q).isSome = (lookup m q).isSome) : HostMemory.wf p n = true := by
  rw [HostMemory.wf_iff] at *
  exact ⟨hr, fun x hx => h.2 x (by rw [← he]; exact hx)⟩

theorem HeapOk.congr {m n : List Host.Cell} {heap : List (Nat × Nat)} (h : HeapOk m heap)
    (he : ∀ q, (lookup n q).isSome = (lookup m q).isSome) : HeapOk n heap :=
  ⟨h.1, h.2, fun b hb x hx => by rw [he]; exact h.3 b hb x hx, h.4⟩

theorem HostMemory.keys {p : Params} {m : List Host.Cell} (h : HostMemory.wf p m = true) : keysRising m = true :=
  ((HostMemory.wf_iff p m).mp h).1

theorem memOk_writeRoute {s : State} {a : Word} {n : Nat} {r : Route} (h : MemOk s) (hr : s.dataRoute a n = .ok r)
    (v : Word) : MemOk (s.writeRoute r n v) := by
  obtain ⟨hrt, -, hc⟩ := dataRoute_ok hr
  rcases hc with ⟨X, o, rfl⟩ | ⟨x, rfl, hal⟩
  · obtain ⟨h1, h2, h3⟩ := route_seg hrt
    have : o + n ≤ s.par.poolSize := by omega
    cases X
    · exact ⟨h.1, Memory.wf_writeWord h.2 this v, h.3, h.4, h.5, h.6⟩
    · exact ⟨h.1, h.2, Memory.wf_writeWord h.3 this v, h.4, h.5, h.6⟩
    · exact ⟨h.1, h.2, h.3, Memory.wf_writeWord h.4 this v, h.5, h.6⟩
  · have he : ∀ q, (lookup (HostMemory.writeWord s.hmem x n v) q).isSome = (lookup s.hmem q).isSome := by
      intro q
      rw [HostMemory.lookup_writeWord]
      split
      · have := (HostMemory.allocated_iff _ _ _).mp hal (q - x) (by omega)
        have e : x + (q - x) = q := by omega
        rw [e] at this; simp [this]
      · rfl
    exact ⟨h.1, h.2, h.3, h.4, HostMemory.wf_congr h.5 (HostMemory.keysRising_writeWord (HostMemory.keys h.5) _ _ _) he, h.6.congr he⟩

theorem memOk_of_eq {s t : State} (h : MemOk s) (hp : t.par = s.par) (hs : ∀ X, t.seg X = s.seg X)
    (hh : t.hmem = s.hmem) (hk : t.heap = s.heap) : MemOk t := by
  have h1 := hs .code; have h2 := hs .data; have h3 := hs .stack
  simp only [State.seg] at h1 h2 h3
  exact ⟨by rw [hp]; exact h.1, by rw [hp, h1]; exact h.2, by rw [hp, h2]; exact h.3, by rw [hp, h3]; exact h.4,
    by rw [hp, hh]; exact h.5, by rw [hh, hk]; exact h.6⟩

theorem memOk_writeStack {s : State} {a : Word} {o : Nat} (h : MemOk s) (hc : s.stackCell a = .ok o) (v : Word) :
    MemOk (s.setSeg .stack (Memory.writeWord s.stack o 8 v)) := by
  obtain ⟨h1, h2, h3⟩ := route_seg (stackCell_ok hc).1
  exact ⟨h.1, h.2, h.3, Memory.wf_writeWord h.4 (by omega) v, h.5, h.6⟩

theorem stackCell_raises {s : State} {a : Word} {e : Trap} (h : s.stackCell a = .error e) :
    e.cause ≠ .none ∧ e.cause ≠ .unknownOpcode := by rw [stackCell_error h]; simp
theorem stackRead_raises {s : State} {a : Word} {e : Trap} (h : s.stackRead a = .error e) :
    e.cause ≠ .none ∧ e.cause ≠ .unknownOpcode := by rw [stackRead_error h]; simp
theorem dataRoute_raises {s : State} {a : Word} {n : Nat} {e : Trap} (h : s.dataRoute a n = .error e) :
    e.cause ≠ .none ∧ e.cause ≠ .unknownOpcode := by
  unfold State.dataRoute at h
  split at h
  · simp only [Except.error.injEq] at h; subst h; simp
  · split at h
    · simp only [Except.error.injEq] at h; subst h; simp
    · split at h
      · simp only [Except.error.injEq] at h; subst h; simp
      · simp at h
  · split at h
    · simp only [Except.error.injEq] at h; subst h; simp
    · simp at h
theorem fetch_raises {s : State} {a : Word} {e : Trap} (h : s.fetch a = .error e) :
    e.cause ≠ .none ∧ e.cause ≠ .unknownOpcode := by
  unfold State.fetch at h
  split at h
  · split at h
    · simp only [Except.error.injEq] at h; subst h; simp
    · split at h
      · simp only [Except.error.injEq] at h; subst h; simp
      · simp at h
  · split at h
    · simp only [Except.error.injEq] at h; subst h; simp
    · simp at h
  all_goals simp only [Except.error.injEq] at h; subst h; simp

theorem yields_push {P : State → Prop} {t : State} {v : Word} {f : State → State}
    (h : ∀ o, t.stackCell (t.sp - 8) = .ok o →
      P (f ((t.setSeg .stack (Memory.writeWord t.stack o 8 v)).setSp (t.sp - 8)))) :
    Yields P ((t.push v).map f) := by
  unfold State.push State.stackWrite
  cases hc : t.stackCell (t.sp - 8) with
  | ok o => exact h o hc
  | error e => exact stackCell_raises hc

theorem pop_cases (t : State) :
    (∃ a, t.pop = .ok (a, t.setSp (t.sp + 8)))
    ∨ ∃ e, t.pop = .error e ∧ e.cause ≠ .none ∧ e.cause ≠ .unknownOpcode := by
  unfold State.pop
  cases hc : t.stackRead t.sp with
  | ok a => exact .inl ⟨a, rfl⟩
  | error e => exact .inr ⟨e, rfl, stackRead_raises hc⟩

theorem yields_memRead {P : State → Prop} {t : State} {a : Word} {n : Nat} {f : Word → State}
    (h : ∀ v, P (f v)) : Yields P ((t.memRead a n).map f) := by
  unfold State.memRead
  cases hc : t.dataRoute a n with
  | ok r => exact h _
  | error e => exact dataRoute_raises hc

theorem yields_memWrite {P : State → Prop} {t : State} {a : Word} {n : Nat} {v : Word} {f : State → State}
    (h : ∀ r, t.dataRoute a n = .ok r → P (f (t.writeRoute r n v))) : Yields P ((t.memWrite a n v).map f) := by
  unfold State.memWrite
  cases hc : t.dataRoute a n with
  | ok r => exact h r hc
  | error e => exact dataRoute_raises hc

theorem yields_binary {i : Instr} (hi : i ∈ binaryOpcodes) {t : State} {f : Word → Word → Access Word}
    (hf : ∀ a b e, f a b = .error e → e.cause ≠ .none ∧ e.cause ≠ .unknownOpcode) :
    Yields (Kept i t) (t.binary f) := by
  unfold State.binary
  rcases pop_cases t with ⟨a, hp⟩ | ⟨e, hp, he⟩ <;> rw [hp]
  · cases h : f a (t.setSp (t.sp + 8)).ax with
    | error e => simp only [bind, Except.bind, h]; exact hf _ _ _ h
    | ok r =>
      have hne : i ≠ .exit := by rintro rfl; simp [binaryOpcodes] at hi
      simp only [bind, Except.bind, h, pure, Except.pure]
      show Kept i t _
      constructor <;> first | (intro h; exact memOk_of_eq h (by simp) (by simp) (by simp) (by simp)) | (intro h; exact absurd h hne) | simp [hi]
  · exact he

theorem yields_shift {i : Instr} (hi : i ∈ binaryOpcodes) {t : State} {f : Word → Word → Word} :
    Yields (Kept i t) (t.shift f) := by
  have hne : i ≠ .exit := by rintro rfl; simp [binaryOpcodes] at hi
  unfold State.shift State.pop
  cases hc : t.stackRead t.sp with
  | error e => exact stackRead_raises hc
  | ok a =>
    show Kept i t _
    simp only
    split
    · constructor <;> first | (intro h; exact memOk_of_eq h (by simp) (by simp) (by simp) (by simp)) | (intro h; exact absurd h hne) | simp [hi]
    · constructor <;> first | (intro h; exact memOk_of_eq h (by simp) (by simp) (by simp) (by simp)) | (intro h; exact absurd h hne) | simp [hi]

theorem divided_raises {f : Int → Int → Int} (a b : Word) (e : Trap) (h : divided f a b = .error e) :
    e.cause ≠ .none ∧ e.cause ≠ .unknownOpcode := by
  unfold divided divisionFault at h
  split at h
  · rename_i c hc
    simp only [Except.error.injEq] at h; subst h
    split at hc
    · simp at hc; subst hc; simp
    · split at hc
      · simp at hc; subst hc; simp
      · simp at hc
  · simp at h

/-- What the effect of each instruction that asks nothing of the host keeps. -/
theorem effect_kept (i : Instr) (hi : i ∉ hostCallOpcodes) :
    ∃ f, (∀ s, exec i s = runInstr i f s) ∧ ∀ t, Yields (Kept i t) (f t) := by
  cases i with
  | lea w => exact ⟨_, exec_lea w, fun t => by constructor <;> first | (intro h; exact memOk_of_eq h (by simp) (by simp) (by simp) (by simp)) | simp⟩
  | imm w => exact ⟨_, exec_imm w, fun t => by constructor <;> first | (intro h; exact memOk_of_eq h (by simp) (by simp) (by simp) (by simp)) | simp⟩
  | jmp w => exact ⟨_, exec_jmp w, fun t => by constructor <;> first | (intro h; exact memOk_of_eq h (by simp) (by simp) (by simp) (by simp)) | simp⟩
  | adj w => exact ⟨_, exec_adj w, fun t => by constructor <;> first | (intro h; exact memOk_of_eq h (by simp) (by simp) (by simp) (by simp)) | simp⟩
  | jz w =>
    refine ⟨_, exec_jz w, fun t => ?_⟩
    show Kept _ t (if _ then _ else _)
    split <;> constructor <;> first | (intro h; exact memOk_of_eq h (by simp) (by simp) (by simp) (by simp)) | simp
  | jnz w =>
    refine ⟨_, exec_jnz w, fun t => ?_⟩
    show Kept _ t (if _ then _ else _)
    split <;> constructor <;> first | (intro h; exact memOk_of_eq h (by simp) (by simp) (by simp) (by simp)) | simp
  | call w =>
    refine ⟨_, exec_call w, fun t => yields_push fun o ho => ?_⟩
    constructor <;> first | (intro h; exact memOk_of_eq (memOk_writeStack h ho _) rfl (fun X => by cases X <;> rfl) rfl rfl) | simp
  | ent w =>
    refine ⟨_, exec_ent w, fun t => yields_push fun o ho => ?_⟩
    constructor <;> first | (intro h; exact memOk_of_eq (memOk_writeStack h ho _) rfl (fun X => by cases X <;> rfl) rfl rfl) | simp
  | push =>
    refine ⟨fun t => (t.push t.ax).map id, fun s => ?_, fun t => yields_push fun o ho => ?_⟩
    · have e : (fun t : State => (t.push t.ax).map id) = fun t => t.push t.ax := by
        funext t; cases t.push t.ax <;> rfl
      rw [exec_push, e]
    · constructor <;> first | (intro h; exact memOk_of_eq (memOk_writeStack h ho _) rfl (fun X => by cases X <;> rfl) rfl rfl) | simp
  | lev =>
    refine ⟨_, exec_lev, fun t => ?_⟩
    unfold leaveFrame
    rcases pop_cases (t.setSp t.bp) with ⟨a, hp⟩ | ⟨e, hp, he⟩ <;> rw [hp]
    · simp only [bind, Except.bind]
      rcases pop_cases (((t.setSp t.bp).setSp ((t.setSp t.bp).sp + 8)).setBp a) with ⟨b, hq⟩ | ⟨e, hq, he⟩ <;> rw [hq]
      · show Kept _ t _
        constructor <;> first | (intro h; exact memOk_of_eq h (by simp) (by simp) (by simp) (by simp)) | simp
      · exact he
    · exact he
  | li =>
    refine ⟨_, exec_li, fun t => yields_memRead fun v => ?_⟩
    constructor <;> first | (intro h; exact memOk_of_eq h (by simp) (by simp) (by simp) (by simp)) | simp
  | lc =>
    refine ⟨_, exec_lc, fun t => yields_memRead fun v => ?_⟩
    constructor <;> first | (intro h; exact memOk_of_eq h (by simp) (by simp) (by simp) (by simp)) | simp
  | si =>
    refine ⟨_, exec_si, fun t => ?_⟩
    unfold storeWord
    rcases pop_cases t with ⟨a, hp⟩ | ⟨e, hp, he⟩ <;> rw [hp]
    rotate_left
    · exact he
    simp only [bind, Except.bind]
    unfold State.memWrite
    cases hc : (t.setSp (t.sp + 8)).dataRoute a 8 with
    | error e => exact dataRoute_raises hc
    | ok r =>
      show Kept _ t _
      constructor <;> first | (intro h; exact memOk_writeRoute (memOk_of_eq h (by simp) (by simp) (by simp) (by simp)) hc _) | simp
  | sc =>
    refine ⟨_, exec_sc, fun t => ?_⟩
    unfold storeByte
    rcases pop_cases t with ⟨a, hp⟩ | ⟨e, hp, he⟩ <;> rw [hp]
    rotate_left
    · exact he
    simp only [bind, Except.bind]
    unfold State.memWrite
    cases hc : (t.setSp (t.sp + 8)).dataRoute a 1 with
    | error e => exact dataRoute_raises hc
    | ok r =>
      show Kept _ t _
      have hm := fun h : MemOk t => memOk_writeRoute (memOk_of_eq (t := t.setSp (t.sp + 8)) h (by simp) (by simp) (by simp) (by simp)) hc
      constructor <;> first | (intro h; exact memOk_of_eq (hm h (t.setSp (t.sp + 8)).ax) (by simp) (by simp) (by simp) (by simp)) | simp
  | exit =>
    refine ⟨_, exec_exit, fun t => ?_⟩
    cases hc : t.stackRead t.sp with
    | error e => exact stackRead_raises hc
    | ok v =>
      show Kept _ t _
      constructor <;> first | (intro h; exact memOk_of_eq h (by simp) (by simp) (by simp) (by simp)) | simp
  | shl => exact ⟨_, exec_shl, fun t => yields_shift (by simp [binaryOpcodes])⟩
  | shr => exact ⟨_, exec_shr, fun t => yields_shift (by simp [binaryOpcodes])⟩
  | div => exact ⟨_, exec_div, fun t => yields_binary (by simp [binaryOpcodes]) divided_raises⟩
  | mod => exact ⟨_, exec_mod, fun t => yields_binary (by simp [binaryOpcodes]) divided_raises⟩
  | opn => simp [hostCallOpcodes] at hi
  | read => simp [hostCallOpcodes] at hi
  | clos => simp [hostCallOpcodes] at hi
  | prtf => simp [hostCallOpcodes] at hi
  | malc => simp [hostCallOpcodes] at hi
  | free => simp [hostCallOpcodes] at hi
  | mset => simp [hostCallOpcodes] at hi
  | mcmp => simp [hostCallOpcodes] at hi
  | or => exact ⟨_, exec_or, fun t => yields_binary (by simp [binaryOpcodes]) (by intro a b e h; simp at h)⟩
  | xor => exact ⟨_, exec_xor, fun t => yields_binary (by simp [binaryOpcodes]) (by intro a b e h; simp at h)⟩
  | and => exact ⟨_, exec_and, fun t => yields_binary (by simp [binaryOpcodes]) (by intro a b e h; simp at h)⟩
  | eq => exact ⟨_, exec_eq, fun t => yields_binary (by simp [binaryOpcodes]) (by intro a b e h; simp at h)⟩
  | ne => exact ⟨_, exec_ne, fun t => yields_binary (by simp [binaryOpcodes]) (by intro a b e h; simp at h)⟩
  | lt => exact ⟨_, exec_lt, fun t => yields_binary (by simp [binaryOpcodes]) (by intro a b e h; simp at h)⟩
  | gt => exact ⟨_, exec_gt, fun t => yields_binary (by simp [binaryOpcodes]) (by intro a b e h; simp at h)⟩
  | le => exact ⟨_, exec_le, fun t => yields_binary (by simp [binaryOpcodes]) (by intro a b e h; simp at h)⟩
  | ge => exact ⟨_, exec_ge, fun t => yields_binary (by simp [binaryOpcodes]) (by intro a b e h; simp at h)⟩
  | add => exact ⟨_, exec_add, fun t => yields_binary (by simp [binaryOpcodes]) (by intro a b e h; simp at h)⟩
  | sub => exact ⟨_, exec_sub, fun t => yields_binary (by simp [binaryOpcodes]) (by intro a b e h; simp at h)⟩
  | mul => exact ⟨_, exec_mul, fun t => yields_binary (by simp [binaryOpcodes]) (by intro a b e h; simp at h)⟩

end Sys2Proof.Machine
end

