-- ==== Sys2Proof/Laws/HostCalls.lean ====
section
/-! SUPPORT. What serving a host call keeps, and the operations it is served with: range checks, writing bytes,
allocating and releasing a range (spec/45_host_calls.md rules R206, R213, R214). -/

namespace Sys2Proof.Machine

theorem setByte_frame (s : State) (a : Word) (b : Byte) :
    s.setByte a b = { s with
      code := (s.setByte a b).code, data := (s.setByte a b).data
      stack := (s.setByte a b).stack, hmem := (s.setByte a b).hmem } := by
  unfold State.setByte
  cases route s.par a 1 with
  | seg X o => cases X <;> rfl
  | straddle => rfl
  | hostMem x => rfl

/-- Writing bytes changes memory only. -/
theorem setBytes_frame (s : State) (a : Word) (bs : List Byte) :
    s.setBytes a bs = { s with
      code := (s.setBytes a bs).code, data := (s.setBytes a bs).data
      stack := (s.setBytes a bs).stack, hmem := (s.setBytes a bs).hmem } := by
  induction bs generalizing s a with
  | nil => rfl
  | cons b bs ih =>
    rw [State.setBytes, ih (s.setByte a b) (a + 1), setByte_frame s a b]

theorem memOk_setByte {s : State} (h : MemOk s) {a : Word} (ha : (s.byteAt a).isSome = true) (b : Byte) :
    MemOk (s.setByte a b) := by
  unfold State.setByte
  unfold State.byteAt at ha
  cases hr : route s.par a 1 with
  | straddle => exact h
  | seg X o =>
    obtain ⟨h1, h2, h3⟩ := route_seg hr
    have : o < s.par.poolSize := by omega
    cases X
    · exact ⟨h.1, Memory.wf_write h.2 this b, h.3, h.4, h.5, h.6⟩
    · exact ⟨h.1, h.2, Memory.wf_write h.3 this b, h.4, h.5, h.6⟩
    · exact ⟨h.1, h.2, h.3, Memory.wf_write h.4 this b, h.5, h.6⟩
  | hostMem x =>
    rw [hr] at ha
    have he := isSome_insertKey (m := s.hmem) (x := x) ha b
    exact ⟨h.1, h.2, h.3, h.4, HostMemory.wf_congr h.5 (keysRising_insertKey (HostMemory.keys h.5) x b) he, h.6.congr he⟩

theorem isSome_byteAt_setByte {s : State} {a : Word} (ha : (s.byteAt a).isSome = true) (b : Byte) (x : Word) :
    ((s.setByte a b).byteAt x).isSome = (s.byteAt x).isSome := by
  rw [byteAt_setByte ha]; split
  · rename_i h; subst h; simp [ha]
  · rfl

/-- The successors of an address. -/
theorem add_succ_ofNat (a : Word) (i : Nat) : a + 1 + BitVec.ofNat 64 i = a + BitVec.ofNat 64 (i + 1) := by
  rw [BitVec.add_assoc]; congr 1
  refine BitVec.eq_of_toNat_eq ?_
  simp [BitVec.toNat_add]; omega

theorem rangeAccessible_succ {s : State} {a : Word} {n : Nat} :
    RangeAccessible s a (n + 1) ↔ (s.byteAt a).isSome = true ∧ RangeAccessible s (a + 1) n := by
  unfold RangeAccessible
  constructor
  · intro h
    refine ⟨by simpa using h 0 (by omega), fun i hi => ?_⟩
    rw [add_succ_ofNat]; exact h (i + 1) (by omega)
  · rintro ⟨h1, h2⟩ i hi
    cases i with
    | zero => simpa using h1
    | succ i => rw [← add_succ_ofNat]; exact h2 i (by omega)

/-- R206: the range check passes exactly when every byte of the range is accessible. -/
theorem firstInaccessible_none {s : State} {a : Word} {n : Nat} :
    s.firstInaccessible a n = none ↔ RangeAccessible s a n := by
  induction n generalizing a with
  | zero => simp [State.firstInaccessible, RangeAccessible]
  | succ n ih =>
    rw [rangeAccessible_succ, State.firstInaccessible, ← ih]
    split
    · rename_i h; simp [h]
    · rename_i h; simp [h]

/-- R206: and otherwise reports the first byte that is not. -/
theorem firstInaccessible_some {s : State} {a : Word} {n k : Nat} (h : RangeStopsAt s a n k) :
    s.firstInaccessible a n = some (a + BitVec.ofNat 64 k) := by
  induction n generalizing a k with
  | zero => exact absurd h.1 (by omega)
  | succ n ih =>
    obtain ⟨h1, h2, h3⟩ := h
    rw [State.firstInaccessible]
    cases k with
    | zero =>
      rw [if_neg (by simp at h3; simp [h3])]; simp
    | succ k =>
      have := rangeAccessible_succ.mp h2
      rw [if_pos this.1, ih ⟨by omega, this.2, by rw [add_succ_ofNat]; exact h3⟩, add_succ_ofNat]

theorem rangeAccessible_congr {s t : State} {a : Word} {n : Nat}
    (h : ∀ x, (t.byteAt x).isSome = (s.byteAt x).isSome) : RangeAccessible t a n ↔ RangeAccessible s a n := by
  unfold RangeAccessible; simp [h]

theorem memOk_setBytes {s : State} (h : MemOk s) {a : Word} {bs : List Byte}
    (ha : RangeAccessible s a bs.length) : MemOk (s.setBytes a bs) := by
  induction bs generalizing s a with
  | nil => exact h
  | cons b bs ih =>
    rw [List.length_cons, rangeAccessible_succ] at ha
    exact ih (memOk_setByte h ha.1 b) ((rangeAccessible_congr (isSome_byteAt_setByte ha.1 b)).mpr ha.2)

theorem add_ofNat_ne {a : Word} {i : Nat} (h1 : 0 < i) (h2 : i < 2 ^ 64) : a + BitVec.ofNat 64 i ≠ a := by
  intro h
  have := congrArg BitVec.toNat h
  simp [BitVec.toNat_add] at this
  omega

/-- Bytes written to an accessible range hold their values; every other byte is as before. -/
theorem byteAt_setBytes {s : State} {a : Word} {bs : List Byte} (ha : RangeAccessible s a bs.length)
    (hn : bs.length ≤ 2 ^ 64) :
    (∀ i < bs.length, (s.setBytes a bs).byteAt (a + BitVec.ofNat 64 i) = some (bs.getD i 0))
    ∧ ∀ x, (∀ i < bs.length, x ≠ a + BitVec.ofNat 64 i) → (s.setBytes a bs).byteAt x = s.byteAt x := by
  induction bs generalizing s a with
  | nil => exact ⟨fun i hi => by simp at hi, fun x _ => rfl⟩
  | cons b bs ih =>
    rw [List.length_cons] at hn
    rw [List.length_cons, rangeAccessible_succ] at ha
    obtain ⟨k1, k2⟩ := ih (s := s.setByte a b) ((rangeAccessible_congr (isSome_byteAt_setByte ha.1 b)).mpr ha.2) (by omega)
    rw [State.setBytes]
    refine ⟨fun i hi => ?_, fun x hx => ?_⟩
    · cases i with
      | zero =>
        rw [k2, byteAt_setByte ha.1]
        · simp
        · intro i hi
          rw [add_succ_ofNat]
          rw [show a + BitVec.ofNat 64 0 = a by simp]
          exact (add_ofNat_ne (by omega) (by simp at hn ⊢; omega)).symm
      | succ i =>
        rw [← add_succ_ofNat, k1 i (by simpa using hi)]; rfl
    · rw [k2, byteAt_setByte ha.1, if_neg]
      · have := hx 0 (by simp); simpa using this
      · intro i hi; rw [add_succ_ofNat]; exact hx (i + 1) (by simpa using hi)

/-! ### Host calls -/

/-- What serving a host call may change: ax, host memory and the list of live ranges; and the segments, where the call
is READ or MSET. -/
structure Served (i : Instr) (t u : State) : Prop where
  par : u.par = t.par
  pc : u.pc = t.pc
  bp : u.bp = t.bp
  sp : u.sp = t.sp
  opCounter : u.opCounter = t.opCounter
  dataCursor : u.dataCursor = t.dataCursor
  cycle : u.cycle = t.cycle
  exitValue : u.exitValue = t.exitValue
  faultCause : u.faultCause = t.faultCause
  faultPc : u.faultPc = t.faultPc
  faultInfo : u.faultInfo = t.faultInfo
  status : u.status = t.status
  mode : u.mode = t.mode
  traceOn : u.traceOn = t.traceOn
  trace : u.trace = t.trace
  requests : u.requests = t.requests
  replies : u.replies = t.replies
  draws : u.draws = t.draws
  seg : i ≠ .read → i ≠ .mset → ∀ X, u.seg X = t.seg X
  mem : MemOk t → MemOk u

theorem served_setAx {i : Instr} {t u : State} (h : Served i t u) (v : Word) : Served i t (u.setAx v) :=
  ⟨h.1, h.2, h.3, h.4, h.5, h.6, h.7, h.8, h.9, h.10, h.11, h.12, h.13, h.14, h.15, h.16, h.17, h.18,
    fun h1 h2 X => by rw [← h.19 h1 h2 X]; cases X <;> rfl,
    fun hm => memOk_of_eq (h.20 hm) rfl (fun X => by cases X <;> rfl) rfl rfl⟩

theorem served_self (i : Instr) (t : State) : Served i t t :=
  ⟨rfl, rfl, rfl, rfl, rfl, rfl, rfl, rfl, rfl, rfl, rfl, rfl, rfl, rfl, rfl, rfl, rfl, rfl, fun _ _ _ => rfl, id⟩

theorem served_setBytes {i : Instr} (hi : i = .read ∨ i = .mset) {t : State} {a : Word} {bs : List Byte}
    (ha : RangeAccessible t a bs.length) : Served i t (t.setBytes a bs) := by
  refine ⟨?_, ?_, ?_, ?_, ?_, ?_, ?_, ?_, ?_, ?_, ?_, ?_, ?_, ?_, ?_, ?_, ?_, ?_, ?_, ?_⟩
  case refine_19 => intro h1 h2; rcases hi with rfl | rfl <;> simp at *
  case refine_20 => exact fun h => memOk_setBytes h ha
  all_goals rw [setBytes_frame]

/-- R213: what a fresh range satisfies. -/
theorem freshRange_iff (s : State) (p size : Word) : s.freshRange p size = true ↔
    p ≠ 0 ∧ p.toNat + size.toNat ≤ 2 ^ 64
    ∧ (∀ X, size.toNat = 0 ∨ p.toNat + size.toNat ≤ base s.par X ∨ base s.par X + s.par.poolSize ≤ p.toNat)
    ∧ (∀ k, p.toNat ≤ k → k < p.toNat + size.toNat → lookup s.hmem k = none) ∧ lookup s.heap p.toNat = none := by
  have hX : (∀ X, size.toNat = 0 ∨ p.toNat + size.toNat ≤ base s.par X ∨ base s.par X + s.par.poolSize ≤ p.toNat)
      ↔ (outsideSegment s.par .code p.toNat size.toNat = true ∧ outsideSegment s.par .data p.toNat size.toNat = true
        ∧ outsideSegment s.par .stack p.toNat size.toNat = true) := by
    simp only [outsideSegment, Bool.or_eq_true, decide_eq_true_eq, or_assoc]
    exact ⟨fun h => ⟨h .code, h .data, h .stack⟩, fun ⟨h1, h2, h3⟩ X => by cases X <;> assumption⟩
  rw [hX, ← HostMemory.vacant_iff]
  unfold State.freshRange
  simp only [Bool.and_eq_true, decide_eq_true_eq, Option.isNone_iff_eq_none]
  tauto

/-- R213: allocating a fresh range keeps the form of memory and of the list of live ranges. -/
theorem memOk_allocateRange {s : State} (h : MemOk s) {p size : Word} (hf : s.freshRange p size = true)
    (bytes : List Byte) : MemOk (s.allocateRange p.toNat size.toNat bytes) := by
  obtain ⟨h0, h1, h2, h3, h4⟩ := (freshRange_iff s p size).mp hf
  have hp0 : 0 < p.toNat := by
    rcases Nat.eq_zero_or_pos p.toNat with h | h
    · exact absurd (BitVec.eq_of_toNat_eq (by simpa using h)) h0
    · exact h
  refine ⟨h.1, h.2, h.3, h.4, ?_, ?_⟩
  · have hw := (HostMemory.wf_iff _ _).mp h.5
    refine (HostMemory.wf_iff _ _).mpr ⟨HostMemory.keysRising_allocate hw.1 _ _ _, fun x hx => ?_⟩
    change (lookup (HostMemory.allocate s.hmem p.toNat size.toNat bytes) x).isSome = true at hx
    rw [HostMemory.lookup_allocate] at hx
    split at hx
    · refine ⟨by omega, by omega, fun X => ?_⟩
      have := h2 X
      rw [Bool.eq_false_iff]; intro hc
      change inSegment s.par X x 1 = true at hc
      rw [inSegment_iff] at hc; omega
    · exact hw.2 x hx
  · have hh := h.6
    refine ⟨keysRising_insertKey hh.1 _ _, fun b hb => ?_, fun b hb x hx => ?_, fun b hb c hc hne x hx => ?_⟩
    · rcases mem_insertKey hb with rfl | hb
      · exact ⟨hp0, h1⟩
      · exact hh.2 b hb
    · change (lookup (HostMemory.allocate s.hmem p.toNat size.toNat bytes) x).isSome = true
      rw [HostMemory.lookup_allocate]
      split
      · rfl
      · rename_i hout
        rcases mem_insertKey hb with rfl | hb
        · exact absurd hx hout
        · exact hh.3 b hb x hx
    · rcases mem_insertKey hb with rfl | hb <;> rcases mem_insertKey hc with rfl | hc
      · exact hne rfl
      · have := hh.3 c hc x hx.2
        rw [h3 x hx.1.1 hx.1.2] at this; simp at this
      · have := hh.3 b hb x hx.1
        rw [h3 x hx.2.1 hx.2.2] at this; simp at this
      · exact hh.4 b hb c hc hne x hx

theorem mem_eraseKey {β : Type} {m : List (Nat × β)} {k : Nat} {c : Nat × β} (h : c ∈ eraseKey m k) :
    c ∈ m ∧ c.1 ≠ k := by
  simpa [eraseKey] using h

/-- R214: releasing a live range keeps the form of memory and of the list of live ranges. -/
theorem memOk_releaseRange {s : State} (h : MemOk s) {a n : Nat} (hl : lookup s.heap a = some n) :
    MemOk (s.releaseRange a n) := by
  have hmem := mem_of_lookup hl
  refine ⟨h.1, h.2, h.3, h.4, ?_, ?_⟩
  · have hw := (HostMemory.wf_iff _ _).mp h.5
    refine (HostMemory.wf_iff _ _).mpr ⟨HostMemory.keysRising_release hw.1 _ _, fun x hx => hw.2 x ?_⟩
    change (lookup (HostMemory.release s.hmem a n) x).isSome = true at hx
    rw [HostMemory.lookup_release] at hx
    split at hx
    · simp at hx
    · exact hx
  · have hh := h.6
    refine ⟨keysRising_eraseKey hh.1 _, fun b hb => hh.2 b (mem_eraseKey hb).1, fun b hb x hx => ?_,
      fun b hb c hc hne x hx => hh.4 b (mem_eraseKey hb).1 c (mem_eraseKey hc).1 hne x hx⟩
    change (lookup (HostMemory.release s.hmem a n) x).isSome = true
    rw [HostMemory.lookup_release, if_neg]
    · exact hh.3 b (mem_eraseKey hb).1 x hx
    · intro hc
      exact hh.4 b (mem_eraseKey hb).1 (a, n) hmem (mem_eraseKey hb).2 x ⟨hx, hc⟩

theorem hostTrap_raises (a : Word) : (hostTrap a).cause ≠ .none ∧ (hostTrap a).cause ≠ .unknownOpcode := by
  simp [hostTrap]

theorem yields_checkRange {P : State → Prop} {t : State} {a : Word} {n : Nat} {k : Access State}
    (h : RangeAccessible t a n → Yields P k) : Yields P (t.checkRange a n k) := by
  unfold State.checkRange
  split
  · exact hostTrap_raises _
  · rename_i hc; exact h (firstInaccessible_none.mp hc)

theorem deliveredBytes_length (r : HostAnswer) (n : Nat) : (deliveredBytes r n).length = n := by
  simp [deliveredBytes]

theorem serveOpn_yields (i : Instr) (t : State) (path : Word) (r : HostAnswer) :
    Yields (Served i t) (serveOpn path r t) := by
  unfold serveOpn
  split
  · exact hostTrap_raises _
  · exact served_setAx (served_self i t) _

theorem serveRead_yields (t : State) (buf count : Word) (r : HostAnswer) :
    Yields (Served .read t) (serveRead buf count r t) := by
  unfold serveRead
  split
  · exact hostTrap_raises _
  · refine yields_checkRange fun h => ?_
    exact served_setAx (served_setBytes (.inl rfl) (by rw [deliveredBytes_length]; exact h)) _

theorem servePrtf_yields (i : Instr) (t : State) (fmt : Word) (vs : List Word) (r : HostAnswer) :
    Yields (Served i t) (servePrtf fmt vs r t) := by
  unfold servePrtf
  repeat' split
  all_goals first | exact hostTrap_raises _ | exact served_setAx (served_self i t) _

theorem serveMalc_yields (i : Instr) (t : State) (size : Word) (r : HostAnswer) :
    Yields (Served i t) (serveMalc size r t) := by
  unfold serveMalc
  split
  · rename_i hf
    refine served_setAx (v := r.value) (u := t.allocateRange r.value.toNat size.toNat r.bytes) ?_
    exact ⟨rfl, rfl, rfl, rfl, rfl, rfl, rfl, rfl, rfl, rfl, rfl, rfl, rfl, rfl, rfl, rfl, rfl, rfl,
      fun _ _ X => by cases X <;> rfl, fun h => memOk_allocateRange h hf _⟩
  · exact served_setAx (served_self i t) _

theorem serveFree_yields (i : Instr) (t : State) (ptr : Word) (r : HostAnswer) :
    Yields (Served i t) (serveFree ptr r t) := by
  unfold serveFree
  split
  · exact served_setAx (served_self i t) _
  · split
    · exact hostTrap_raises _
    · rename_i n hl
      refine served_setAx (v := r.value) (u := t.releaseRange ptr.toNat n) ?_
      exact ⟨rfl, rfl, rfl, rfl, rfl, rfl, rfl, rfl, rfl, rfl, rfl, rfl, rfl, rfl, rfl, rfl, rfl, rfl,
        fun _ _ X => by cases X <;> rfl, fun h => memOk_releaseRange h hl⟩

theorem serveMset_yields (t : State) (dst val len : Word) :
    Yields (Served .mset t) (serveMset dst val len t) := by
  unfold serveMset
  refine yields_checkRange fun h => ?_
  exact served_setAx (served_setBytes (.inr rfl) (by rw [List.length_replicate]; exact h)) _

theorem serveMcmp_yields (i : Instr) (t : State) (a b len : Word) (r : HostAnswer) :
    Yields (Served i t) (serveMcmp a b len r t) := by
  unfold serveMcmp
  split
  · exact served_setAx (served_self i t) _
  all_goals exact hostTrap_raises _

theorem arg_raises {t : State} {n : Nat} {e : Trap} (h : t.arg n = .error e) :
    e.cause ≠ .none ∧ e.cause ≠ .unknownOpcode := stackRead_raises h

/-- Each host-call opcode collects its arguments, then is served. -/
theorem hostCall_served (i : Instr) (hi : i ∈ hostCallOpcodes) :
    ∃ f, (∀ s, exec i s = runHostCall i f s)
      ∧ (∀ t e, f t = .error e → e.cause ≠ .none ∧ e.cause ≠ .unknownOpcode)
      ∧ ∀ t q, f t = .ok q → ∀ r u, Yields (Served i u) (serve q r u) := by
  have one : ∀ (g : Word → HostRequest) (t : State) e, (t.arg 0).map g = .error e →
      e.cause ≠ .none ∧ e.cause ≠ .unknownOpcode := by
    intro g t e h
    cases ha : t.arg 0 with
    | error e' => rw [ha] at h; simp only [Except.map, Except.error.injEq] at h; rw [← h]; exact arg_raises ha
    | ok v => rw [ha] at h; simp [Except.map] at h
  have one' : ∀ (g : Word → HostRequest) (t : State) q, (t.arg 0).map g = .ok q → ∃ v, q = g v := by
    intro g t q h
    cases ha : t.arg 0 with
    | error e' => rw [ha] at h; simp [Except.map] at h
    | ok v => rw [ha] at h; simp only [Except.map, Except.ok.injEq] at h; exact ⟨v, h.symm⟩
  have three : ∀ (g : Word → Word → Word → HostRequest) (t : State) e,
      (do let x ← t.arg 2; let y ← t.arg 1; let z ← t.arg 0; pure (g x y z) : Access HostRequest) = .error e →
      e.cause ≠ .none ∧ e.cause ≠ .unknownOpcode := by
    intro g t e h
    cases h2 : t.arg 2 with
    | error e' => rw [h2] at h; simp only [bind, Except.bind, Except.error.injEq] at h; rw [← h]; exact arg_raises h2
    | ok v =>
      cases h1 : t.arg 1 with
      | error e' => rw [h2, h1] at h; simp only [bind, Except.bind, Except.error.injEq] at h; rw [← h]; exact arg_raises h1
      | ok v' =>
        cases h0 : t.arg 0 with
        | error e' => rw [h2, h1, h0] at h; simp only [bind, Except.bind, Except.error.injEq] at h; rw [← h]; exact arg_raises h0
        | ok v'' => rw [h2, h1, h0] at h; simp [bind, Except.bind, pure, Except.pure] at h
  have three' : ∀ (g : Word → Word → Word → HostRequest) (t : State) q,
      (do let x ← t.arg 2; let y ← t.arg 1; let z ← t.arg 0; pure (g x y z) : Access HostRequest) = .ok q →
      ∃ x y z, q = g x y z := by
    intro g t q h
    cases h2 : t.arg 2 with
    | error e' => rw [h2] at h; simp [bind, Except.bind] at h
    | ok v =>
      cases h1 : t.arg 1 with
      | error e' => rw [h2, h1] at h; simp [bind, Except.bind] at h
      | ok v' =>
        cases h0 : t.arg 0 with
        | error e' => rw [h2, h1, h0] at h; simp [bind, Except.bind] at h
        | ok v'' =>
          rw [h2, h1, h0] at h; simp only [bind, Except.bind, pure, Except.pure, Except.ok.injEq] at h
          exact ⟨_, _, _, h.symm⟩
  simp only [hostCallOpcodes, List.mem_cons, List.not_mem_nil, or_false] at hi
  rcases hi with rfl | rfl | rfl | rfl | rfl | rfl | rfl | rfl
  · refine ⟨_, exec_opn, fun t e h => ?_, fun t q h r u => ?_⟩ <;> unfold requestOpn at h <;>
      cases h1 : t.arg 1 with
      | error e' =>
        rw [h1] at h
        first
        | (simp only [bind, Except.bind, Except.error.injEq] at h; rw [← h]; exact arg_raises h1)
        | simp [bind, Except.bind] at h
      | ok v =>
        cases h0 : t.arg 0 with
        | error e' =>
          rw [h1, h0] at h
          first
          | (simp only [bind, Except.bind, Except.error.injEq] at h; rw [← h]; exact arg_raises h0)
          | simp [bind, Except.bind] at h
        | ok v' =>
          rw [h1, h0] at h
          simp only [bind, Except.bind, pure, Except.pure, reduceCtorEq, Except.ok.injEq] at h
          try (subst h; exact serveOpn_yields _ _ _ _)
  · refine ⟨_, exec_read, three .read, fun t q h r u => ?_⟩
    obtain ⟨x, y, z, rfl⟩ := three' .read t q h; exact serveRead_yields _ _ _ _
  · refine ⟨_, exec_clos, one .clos, fun t q h r u => ?_⟩
    obtain ⟨x, rfl⟩ := one' .clos t q h; exact served_setAx (served_self _ _) _
  · refine ⟨_, exec_prtf, fun t e h => ?_, fun t q h r u => ?_⟩
    · unfold requestPrtf at h
      cases hk : t.prtfCount with
      | error e' => rw [hk] at h; simp only [bind, Except.bind, Except.error.injEq] at h; rw [← h]; exact fetch_raises hk
      | ok k =>
        rw [hk] at h
        simp only [bind, Except.bind] at h
        have hs : ∀ j e, t.prtfSlot k j = .error e → e.cause ≠ .none ∧ e.cause ≠ .unknownOpcode :=
          fun j e he => stackRead_raises he
        repeat' split at h
        all_goals first
          | (rename_i he; simp only [Except.error.injEq] at h; subst h; exact hs _ _ he)
          | simp [pure, Except.pure] at h
    · unfold requestPrtf at h
      simp only [bind, Except.bind] at h
      repeat' split at h
      all_goals first
        | (simp at h; done)
        | (simp only [pure, Except.pure, Except.ok.injEq] at h; subst h; exact servePrtf_yields _ _ _ _ _)
  · refine ⟨_, exec_malc, one .malc, fun t q h r u => ?_⟩
    obtain ⟨x, rfl⟩ := one' .malc t q h; exact serveMalc_yields _ _ _ _
  · refine ⟨_, exec_free, one .free, fun t q h r u => ?_⟩
    obtain ⟨x, rfl⟩ := one' .free t q h; exact serveFree_yields _ _ _ _
  · refine ⟨_, exec_mset, three .mset, fun t q h r u => ?_⟩
    obtain ⟨x, y, z, rfl⟩ := three' .mset t q h; exact serveMset_yields _ _ _ _
  · refine ⟨_, exec_mcmp, three .mcmp, fun t q h r u => ?_⟩
    obtain ⟨x, y, z, rfl⟩ := three' .mcmp t q h; exact serveMcmp_yields _ _ _ _ _ _

/-! ### Results of host calls -/

/-- The state a host call is served in. -/
theorem byteAt_asked (s : State) (i : Instr) (q : HostRequest) (x : Word) :
    ((s.begun i).sent q).byteAt x = s.byteAt x := by simp

theorem arg_zero (s : State) (i : Instr) : (s.begun i).arg 0 = s.stackRead s.sp := by
  unfold State.arg; simp
theorem arg_one (s : State) (i : Instr) : (s.begun i).arg 1 = s.stackRead (s.sp + 8) := by
  unfold State.arg; simp
theorem arg_two (s : State) (i : Instr) : (s.begun i).arg 2 = s.stackRead (s.sp + 16) := by
  unfold State.arg; simp

/-- A host call whose arguments are read, whose host answers and whose service succeeds. -/
theorem runHostCall_ok {i : Instr} {f : State → Access HostRequest} {s t : State} {q : HostRequest} {r : HostAnswer}
    (hf : f (s.begun i) = .ok q) (hr : s.nextAnswer = some r) (hs : serve q r ((s.begun i).sent q) = .ok t) :
    runHostCall i f s = .next t := by
  rcases runHostCall_cases i f s with ⟨e, h1, -⟩ | ⟨q', h1, h2, -⟩ | ⟨q', r', h1, h2, h3⟩
  · rw [hf] at h1; simp at h1
  · rw [hr] at h2; simp at h2
  · rw [hf] at h1; rw [hr] at h2
    simp only [Except.ok.injEq, Option.some.injEq] at h1 h2; subst h1 h2
    rw [h3, hs]; rfl

/-- A host call whose service raises a trap. -/
theorem runHostCall_error {i : Instr} {f : State → Access HostRequest} {s : State} {q : HostRequest} {r : HostAnswer}
    {e : Trap} (hf : f (s.begun i) = .ok q) (hr : s.nextAnswer = some r)
    (hs : serve q r ((s.begun i).sent q) = .error e) : FaultsWith (runHostCall i f s) e.cause e.info s := by
  rcases runHostCall_cases i f s with ⟨e, h1, -⟩ | ⟨q', h1, h2, -⟩ | ⟨q', r', h1, h2, h3⟩
  · rw [hf] at h1; simp at h1
  · rw [hr] at h2; simp at h2
  · rw [hf] at h1; rw [hr] at h2
    simp only [Except.ok.injEq, Option.some.injEq] at h1 h2; subst h1 h2
    exact ⟨_, by rw [h3, hs]; rfl, preciseFault_takeFault s _ e⟩

/-- A host call one of whose arguments cannot be read: nothing is asked of the host. -/
theorem runHostCall_argument {i : Instr} {f : State → Access HostRequest} {s : State} {e : Trap}
    (hf : f (s.begun i) = .error e) : FaultsUnasked (runHostCall i f s) e.cause e.info s := by
  rcases runHostCall_cases i f s with ⟨e', h1, h2⟩ | ⟨q', h1, h2, -⟩ | ⟨q', r', h1, h2, h3⟩
  · rw [hf] at h1; simp only [Except.error.injEq] at h1; subst h1
    exact ⟨_, h2, preciseFault_takeFault s _ e, by constructor <;> simp⟩
  · rw [hf] at h1; simp at h1
  · rw [hf] at h1; simp at h1

/-- The control state after a served call. -/
theorem retired_of_served {i : Instr} (hw : i.width = 1) {s t : State} {q : HostRequest} (h : Served i ((s.begun i).sent q) t) :
    Retired i s t ∧ PointersKept s t ∧ PortUsed q s t := by
  refine ⟨⟨by rw [h.status]; simp, by rw [h.cycle]; simp, by rw [h.trace]; simp, by rw [h.traceOn]; simp, by rw [h.mode]; simp,
    by rw [h.par]; simp, by rw [h.opCounter]; simp, by rw [h.dataCursor]; simp, by rw [h.exitValue]; simp,
    by rw [h.faultCause]; simp, by rw [h.faultPc]; simp, by rw [h.faultInfo]; simp⟩,
    ⟨by rw [h.pc, State.sent_pc]; exact pc_one hw s, by rw [h.bp]; simp, by rw [h.sp]; simp⟩,
    ⟨by rw [h.requests]; simp, by rw [h.replies]; simp, by rw [h.draws]; simp⟩⟩

theorem served_next {i : Instr} {f : State → Access HostRequest} (hx : ∀ s, exec i s = runHostCall i f s)
    (hw : i.width = 1) {s t : State} {q : HostRequest} {r : HostAnswer} (hf : f (s.begun i) = .ok q)
    (hr : s.nextAnswer = some r) (hs : serve q r ((s.begun i).sent q) = .ok t)
    (hy : Yields (Served i ((s.begun i).sent q)) (serve q r ((s.begun i).sent q))) :
    exec i s = .next t ∧ Retired i s t ∧ PointersKept s t ∧ PortUsed q s t := by
  rw [hs] at hy
  exact ⟨by rw [hx]; exact runHostCall_ok hf hr hs, retired_of_served hw hy⟩

theorem cString_congr {s t : State} (h : ∀ x, t.byteAt x = s.byteAt x) (a : Word) : t.cString a = s.cString a := by
  have : ∀ n a, t.scanString a n = s.scanString a n := by
    intro n
    induction n with
    | zero => intro a; rfl
    | succ n ih => intro a; simp only [State.scanString, h, ih]
  exact this _ _

theorem stringFaults_congr {s t : State} (h : ∀ x, t.byteAt x = s.byteAt x) (vs : List Word) :
    t.stringFaults vs = s.stringFaults vs := by
  unfold State.stringFaults
  congr 1; funext v; rw [cString_congr h]

/-- R212: what the host answers to PRTF depends on the bytes alone. -/
theorem servePrtf_congr {s t : State} (h : ∀ x, t.byteAt x = s.byteAt x) (fmt : Word) (vs : List Word) (r : HostAnswer) :
    servePrtf fmt vs r t = (servePrtf fmt vs r s).map fun _ => t.setAx r.value := by
  unfold servePrtf
  simp only [cString_congr h, stringFaults_congr h]
  cases s.cString fmt with
  | error e => rfl
  | ok f =>
    simp only
    repeat' split
    all_goals rfl

/-- A failure is among those of `%s` strings exactly when a `%s` names a string with that failure. -/
theorem mem_stringFaults {s : State} {f : List Byte} {vs : List Word} {a : Word} :
    a ∈ s.stringFaults (stringArguments (conversions f) vs) ↔
      ∃ j x, NamesString f vs j x ∧ s.cString x = .error a := by
  unfold State.stringFaults stringArguments NamesString
  simp only [List.mem_filterMap]
  constructor
  · rintro ⟨x, ⟨c, hc, hx⟩, ha⟩
    obtain ⟨j, hj⟩ := List.getElem?_of_mem hc
    rw [List.getElem?_zip_eq_some] at hj
    split at hx <;> simp only [Option.some.injEq, reduceCtorEq] at hx
    rename_i hs
    subst hx
    refine ⟨j, c.2, ⟨by rw [hj.1, hs], hj.2⟩, ?_⟩
    cases hcs : s.cString c.2 <;> simp_all
  · rintro ⟨j, x, ⟨hj, hv⟩, ha⟩
    exact ⟨x, ⟨(.string, x), List.mem_of_getElem? (List.getElem?_zip_eq_some.mpr ⟨hj, hv⟩), by simp⟩, by simp [ha]⟩

theorem firstInaccessible_congr {s t : State} (h : ∀ x, t.byteAt x = s.byteAt x) (a : Word) (n : Nat) :
    t.firstInaccessible a n = s.firstInaccessible a n := by
  induction n generalizing a with
  | zero => rfl
  | succ n ih => simp only [State.firstInaccessible, h, ih]

theorem firstDifference_congr {s t : State} (h : ∀ x, t.byteAt x = s.byteAt x) (a b : Word) (n : Nat) :
    t.firstDifference a b n = s.firstDifference a b n := by
  induction n generalizing a b with
  | zero => rfl
  | succ n ih => simp only [State.firstDifference, h, ih]

/-- R206: reading the string that stands at an address gives it. -/
theorem cString_of_stringIs {s : State} {a : Word} {f : List Byte} (h : StringIs s a f) : s.cString a = .ok f := by
  have key : ∀ (f : List Byte) (a : Word) (fuel : Nat), f.length < fuel →
      (∀ i b, f[i]? = some b → b ≠ 0 ∧ s.byteAt (a + BitVec.ofNat 64 i) = some b) →
      s.byteAt (a + BitVec.ofNat 64 f.length) = some 0 → s.scanString a fuel = .ok f := by
    intro f
    induction f with
    | nil =>
      intro a fuel hf _ h0
      obtain ⟨k, rfl⟩ : ∃ k, fuel = k + 1 := ⟨fuel - 1, by simp at hf; omega⟩
      rw [show a + BitVec.ofNat 64 ([] : List Byte).length = a by simp] at h0
      simp [State.scanString, h0]
    | cons b f ih =>
      intro a fuel hf h1 h0
      simp only [List.length_cons] at hf h0
      obtain ⟨k, rfl⟩ : ∃ k, fuel = k + 1 := ⟨fuel - 1, by omega⟩
      obtain ⟨hne, hb⟩ := h1 0 b rfl
      rw [show a + BitVec.ofNat 64 0 = a by simp] at hb
      simp only [State.scanString, hb]
      rw [if_neg hne, ih (a + 1) k (by omega) (fun i c hc => by rw [add_succ_ofNat]; exact h1 (i + 1) c (by simpa using hc))
        (by rw [add_succ_ofNat]; exact h0)]
      rfl
  exact key f a _ (by have := h.1; omega) h.2.1 h.2.2

/-- R206: a string is read to its 0 byte. -/
theorem cString_of_stringAt {s : State} {a : Word} {n : Nat} (h : StringAt s a n) : ∃ bs, s.cString a = .ok bs := by
  have key : ∀ (n : Nat) (a : Word) (fuel : Nat), n < fuel →
      (∀ i < n, ∃ b, s.byteAt (a + BitVec.ofNat 64 i) = some b ∧ b ≠ 0) → s.byteAt (a + BitVec.ofNat 64 n) = some 0 →
      ∃ bs, s.scanString a fuel = .ok bs := by
    intro n
    induction n with
    | zero =>
      intro a fuel hf _ h0
      obtain ⟨k, rfl⟩ : ∃ k, fuel = k + 1 := ⟨fuel - 1, by omega⟩
      rw [show a + BitVec.ofNat 64 0 = a by simp] at h0
      exact ⟨[], by simp [State.scanString, h0]⟩
    | succ n ih =>
      intro a fuel hf h1 h0
      obtain ⟨k, rfl⟩ : ∃ k, fuel = k + 1 := ⟨fuel - 1, by omega⟩
      obtain ⟨bs, hbs⟩ := ih (a + 1) k (by omega)
        (fun i hi => by rw [add_succ_ofNat]; exact h1 (i + 1) (by omega)) (by rw [add_succ_ofNat]; exact h0)
      obtain ⟨b, hb, hne⟩ := h1 0 (by omega)
      rw [show a + BitVec.ofNat 64 0 = a by simp] at hb
      exact ⟨b :: bs, by simp only [State.scanString, hb]; rw [if_neg hne, hbs]; rfl⟩
  exact key n a _ (by have := h.1; omega) h.2.1 h.2.2

/-- R206: and otherwise reading it reports the first inaccessible address. -/
theorem cString_of_stops {s : State} {a : Word} {n : Nat} (h : StringStopsAt s a n) :
    s.cString a = .error (a + BitVec.ofNat 64 n) := by
  have key : ∀ (n : Nat) (a : Word) (fuel : Nat), n ≤ fuel →
      (∀ i < n, ∃ b, s.byteAt (a + BitVec.ofNat 64 i) = some b ∧ b ≠ 0) → s.byteAt (a + BitVec.ofNat 64 n) = none →
      s.scanString a fuel = .error (a + BitVec.ofNat 64 n) := by
    intro n
    induction n with
    | zero =>
      intro a fuel _ _ h0
      rw [show a + BitVec.ofNat 64 0 = a by simp] at h0 ⊢
      cases fuel with
      | zero => rfl
      | succ k => simp [State.scanString, h0]
    | succ n ih =>
      intro a fuel hf h1 h0
      obtain ⟨k, rfl⟩ : ∃ k, fuel = k + 1 := ⟨fuel - 1, by omega⟩
      have := ih (a + 1) k (by omega)
        (fun i hi => by rw [add_succ_ofNat]; exact h1 (i + 1) (by omega)) (by rw [add_succ_ofNat]; exact h0)
      obtain ⟨b, hb, hne⟩ := h1 0 (by omega)
      rw [show a + BitVec.ofNat 64 0 = a by simp] at hb
      simp only [State.scanString, hb]; rw [if_neg hne, this, add_succ_ofNat]; rfl
  exact key n a _ (by have := h.1; omega) h.2.1 h.2.2

theorem rangeStopsAt_congr {s t : State} (h : ∀ x, t.byteAt x = s.byteAt x) (a : Word) (n k : Nat) :
    RangeStopsAt t a n k ↔ RangeStopsAt s a n k := by
  unfold RangeStopsAt; rw [rangeAccessible_congr (s := s) (t := t) (fun x => by rw [h]), h]

theorem three_args {s : State} {i : Instr} {x y z : Word} (h2 : s.stackRead (s.sp + 16) = .ok x)
    (h1 : s.stackRead (s.sp + 8) = .ok y) (h0 : s.stackRead s.sp = .ok z) (g : Word → Word → Word → HostRequest) :
    (do let x ← (s.begun i).arg 2; let y ← (s.begun i).arg 1; let z ← (s.begun i).arg 0; pure (g x y z) : Access HostRequest)
      = .ok (g x y z) := by
  rw [arg_two, arg_one, arg_zero, h2, h1, h0]; rfl

/-- R216: where two ranges first differ. -/
theorem firstDifference_spec (s : State) (a b : Word) (n : Nat) (ha : RangeAccessible s a n) (hb : RangeAccessible s b n) :
    ((∀ i < n, s.byteAt (a + BitVec.ofNat 64 i) = s.byteAt (b + BitVec.ofNat 64 i)) → s.firstDifference a b n = none)
    ∧ (∀ k < n, ∀ x y : Byte, (∀ i < k, s.byteAt (a + BitVec.ofNat 64 i) = s.byteAt (b + BitVec.ofNat 64 i)) →
      s.byteAt (a + BitVec.ofNat 64 k) = some x → s.byteAt (b + BitVec.ofNat 64 k) = some y → x ≠ y →
      s.firstDifference a b n = some (decide (x.toNat < y.toNat))) := by
  induction n generalizing a b with
  | zero => exact ⟨fun _ => rfl, fun k hk => absurd hk (by omega)⟩
  | succ n ih =>
    obtain ⟨a1, a2⟩ := rangeAccessible_succ.mp ha
    obtain ⟨b1, b2⟩ := rangeAccessible_succ.mp hb
    obtain ⟨i1, i2⟩ := ih (a + 1) (b + 1) a2 b2
    refine ⟨fun h => ?_, fun k hk x y h hx hy hne => ?_⟩
    · have h0 := h 0 (by omega)
      simp only [show ∀ c : Word, c + BitVec.ofNat 64 0 = c by intro c; simp] at h0
      rw [State.firstDifference]
      simp only [h0, if_true]
      exact i1 fun i hi => by rw [add_succ_ofNat, add_succ_ofNat]; exact h (i + 1) (by omega)
    · rw [State.firstDifference]
      cases k with
      | zero =>
        simp only [show ∀ c : Word, c + BitVec.ofNat 64 0 = c by intro c; simp] at hx hy
        simp only [hx, hy, Option.getD_some]
        rw [if_neg hne]
      | succ k =>
        have h0 := h 0 (by omega)
        simp only [show ∀ c : Word, c + BitVec.ofNat 64 0 = c by intro c; simp] at h0
        simp only [h0, if_true]
        refine i2 k (by omega) x y (fun i hi => ?_) (by rw [add_succ_ofNat]; exact hx) (by rw [add_succ_ofNat]; exact hy) hne
        rw [add_succ_ofNat, add_succ_ofNat]; exact h (i + 1) (by omega)

/-- The byte at an address of host memory. -/
theorem byteAt_clear {s : State} (x : Word) (h : ∀ X, ¬ (base s.par X ≤ x.toNat ∧ x.toNat < base s.par X + s.par.poolSize)) :
    s.byteAt x = lookup s.hmem x.toNat := by
  unfold State.byteAt
  rw [route_of_clear (by omega) (fun X hX => h X (by omega)) (by have := x.isLt; omega)]

/-- R9, R58: address 0 is never accessible. -/
theorem byteAt_zero {s : State} (hi : Inv s) : s.byteAt 0 = none := by
  obtain ⟨-, -, hb, -⟩ := (Params.wf_iff _).mp hi.params
  rw [byteAt_clear 0 (fun X => by have := hb X; simp; omega)]
  cases hl : lookup s.hmem (0 : Word).toNat with
  | none => rfl
  | some b =>
    have := ((HostMemory.wf_iff _ _).mp hi.hostMemory).2 0 (by simpa using congrArg Option.isSome hl)
    omega

/-- R206: a string that cannot be read stops at an inaccessible byte, and that is reported. -/
theorem stops_of_cString {s : State} {a e : Word} (hi : Inv s) (h : s.cString a = .error e) :
    ∃ n, StringStopsAt s a n ∧ e = a + BitVec.ofNat 64 n := by
  have key : ∀ (fuel : Nat) (a : Word), a.toNat + fuel = 2 ^ 64 ∨ fuel = 0 ∧ a = 0 → s.scanString a fuel = .error e →
      ∃ n ≤ fuel, (∀ i < n, ∃ b, s.byteAt (a + BitVec.ofNat 64 i) = some b ∧ b ≠ 0)
        ∧ s.byteAt (a + BitVec.ofNat 64 n) = none ∧ e = a + BitVec.ofNat 64 n := by
    intro fuel
    induction fuel with
    | zero =>
      intro a ha h
      simp only [State.scanString, Except.error.injEq] at h
      rcases ha with ha | ⟨-, rfl⟩
      · have := a.isLt; omega
      · exact ⟨0, Nat.le_refl 0, fun i hi => by omega, by simpa using byteAt_zero hi, by simp [h]⟩
    | succ k ih =>
      intro a ha h
      simp only [State.scanString] at h
      cases hb : s.byteAt a with
      | none =>
        rw [hb] at h; simp only [Except.error.injEq] at h
        exact ⟨0, by omega, fun i hi => by omega, by simpa using hb, by simp [h]⟩
      | some b =>
        rw [hb] at h; simp only at h
        split at h
        · simp at h
        · rename_i hne
          have h' : s.scanString (a + 1) k = .error e := by
            cases hr : s.scanString (a + 1) k with
            | error x => rw [hr] at h; simpa [Except.map] using h
            | ok bs => rw [hr] at h; simp [Except.map] at h
          obtain ⟨n, h1, h2, h3, h4⟩ := ih (a + 1) (by bv_omega) h'
          refine ⟨n + 1, by omega, fun i hi => ?_, by rw [← add_succ_ofNat]; exact h3, by rw [← add_succ_ofNat]; exact h4⟩
          cases i with
          | zero => exact ⟨b, by simpa using hb, hne⟩
          | succ i => rw [← add_succ_ofNat]; exact h2 i (by omega)
  obtain ⟨n, h1, h2, h3, h4⟩ := key _ a (.inl (by have := a.isLt; omega)) h
  exact ⟨n, ⟨by have := a.isLt; omega, h2, h3⟩, h4⟩

end Sys2Proof.Machine
end

