-- ==== Sys2Proof/Laws/Mode.lean ====
section
/-! SUPPORT. No operation but the incremental guard reads the run mode (spec/40_dispatch.md rules R111, R117). -/

namespace Sys2Proof.Machine

/-- The same Machine, served under another run mode. -/
def withMode (m : RunMode) (s : State) : State := { s with mode := m }

theorem withMode_byteAt (m : RunMode) (s : State) (x : Word) : (withMode m s).byteAt x = s.byteAt x :=
  byteAt_congr rfl (fun X => by cases X <;> rfl) rfl x
theorem withMode_emit (m : RunMode) (s : State) (e : TraceEvent) : (withMode m s).emit e = withMode m (s.emit e) := by
  unfold State.emit
  by_cases h : s.traceOn = true
  · rw [if_pos h, if_pos (show (withMode m s).traceOn = true from h)]; rfl
  · rw [if_neg h, if_neg (show ¬ (withMode m s).traceOn = true from h)]
theorem withMode_begun (m : RunMode) (s : State) (i : Instr) : (withMode m s).begun i = withMode m (s.begun i) := by
  unfold State.begun; rw [← withMode_emit]; rfl
theorem withMode_stackRead (m : RunMode) (s : State) (a : Word) : (withMode m s).stackRead a = s.stackRead a := rfl
theorem withMode_fetch (m : RunMode) (s : State) (a : Word) : (withMode m s).fetch a = s.fetch a := rfl
theorem withMode_fetchInstr (m : RunMode) (s : State) : (withMode m s).fetchInstr = s.fetchInstr := rfl
theorem withMode_push (m : RunMode) (s : State) (v : Word) : (withMode m s).push v = (s.push v).map (withMode m) := by
  unfold State.push State.stackWrite
  rw [stackCell_congr (t := withMode m s) (s := s) rfl]
  show Except.map _ (Except.map _ (s.stackCell (s.sp - 8))) = _
  cases s.stackCell (s.sp - 8) <;> rfl
theorem withMode_pop (m : RunMode) (s : State) : (withMode m s).pop = s.pop.map fun (v, t) => (v, withMode m t) := by
  unfold State.pop
  rw [withMode_stackRead]; show Except.map _ (s.stackRead s.sp) = _
  cases s.stackRead s.sp <;> rfl
theorem withMode_memRead (m : RunMode) (s : State) (a : Word) (n : Nat) : (withMode m s).memRead a n = s.memRead a n :=
  memRead_congr rfl (fun X => by cases X <;> rfl) rfl a n
theorem withMode_writeRoute (m : RunMode) (s : State) (r : Route) (n : Nat) (v : Word) :
    (withMode m s).writeRoute r n v = withMode m (s.writeRoute r n v) := by
  cases r with
  | seg X o => cases X <;> rfl
  | straddle => rfl
  | hostMem x => rfl
theorem withMode_memWrite (m : RunMode) (s : State) (a : Word) (n : Nat) (v : Word) :
    (withMode m s).memWrite a n v = (s.memWrite a n v).map (withMode m) := by
  unfold State.memWrite
  rw [dataRoute_congr (t := withMode m s) (s := s) rfl rfl]
  cases s.dataRoute a n with
  | error e => rfl
  | ok r => simp only [Except.map]; rw [withMode_writeRoute]
theorem withMode_setByte (m : RunMode) (s : State) (a : Word) (b : Byte) : (withMode m s).setByte a b = withMode m (s.setByte a b) := by
  unfold State.setByte
  rw [show (withMode m s).par = s.par from rfl]
  cases route s.par a 1 with
  | seg X o => cases X <;> rfl
  | straddle => rfl
  | hostMem x => rfl
theorem withMode_setBytes (m : RunMode) (s : State) (a : Word) (bs : List Byte) : (withMode m s).setBytes a bs = withMode m (s.setBytes a bs) := by
  induction bs generalizing s a with
  | nil => rfl
  | cons b bs ih => rw [State.setBytes, State.setBytes, withMode_setByte, ih]

theorem withMode_takeFault (m : RunMode) (s u : State) (e : Trap) : (withMode m s).takeFault (withMode m u) e = withMode m (s.takeFault u e) := rfl

/-- The same outcome, under another run mode. -/
def withModeOut (m : RunMode) : Host.Outcome State Fault Refusal → Host.Outcome State Fault Refusal
  | .next t => .next (withMode m t)
  | .fault f => .fault f
  | .refused r => .refused r

theorem withMode_settle (m : RunMode) (s u : State) (x : Access State) :
    (withMode m s).settle (withMode m u) (x.map (withMode m)) = withMode m (s.settle u x) := by
  cases x <;> rfl

theorem withMode_runInstr (m : RunMode) (i : Instr) (f : State → Access State) (h : ∀ t, f (withMode m t) = (f t).map (withMode m)) (s : State) :
    runInstr i f (withMode m s) = withModeOut m (runInstr i f s) := by
  unfold runInstr
  rw [withMode_begun, h, withMode_settle]; rfl

theorem withMode_binary (m : RunMode) (t : State) (f : Word → Word → Access Word) : (withMode m t).binary f = (t.binary f).map (withMode m) := by
  unfold State.binary
  rw [withMode_pop]
  cases t.pop with
  | error e => rfl
  | ok p =>
    obtain ⟨a, u⟩ := p
    simp only [Except.map, bind, Except.bind]
    rw [show (withMode m u).ax = u.ax from rfl]
    cases f a u.ax <;> rfl

theorem withMode_shift (m : RunMode) (t : State) (f : Word → Word → Word) : (withMode m t).shift f = (t.shift f).map (withMode m) := by
  unfold State.shift
  rw [withMode_pop]
  cases t.pop with
  | error e => rfl
  | ok p =>
    obtain ⟨a, u⟩ := p
    simp only [Except.map]
    show Except.ok (if shiftInRange u.ax then _ else _) = _
    split <;> rfl

theorem withMode_serve (m : RunMode) (q : HostRequest) (r : HostAnswer) (s : State) : serve q r (withMode m s) = (serve q r s).map (withMode m) := by
  have hb := withMode_byteAt m s
  cases q with
  | opn p f =>
    show serveOpn _ _ _ = (serveOpn _ _ _).map _
    unfold serveOpn; rw [cString_congr hb]
    cases s.cString p <;> rfl
  | read fd buf count =>
    show serveRead _ _ _ _ = (serveRead _ _ _ _).map _
    unfold serveRead State.checkRange; simp only [firstInaccessible_congr hb, withMode_setBytes]
    cases r.fails.isSome with
    | true => rfl
    | false => simp only [Bool.false_eq_true, if_false]; cases s.firstInaccessible buf (readResult count r.value).toInt.toNat <;> rfl
  | clos fd => rfl
  | prtf fmt v1 v2 v3 v4 v5 =>
    show servePrtf _ _ _ _ = (servePrtf _ _ _ _).map _
    unfold servePrtf
    simp only [cString_congr hb, stringFaults_congr hb]
    cases s.cString fmt with
    | error e => rfl
    | ok f =>
      simp only
      repeat' split
      all_goals rfl
  | malc size =>
    show serveMalc _ _ _ = (serveMalc _ _ _).map _
    unfold serveMalc
    show (if s.freshRange r.value size = true then _ else _) = _
    split <;> rfl
  | free ptr =>
    show serveFree _ _ _ = (serveFree _ _ _).map _
    unfold serveFree
    split
    · rfl
    · rw [show (withMode m s).heap = s.heap from rfl]
      cases lookup s.heap ptr.toNat <;> rfl
  | mset d v l =>
    show serveMset _ _ _ _ = (serveMset _ _ _ _).map _
    unfold serveMset State.checkRange; rw [firstInaccessible_congr hb, withMode_setBytes]
    cases s.firstInaccessible d l.toNat <;> rfl
  | mcmp a b l =>
    show serveMcmp _ _ _ _ _ = (serveMcmp _ _ _ _ _).map _
    unfold serveMcmp; rw [firstInaccessible_congr hb, firstInaccessible_congr hb, firstDifference_congr hb]
    cases s.firstInaccessible a l.toNat <;> cases s.firstInaccessible b l.toNat <;> rfl

theorem withMode_runHostCall (m : RunMode) (i : Instr) (f : State → Access HostRequest) (h : ∀ t, f (withMode m t) = f t) (s : State) :
    runHostCall i f (withMode m s) = withModeOut m (runHostCall i f s) := by
  unfold runHostCall
  simp only [withMode_begun, h]
  cases f (s.begun i) with
  | error e => rfl
  | ok q =>
    simp only [show (withMode m (s.begun i)).nextAnswer = (s.begun i).nextAnswer from rfl]
    cases (s.begun i).nextAnswer with
    | none => rfl
    | some r =>
      simp only
      rw [show (withMode m (s.begun i)).sent q = withMode m ((s.begun i).sent q) from rfl, withMode_serve, withMode_settle]; rfl

theorem withMode_exec (m : RunMode) (i : Instr) (s : State) : exec i (withMode m s) = withModeOut m (exec i s) := by
  cases i with
  | lea w => rw [exec_lea, exec_lea]; exact withMode_runInstr m _ _ (fun t => rfl) s
  | imm w => rw [exec_imm, exec_imm]; exact withMode_runInstr m _ _ (fun t => rfl) s
  | jmp w => rw [exec_jmp, exec_jmp]; exact withMode_runInstr m _ _ (fun t => rfl) s
  | adj w => rw [exec_adj, exec_adj]; exact withMode_runInstr m _ _ (fun t => rfl) s
  | jz w =>
    rw [exec_jz, exec_jz]
    refine withMode_runInstr m _ _ (fun t => ?_) s
    show Except.ok (if t.axZero then _ else _) = _
    simp only [Except.map]; split <;> rfl
  | jnz w =>
    rw [exec_jnz, exec_jnz]
    refine withMode_runInstr m _ _ (fun t => ?_) s
    show Except.ok (if t.axZero then _ else _) = _
    simp only [Except.map]; split <;> rfl
  | call w =>
    rw [exec_call, exec_call]
    refine withMode_runInstr m _ _ (fun t => ?_) s
    rw [withMode_push]; show ((t.push t.pc).map _).map _ = _
    cases t.push t.pc <;> rfl
  | ent w =>
    rw [exec_ent, exec_ent]
    refine withMode_runInstr m _ _ (fun t => ?_) s
    rw [withMode_push]; show ((t.push t.bp).map _).map _ = _
    cases t.push t.bp <;> rfl
  | push => rw [exec_push, exec_push]; exact withMode_runInstr m _ _ (fun t => withMode_push m t _) s
  | lev =>
    rw [exec_lev, exec_lev]
    refine withMode_runInstr m _ _ (fun t => ?_) s
    unfold leaveFrame
    rw [show (withMode m t).setSp (withMode m t).bp = withMode m (t.setSp t.bp) from rfl, withMode_pop]
    cases (t.setSp t.bp).pop with
    | error e => rfl
    | ok p =>
      obtain ⟨a, u⟩ := p
      simp only [Except.map, bind, Except.bind]
      rw [show (withMode m u).setBp a = withMode m (u.setBp a) from rfl, withMode_pop]
      cases (u.setBp a).pop <;> rfl
  | li =>
    rw [exec_li, exec_li]
    refine withMode_runInstr m _ _ (fun t => ?_) s
    rw [withMode_memRead]; show (t.memRead t.ax 8).map _ = _
    cases t.memRead t.ax 8 <;> rfl
  | lc =>
    rw [exec_lc, exec_lc]
    refine withMode_runInstr m _ _ (fun t => ?_) s
    rw [withMode_memRead]; show (t.memRead t.ax 1).map _ = _
    cases t.memRead t.ax 1 <;> rfl
  | si =>
    rw [exec_si, exec_si]
    refine withMode_runInstr m _ _ (fun t => ?_) s
    unfold storeWord
    rw [withMode_pop]
    cases t.pop with
    | error e => rfl
    | ok p =>
      obtain ⟨a, u⟩ := p
      simp only [Except.map, bind, Except.bind]
      rw [withMode_memWrite]; rfl
  | sc =>
    rw [exec_sc, exec_sc]
    refine withMode_runInstr m _ _ (fun t => ?_) s
    unfold storeByte
    rw [withMode_pop]
    cases t.pop with
    | error e => rfl
    | ok p =>
      obtain ⟨a, u⟩ := p
      simp only [Except.map, bind, Except.bind]
      rw [withMode_memWrite]
      rw [show (withMode m u).ax = u.ax from rfl]
      cases u.memWrite a 1 u.ax <;> rfl
  | exit =>
    rw [exec_exit, exec_exit]
    refine withMode_runInstr m _ _ (fun t => ?_) s
    rw [withMode_stackRead]; show (t.stackRead t.sp).map _ = _
    cases t.stackRead t.sp <;> rfl
  | opn => rw [exec_opn, exec_opn]; exact withMode_runHostCall m _ _ (fun t => rfl) s
  | read => rw [exec_read, exec_read]; exact withMode_runHostCall m _ _ (fun t => rfl) s
  | clos => rw [exec_clos, exec_clos]; exact withMode_runHostCall m _ _ (fun t => rfl) s
  | prtf => rw [exec_prtf, exec_prtf]; exact withMode_runHostCall m _ _ (fun t => rfl) s
  | malc => rw [exec_malc, exec_malc]; exact withMode_runHostCall m _ _ (fun t => rfl) s
  | free => rw [exec_free, exec_free]; exact withMode_runHostCall m _ _ (fun t => rfl) s
  | mset => rw [exec_mset, exec_mset]; exact withMode_runHostCall m _ _ (fun t => rfl) s
  | mcmp => rw [exec_mcmp, exec_mcmp]; exact withMode_runHostCall m _ _ (fun t => rfl) s
  | shl => rw [exec_shl, exec_shl]; exact withMode_runInstr m _ _ (fun t => withMode_shift m t _) s
  | shr => rw [exec_shr, exec_shr]; exact withMode_runInstr m _ _ (fun t => withMode_shift m t _) s
  | or => rw [exec_or, exec_or]; exact withMode_runInstr m _ _ (fun t => withMode_binary m t _) s
  | xor => rw [exec_xor, exec_xor]; exact withMode_runInstr m _ _ (fun t => withMode_binary m t _) s
  | and => rw [exec_and, exec_and]; exact withMode_runInstr m _ _ (fun t => withMode_binary m t _) s
  | eq => rw [exec_eq, exec_eq]; exact withMode_runInstr m _ _ (fun t => withMode_binary m t _) s
  | ne => rw [exec_ne, exec_ne]; exact withMode_runInstr m _ _ (fun t => withMode_binary m t _) s
  | lt => rw [exec_lt, exec_lt]; exact withMode_runInstr m _ _ (fun t => withMode_binary m t _) s
  | gt => rw [exec_gt, exec_gt]; exact withMode_runInstr m _ _ (fun t => withMode_binary m t _) s
  | le => rw [exec_le, exec_le]; exact withMode_runInstr m _ _ (fun t => withMode_binary m t _) s
  | ge => rw [exec_ge, exec_ge]; exact withMode_runInstr m _ _ (fun t => withMode_binary m t _) s
  | add => rw [exec_add, exec_add]; exact withMode_runInstr m _ _ (fun t => withMode_binary m t _) s
  | sub => rw [exec_sub, exec_sub]; exact withMode_runInstr m _ _ (fun t => withMode_binary m t _) s
  | mul => rw [exec_mul, exec_mul]; exact withMode_runInstr m _ _ (fun t => withMode_binary m t _) s
  | div => rw [exec_div, exec_div]; exact withMode_runInstr m _ _ (fun t => withMode_binary m t _) s
  | mod => rw [exec_mod, exec_mod]; exact withMode_runInstr m _ _ (fun t => withMode_binary m t _) s

end Sys2Proof.Machine
end

