-- ==== Sys2Proof/Laws/PerInstr.lean ====
section
/-! SUPPORT. The families of lemmas stated of every instruction (LAWS.json). -/

namespace Sys2Proof.Laws.EncodedWidth

/-- R83, R84: an instruction's opcode cell is valid, and tells the number of the instruction's cells. -/
def Statement (i : Sys2Proof.Instr) : Prop :=
  Sys2Proof.Instr.wf i = true ∧ Sys2Proof.validOpcode i.opcode = true
    ∧ (Sys2Proof.encode i).length = Sys2Proof.widthCells i.opcode

theorem lea (imm : Sys2Proof.Word) : Statement (.lea imm) := ⟨rfl, rfl, rfl⟩
theorem imm (imm : Sys2Proof.Word) : Statement (.imm imm) := ⟨rfl, rfl, rfl⟩
theorem jmp (imm : Sys2Proof.Word) : Statement (.jmp imm) := ⟨rfl, rfl, rfl⟩
theorem call (imm : Sys2Proof.Word) : Statement (.call imm) := ⟨rfl, rfl, rfl⟩
theorem jz (imm : Sys2Proof.Word) : Statement (.jz imm) := ⟨rfl, rfl, rfl⟩
theorem jnz (imm : Sys2Proof.Word) : Statement (.jnz imm) := ⟨rfl, rfl, rfl⟩
theorem ent (imm : Sys2Proof.Word) : Statement (.ent imm) := ⟨rfl, rfl, rfl⟩
theorem adj (imm : Sys2Proof.Word) : Statement (.adj imm) := ⟨rfl, rfl, rfl⟩
theorem lev : Statement .lev := ⟨rfl, rfl, rfl⟩
theorem li : Statement .li := ⟨rfl, rfl, rfl⟩
theorem lc : Statement .lc := ⟨rfl, rfl, rfl⟩
theorem si : Statement .si := ⟨rfl, rfl, rfl⟩
theorem sc : Statement .sc := ⟨rfl, rfl, rfl⟩
theorem push : Statement .push := ⟨rfl, rfl, rfl⟩
theorem or : Statement .or := ⟨rfl, rfl, rfl⟩
theorem xor : Statement .xor := ⟨rfl, rfl, rfl⟩
theorem and : Statement .and := ⟨rfl, rfl, rfl⟩
theorem eq : Statement .eq := ⟨rfl, rfl, rfl⟩
theorem ne : Statement .ne := ⟨rfl, rfl, rfl⟩
theorem lt : Statement .lt := ⟨rfl, rfl, rfl⟩
theorem gt : Statement .gt := ⟨rfl, rfl, rfl⟩
theorem le : Statement .le := ⟨rfl, rfl, rfl⟩
theorem ge : Statement .ge := ⟨rfl, rfl, rfl⟩
theorem shl : Statement .shl := ⟨rfl, rfl, rfl⟩
theorem shr : Statement .shr := ⟨rfl, rfl, rfl⟩
theorem add : Statement .add := ⟨rfl, rfl, rfl⟩
theorem sub : Statement .sub := ⟨rfl, rfl, rfl⟩
theorem mul : Statement .mul := ⟨rfl, rfl, rfl⟩
theorem div : Statement .div := ⟨rfl, rfl, rfl⟩
theorem mod : Statement .mod := ⟨rfl, rfl, rfl⟩
theorem opn : Statement .opn := ⟨rfl, rfl, rfl⟩
theorem read : Statement .read := ⟨rfl, rfl, rfl⟩
theorem clos : Statement .clos := ⟨rfl, rfl, rfl⟩
theorem prtf : Statement .prtf := ⟨rfl, rfl, rfl⟩
theorem malc : Statement .malc := ⟨rfl, rfl, rfl⟩
theorem free : Statement .free := ⟨rfl, rfl, rfl⟩
theorem mset : Statement .mset := ⟨rfl, rfl, rfl⟩
theorem mcmp : Statement .mcmp := ⟨rfl, rfl, rfl⟩
theorem exit : Statement .exit := ⟨rfl, rfl, rfl⟩

end Sys2Proof.Laws.EncodedWidth
end

