-- ==== Sys2Proof/Laws/Step.lean ====
section
/-! SUPPORT. Everything exec and step can answer, said once (spec/40_dispatch.md rules R100 to R106, R115). -/

namespace Sys2Proof.Machine

theorem kept_of_served {i : Instr} (hi : i ∈ hostCallOpcodes) {t u : State} {q : HostRequest}
    (h : Served i (t.sent q) u) : Kept i t u := by
  have hne : i ≠ .exit := by rintro rfl; simp [hostCallOpcodes] at hi
  refine ⟨by simpa using h.par, by simpa using h.opCounter, by simpa using h.dataCursor, by simpa using h.cycle,
    by simpa using h.faultCause, by simpa using h.faultPc, by simpa using h.faultInfo, by simpa using h.mode,
    by simpa using h.traceOn, by simpa using h.trace, fun _ => by simpa using h.status, fun _ => by simpa using h.exitValue,
    fun hc => absurd hc hne, fun hc => absurd (by simpa using h.bp) hc, fun hc => absurd (by simpa using h.sp) hc,
    fun _ => .inr (.inl hi), fun hm => h.mem (memOk_of_eq hm (by simp) (fun X => by cases X <;> rfl) (by simp) (by simp))⟩

/-- Everything exec can answer: an exception taken, or the effect's result; a fault only of a host that never answers. -/
theorem exec_cases (i : Instr) (s : State) :
    (∃ e u, exec i s = .next (s.takeFault u e) ∧ u.trace = (s.begun i).trace ∧ e.cause ≠ .none ∧ e.cause ≠ .unknownOpcode)
    ∨ (∃ t, exec i s = .next t ∧ Kept i (s.begun i) t)
    ∨ (exec i s = .fault .hostNeverAnswers ∧ s.nextAnswer = none ∧ i ∈ hostCallOpcodes) := by
  by_cases hi : i ∈ hostCallOpcodes
  · obtain ⟨f, hf, he, hs⟩ := hostCall_served i hi
    rcases runHostCall_cases i f s with ⟨e, h1, h2⟩ | ⟨q, h1, h2, h3⟩ | ⟨q, r, h1, h2, h3⟩
    · exact .inl ⟨e, _, by rw [hf, h2], rfl, he _ _ h1⟩
    · exact .inr (.inr ⟨by rw [hf, h3], h2, hi⟩)
    · have := hs _ _ h1 r ((s.begun i).sent q)
      cases hx : serve q r ((s.begun i).sent q) with
      | ok t => rw [hx] at this h3; exact .inr (.inl ⟨t, by rw [hf, h3]; rfl, kept_of_served hi this⟩)
      | error e => rw [hx] at this h3; exact .inl ⟨e, _, by rw [hf, h3]; rfl, by simp, this⟩
  · obtain ⟨f, hf, hk⟩ := effect_kept i hi
    have := hk (s.begun i)
    cases hx : f (s.begun i) with
    | ok t => rw [hx] at this; exact .inr (.inl ⟨t, by rw [hf]; exact runInstr_ok hx, this⟩)
    | error e => rw [hx] at this; exact .inl ⟨e, _, by rw [hf]; exact runInstr_error hx, rfl, this⟩

theorem exec_next {i : Instr} {s t : State} (h : exec i s = .next t) :
    (∃ e u, t = s.takeFault u e ∧ u.trace = (s.begun i).trace ∧ e.cause ≠ .none ∧ e.cause ≠ .unknownOpcode)
    ∨ Kept i (s.begun i) t := by
  rcases exec_cases i s with ⟨e, u, h1, h2⟩ | ⟨u, h1, h2⟩ | ⟨h1, -⟩
  · rw [h] at h1; simp only [Host.Outcome.next.injEq] at h1; exact .inl ⟨e, u, h1, h2⟩
  · rw [h] at h1; simp only [Host.Outcome.next.injEq] at h1; subst h1; exact .inr h2
  · rw [h] at h1; simp at h1

/-- Everything a step can answer. -/
theorem step_cases (s : State) :
    ((s.status.halted = true ∨ s.stalls = true) ∧ step s = .next s)
    ∨ (s.status.halted = false ∧ s.stalls = false ∧
        ((∃ e, s.fetchInstr = .trap e ∧ step s = .next (s.takeFault s e))
        ∨ (∃ op, s.fetchInstr = .unknown op ∧ step s = .next (s.unknownOpcode op))
        ∨ ∃ i, s.fetchInstr = .instr i ∧ step s = exec i s)) := by
  unfold step
  cases h1 : s.status.halted with
  | true => exact .inl ⟨.inl rfl, rfl⟩
  | false =>
    cases h2 : s.stalls with
    | true => exact .inl ⟨.inr rfl, rfl⟩
    | false =>
      refine .inr ⟨rfl, rfl, ?_⟩
      cases hf : s.fetchInstr with
      | trap e => exact .inl ⟨e, rfl, rfl⟩
      | unknown op => exact .inr (.inl ⟨op, rfl, rfl⟩)
      | instr i => exact .inr (.inr ⟨i, rfl, rfl⟩)

/-- The traps and the unknown opcodes of fetching. -/
theorem fetchInstr_trap {s : State} {e : Trap} (h : s.fetchInstr = .trap e) :
    s.fetch s.pc = .error e ∨ s.fetch (s.pc + 8) = .error e := by
  unfold State.fetchInstr at h
  repeat' split at h
  all_goals first
    | (rename_i he; simp only [Fetched.trap.injEq] at h; subst h; first | exact .inl he | exact .inr he)
    | simp at h

theorem fetchInstr_trap_raises {s : State} {e : Trap} (h : s.fetchInstr = .trap e) :
    e.cause ≠ .none ∧ e.cause ≠ .unknownOpcode := by
  rcases fetchInstr_trap h with h | h <;> exact fetch_raises h

theorem cause_range {c : FaultCause} (h : c ≠ .none ∧ c ≠ .unknownOpcode) : 1 ≤ c.toNat ∧ c.toNat ≤ 9 := by
  cases c <;> simp [FaultCause.toNat] at *

end Sys2Proof.Machine
end

