-- ==== Sys2Proof/Tests/Slice0.lean ====
section
/-! SUPPORT. The model's own tests. Expected results come from the spec: its encodings (spec/30_encoding.md R87), its
layout rules (R8, R9) and its vectors (spec/95_test_vectors.md; the vector's name stands with each test). The last part
holds, for every statement with hypotheses, a state and operands that meet them. -/

namespace Sys2Proof.Tests

open Sys2Proof.Machine

/-! ### Fixtures -/

/-- Cells appended from CODE_BASE to a Machine just reset. -/
def prog (cells : List Word) : State := cells.foldl (fun s v => (s.append v).2) State.reset

/-- Stack cells set by offset, and sp. -/
def atStack (s : State) (sp : Word) (cells : List (Nat × Word)) : State :=
  { s with sp := sp, stack := cells.foldl (fun m c => Memory.writeWord m c.1 8 c.2) s.stack }

/-- Data cells set by offset. -/
def withData (s : State) (cells : List (Nat × Word)) : State :=
  { s with data := cells.foldl (fun m c => Memory.writeWord m c.1 8 c.2) s.data }

/-- An answer of the host that fails in nothing. -/
def answer (v : Word) (bytes : List Byte) : HostAnswer := ⟨v, bytes, none, false⟩

/-- The host's next answer is fixed. -/
def answering (s : State) (v : Word) (bytes : List Byte) : State := { s with replies := [some (answer v bytes)] }

/-- One step of `s` answers a state with `p`. -/
def stepTo (s : State) (p : State → Bool) : Bool :=
  match step s with
  | .next t => p t
  | .fault _ => false
  | .refused _ => false

/-- The cell at `a` holds `v`. -/
def cellIs (t : State) (a v : Word) : Bool :=
  match t.memRead a 8 with
  | .ok w => decide (w = v)
  | .error _ => false

/-- The fault `c` with `info`, and the registers a precise fault keeps. -/
def faulted (s : State) (c : FaultCause) (info : Word) (t : State) : Bool :=
  decide (t.status = .fault ∧ t.faultCause = c ∧ t.faultInfo = info ∧ t.faultPc = s.pc ∧ t.pc = s.pc ∧ t.sp = s.sp
    ∧ t.bp = s.bp ∧ t.ax = s.ax ∧ t.cycle = s.cycle)

/-- A step answers a next state. -/
theorem next_of_stepTo {s : State} (h : stepTo s (fun _ => true) = true) : ∃ t, step s = .next t := by
  unfold stepTo at h
  split at h
  · rename_i t ht; exact ⟨t, ht⟩
  · simp at h
  · simp at h

/-! ### Well-formedness (R8, R9): each check refuses -/

theorem test_wf_accepts : Config.params.wf = true := by decide
theorem test_wf_pool_multiple : (Params.mk 0x1004 0x10000 0x20000 0x30000 .sign).wf = false := by decide
theorem test_wf_pool_smallest : (Params.mk 48 0x10000 0x20000 0x30000 .sign).wf = true := by decide
theorem test_wf_pool_too_small : (Params.mk 40 0x10000 0x20000 0x30000 .sign).wf = false := by decide
theorem test_wf_base_multiple : (Params.mk 0x1000 0x10004 0x20000 0x30000 .sign).wf = false := by decide
theorem test_wf_data_base_multiple : (Params.mk 0x1000 0x10000 0x20001 0x30000 .sign).wf = false := by decide
theorem test_wf_stack_base_multiple : (Params.mk 0x1000 0x10000 0x20000 0x30002 .sign).wf = false := by decide
theorem test_wf_base_low : (Params.mk 0x1000 0 0x20000 0x30000 .sign).wf = false := by decide
theorem test_wf_data_base_low : (Params.mk 0x1000 0x10000 0 0x30000 .sign).wf = false := by decide
theorem test_wf_stack_base_low : (Params.mk 0x1000 0x10000 0x20000 0 .sign).wf = false := by decide
theorem test_wf_end_at_top : (Params.mk 0x1000 0x10000 0x20000 0xFFFFFFFFFFFFF000 .sign).wf = true := by decide
theorem test_wf_code_past_top : (Params.mk 0x1000 0xFFFFFFFFFFFFF008 0x20000 0x30000 .sign).wf = false := by decide
theorem test_wf_data_past_top : (Params.mk 0x1000 0x10000 0xFFFFFFFFFFFFF008 0x30000 .sign).wf = false := by decide
theorem test_wf_stack_past_top : (Params.mk 0x1000 0x10000 0x20000 0xFFFFFFFFFFFFF008 .sign).wf = false := by decide
theorem test_wf_code_data_overlap : (Params.mk 0x1000 0x10000 0x10FF8 0x30000 .sign).wf = false := by decide
theorem test_wf_code_stack_overlap : (Params.mk 0x1000 0x10000 0x20000 0x0F008 .sign).wf = false := by decide
theorem test_wf_data_stack_overlap : (Params.mk 0x1000 0x10000 0x20000 0x20000 .sign).wf = false := by decide
theorem test_wf_segments_may_touch : (Params.mk 0x1000 0x10000 0x11000 0x12000 .sign).wf = true := by decide

/-! ### Decoding (R80 to R88): words written out from the opcode map -/
theorem test_decode_lea : decodeBytes [0x00, 0, 0, 0, 0, 0, 0, 0, 0x08, 0x07, 0x06, 0x05, 0x04, 0x03, 0x02, 0x81]
    = .ok (.lea 0x8102030405060708, []) := by decide
theorem test_decode_imm : decodeBytes [0x01, 0, 0, 0, 0, 0, 0, 0, 0x08, 0x07, 0x06, 0x05, 0x04, 0x03, 0x02, 0x81]
    = .ok (.imm 0x8102030405060708, []) := by decide
theorem test_decode_jmp : decodeBytes [0x02, 0, 0, 0, 0, 0, 0, 0, 0x08, 0x07, 0x06, 0x05, 0x04, 0x03, 0x02, 0x81]
    = .ok (.jmp 0x8102030405060708, []) := by decide
theorem test_decode_call : decodeBytes [0x03, 0, 0, 0, 0, 0, 0, 0, 0x08, 0x07, 0x06, 0x05, 0x04, 0x03, 0x02, 0x81]
    = .ok (.call 0x8102030405060708, []) := by decide
theorem test_decode_jz : decodeBytes [0x04, 0, 0, 0, 0, 0, 0, 0, 0x08, 0x07, 0x06, 0x05, 0x04, 0x03, 0x02, 0x81]
    = .ok (.jz 0x8102030405060708, []) := by decide
theorem test_decode_jnz : decodeBytes [0x05, 0, 0, 0, 0, 0, 0, 0, 0x08, 0x07, 0x06, 0x05, 0x04, 0x03, 0x02, 0x81]
    = .ok (.jnz 0x8102030405060708, []) := by decide
theorem test_decode_ent : decodeBytes [0x06, 0, 0, 0, 0, 0, 0, 0, 0x08, 0x07, 0x06, 0x05, 0x04, 0x03, 0x02, 0x81]
    = .ok (.ent 0x8102030405060708, []) := by decide
theorem test_decode_adj : decodeBytes [0x07, 0, 0, 0, 0, 0, 0, 0, 0x08, 0x07, 0x06, 0x05, 0x04, 0x03, 0x02, 0x81]
    = .ok (.adj 0x8102030405060708, []) := by decide
theorem test_decode_lev : decodeBytes [0x08, 0, 0, 0, 0, 0, 0, 0, 0x99] = .ok (.lev, [0x99]) := by decide
theorem test_decode_li : decodeBytes [0x09, 0, 0, 0, 0, 0, 0, 0, 0x99] = .ok (.li, [0x99]) := by decide
theorem test_decode_lc : decodeBytes [0x0A, 0, 0, 0, 0, 0, 0, 0, 0x99] = .ok (.lc, [0x99]) := by decide
theorem test_decode_si : decodeBytes [0x0B, 0, 0, 0, 0, 0, 0, 0, 0x99] = .ok (.si, [0x99]) := by decide
theorem test_decode_sc : decodeBytes [0x0C, 0, 0, 0, 0, 0, 0, 0, 0x99] = .ok (.sc, [0x99]) := by decide
theorem test_decode_push : decodeBytes [0x0D, 0, 0, 0, 0, 0, 0, 0, 0x99] = .ok (.push, [0x99]) := by decide
theorem test_decode_or : decodeBytes [0x0E, 0, 0, 0, 0, 0, 0, 0, 0x99] = .ok (.or, [0x99]) := by decide
theorem test_decode_xor : decodeBytes [0x0F, 0, 0, 0, 0, 0, 0, 0, 0x99] = .ok (.xor, [0x99]) := by decide
theorem test_decode_and : decodeBytes [0x10, 0, 0, 0, 0, 0, 0, 0, 0x99] = .ok (.and, [0x99]) := by decide
theorem test_decode_eq : decodeBytes [0x11, 0, 0, 0, 0, 0, 0, 0, 0x99] = .ok (.eq, [0x99]) := by decide
theorem test_decode_ne : decodeBytes [0x12, 0, 0, 0, 0, 0, 0, 0, 0x99] = .ok (.ne, [0x99]) := by decide
theorem test_decode_lt : decodeBytes [0x13, 0, 0, 0, 0, 0, 0, 0, 0x99] = .ok (.lt, [0x99]) := by decide
theorem test_decode_gt : decodeBytes [0x14, 0, 0, 0, 0, 0, 0, 0, 0x99] = .ok (.gt, [0x99]) := by decide
theorem test_decode_le : decodeBytes [0x15, 0, 0, 0, 0, 0, 0, 0, 0x99] = .ok (.le, [0x99]) := by decide
theorem test_decode_ge : decodeBytes [0x16, 0, 0, 0, 0, 0, 0, 0, 0x99] = .ok (.ge, [0x99]) := by decide
theorem test_decode_shl : decodeBytes [0x17, 0, 0, 0, 0, 0, 0, 0, 0x99] = .ok (.shl, [0x99]) := by decide
theorem test_decode_shr : decodeBytes [0x18, 0, 0, 0, 0, 0, 0, 0, 0x99] = .ok (.shr, [0x99]) := by decide
theorem test_decode_add : decodeBytes [0x19, 0, 0, 0, 0, 0, 0, 0, 0x99] = .ok (.add, [0x99]) := by decide
theorem test_decode_sub : decodeBytes [0x1A, 0, 0, 0, 0, 0, 0, 0, 0x99] = .ok (.sub, [0x99]) := by decide
theorem test_decode_mul : decodeBytes [0x1B, 0, 0, 0, 0, 0, 0, 0, 0x99] = .ok (.mul, [0x99]) := by decide
theorem test_decode_div : decodeBytes [0x1C, 0, 0, 0, 0, 0, 0, 0, 0x99] = .ok (.div, [0x99]) := by decide
theorem test_decode_mod : decodeBytes [0x1D, 0, 0, 0, 0, 0, 0, 0, 0x99] = .ok (.mod, [0x99]) := by decide
theorem test_decode_opn : decodeBytes [0x1E, 0, 0, 0, 0, 0, 0, 0, 0x99] = .ok (.opn, [0x99]) := by decide
theorem test_decode_read : decodeBytes [0x1F, 0, 0, 0, 0, 0, 0, 0, 0x99] = .ok (.read, [0x99]) := by decide
theorem test_decode_clos : decodeBytes [0x20, 0, 0, 0, 0, 0, 0, 0, 0x99] = .ok (.clos, [0x99]) := by decide
theorem test_decode_prtf : decodeBytes [0x21, 0, 0, 0, 0, 0, 0, 0, 0x99] = .ok (.prtf, [0x99]) := by decide
theorem test_decode_malc : decodeBytes [0x22, 0, 0, 0, 0, 0, 0, 0, 0x99] = .ok (.malc, [0x99]) := by decide
theorem test_decode_free : decodeBytes [0x23, 0, 0, 0, 0, 0, 0, 0, 0x99] = .ok (.free, [0x99]) := by decide
theorem test_decode_mset : decodeBytes [0x24, 0, 0, 0, 0, 0, 0, 0, 0x99] = .ok (.mset, [0x99]) := by decide
theorem test_decode_mcmp : decodeBytes [0x25, 0, 0, 0, 0, 0, 0, 0, 0x99] = .ok (.mcmp, [0x99]) := by decide
theorem test_decode_exit : decodeBytes [0x26, 0, 0, 0, 0, 0, 0, 0, 0x99] = .ok (.exit, [0x99]) := by decide
theorem test_decode_39 : decodeBytes [0x27, 0, 0, 0, 0, 0, 0, 0] = .error (.unknownOpcode 39) := by decide
theorem test_decode_minus_one : decodeBytes [0xFF, 0xFF, 0xFF, 0xFF, 0xFF, 0xFF, 0xFF, 0xFF]
    = .error (.unknownOpcode 0xFFFFFFFFFFFFFFFF) := by decide
theorem test_decode_high_byte_counts : decodeBytes [0x01, 0, 0, 0, 0, 0, 0, 0x01]
    = .error (.unknownOpcode 0x0100000000000001) := by decide
theorem test_decode_truncated : decodeBytes [0x01, 0, 0, 0, 0, 0, 0, 0, 0x0A] = .error .truncated := by decide
theorem test_table_word_imm : decodeTableWord 128 (1 + 10 * 2 ^ 64) = some (.imm 10) := by decide
theorem test_table_word_exit : decodeTableWord 64 38 = some .exit := by decide
theorem test_table_word_short : decodeTableWord 64 3 = some (.call 0) := by decide

/-! ### Reset (R38) and placing an instruction -/

theorem test_reset_registers : State.reset.pc = 0x10000 ∧ State.reset.bp = 0x31000 ∧ State.reset.sp = 0x31000
    ∧ State.reset.ax = 0 ∧ State.reset.dataCursor = 0x20000 ∧ State.reset.status = .init := by decide
theorem test_with_fetch_word : stepTo (State.reset.withFetchWord 128 (1 + 10 * 2 ^ 64))
    (fun t => decide (t.ax = 10 ∧ t.pc = 0x10010)) = true := by decide
theorem test_with_fetch_word_halted : stepTo ({ State.reset with status := .fault }.withFetchWord 64 13)
    (fun t => decide (t.sp = 0x30FF8 ∧ t.status = .running)) = true := by decide

/-! ### The multiplexer (vectors M1 to M16) -/

theorem test_M1 : route Config.params 0x10000 8 = .seg .code 0 := by decide
theorem test_M2 : route Config.params 0x20FF8 8 = .seg .data 0xFF8 := by decide
theorem test_M3 : route Config.params 0x20FFC 8 = .straddle := by decide
theorem test_M4 : route Config.params 0x20FFF 1 = .seg .data 0xFFF := by decide
theorem test_M5 : route Config.params 0x21000 1 = .hostMem 0x21000 := by decide
theorem test_M6 : route Config.params 0x30FF8 8 = .seg .stack 0xFF8 := by decide
theorem test_M7 : route Config.params 0x31000 8 = .hostMem 0x31000 := by decide
theorem test_M8 : route Config.params 0xFFFFFFFFFFFFFFFC 8 = .straddle := by decide
theorem test_M9 : stepTo ({ prog [9] with ax := 0x20FFC })
    (faulted ({ prog [9] with ax := 0x20FFC }) .dataAddress 0x20FFC) = true := by decide
theorem test_M10 : stepTo ({ prog [9] with ax := 0x21000 })
    (faulted ({ prog [9] with ax := 0x21000 }) .dataAddress 0x21000) = true := by decide
theorem test_M11 : stepTo ({ prog [9] with ax := 0x20004 })
    (faulted ({ prog [9] with ax := 0x20004 }) .dataMisaligned 0x20004) = true := by decide
theorem test_M12 : stepTo ({ prog [9] with ax := 0x10100 })
    (fun t => decide (t.ax = 0 ∧ t.status = .running)) = true := by decide
theorem test_M13 : stepTo ({ withData (prog [10]) [(0, 0x1122334455667788)] with ax := 0x20001 })
    (fun t => decide (t.ax = 0x77)) = true := by decide
theorem test_M14 : stepTo ({ prog [2, 0x20000] with pc := 0x20000, cycle := 1, status := .running })
    (faulted ({ prog [2, 0x20000] with pc := 0x20000, cycle := 1, status := .running }) .fetchSegment 0x20000) = true := by decide
theorem test_M15 : stepTo ({ prog [2, 0x10004] with pc := 0x10004, cycle := 1, status := .running })
    (faulted ({ prog [2, 0x10004] with pc := 0x10004, cycle := 1, status := .running }) .fetchMisaligned 0x10004) = true := by decide
theorem test_M16 : stepTo (State.reset)
    (faulted (State.reset) .fetchUncommitted 0x10000) = true := by decide

/-! ### Dispatch (vectors X2 to X7, X9 to X11) -/
theorem test_X2 : State.reset.runAvailable false 1
    = .returned .init true 0 (State.reset.request .guarded false) := by decide
theorem test_X3 : stepTo (prog [1])
    (faulted (prog [1]) .fetchUncommitted 0x10008) = true := by decide
theorem test_X4 : (prog [1]).runAvailable false 1 = .returned .init true 0 ((prog [1]).request .guarded false) := by decide
theorem test_X5 : stepTo ((prog [-1]).request .guarded false)
    (fun t => decide (t.status = .error ∧ t.pc = 0x10008 ∧ t.cycle = 1 ∧ t.faultInfo = 0xFFFFFFFFFFFFFFFF)) = true := by decide
theorem test_X6 : stepTo (prog [39])
    (fun t => decide (t.status = .error ∧ t.pc = 0x10008 ∧ t.cycle = 1 ∧ t.faultCause = .unknownOpcode
      ∧ t.faultPc = 0x10000 ∧ t.faultInfo = 39)) = true := by decide
theorem test_X7 : stepTo ({ prog [38] with status := .exit, cycle := 1 })
    (fun t => decide (t = { prog [38] with status := .exit, cycle := 1 })) = true := by decide
theorem test_X8 : stepTo ({ prog [1, 5, 38] with pc := 0x10010, ax := 5, cycle := 1, status := .running })
    (faulted ({ prog [1, 5, 38] with pc := 0x10010, ax := 5, cycle := 1, status := .running }) .stackRange 0x31000) = true := by decide
theorem test_X9 : stepTo (prog [2, 0x10000])
    (fun t => decide (t.pc = 0x10000 ∧ t.cycle = 1 ∧ t.status = .running)) = true := by decide
theorem test_X10 : stepTo ((prog [1, 10]).request .blocking true)
    (fun t => decide (t.trace = [⟨1, 1, some 10⟩])) = true := by decide
theorem test_X11 : stepTo ({ prog [38] with status := .error }.hostSetPc 0x10000)
    (fun t => decide (t.status = .error)) = true := by decide

/-! ### Frame, immediate, control transfer (vectors F1 to F18) -/
theorem test_F1 : stepTo ({ prog [0, 3] with bp := 0x30FB0 })
    (fun t => decide (t.ax = 0x30FC8 ∧ t.pc = 0x10010)) = true := by decide
theorem test_F2 : stepTo ({ prog [0, -1] with bp := 0x30FB0 })
    (fun t => decide (t.ax = 0x30FA8)) = true := by decide
theorem test_F4 : stepTo (prog [1, -1])
    (fun t => decide (t.ax = 0xFFFFFFFFFFFFFFFF)) = true := by decide
theorem test_F5 : stepTo (prog [1, 0x8000000000000000])
    (fun t => decide (t.ax = 0x8000000000000000)) = true := by decide
theorem test_F6 : stepTo (prog [2, 0x10040])
    (fun t => decide (t.pc = 0x10040)) = true := by decide
theorem test_F7 : stepTo (prog [4, 0x10080])
    (fun t => decide (t.pc = 0x10080)) = true := by decide
theorem test_F8 : stepTo ({ prog [4, 0x10080] with ax := 5 })
    (fun t => decide (t.pc = 0x10010)) = true := by decide
theorem test_F9 : stepTo ({ prog [5, 0x10000] with ax := -1 })
    (fun t => decide (t.pc = 0x10000)) = true := by decide
theorem test_F10 : stepTo (prog [5, 0x10000])
    (fun t => decide (t.pc = 0x10010)) = true := by decide
theorem test_F11 : stepTo (prog [3, 0x10000])
    (fun t => cellIs t 0x30FF8 0x10010 && decide (t.sp = 0x30FF8 ∧ t.pc = 0x10000)) = true := by decide
theorem test_F12 : stepTo ({ prog [3, 0x10000] with sp := 0x30000 })
    (faulted ({ prog [3, 0x10000] with sp := 0x30000 }) .stackRange 0x2FFF8) = true := by decide
theorem test_F13 : stepTo ({ prog [6, 2] with sp := 0x30FB8, bp := 0x30FD0 })
    (fun t => cellIs t 0x30FB0 0x30FD0 && decide (t.bp = 0x30FB0 ∧ t.sp = 0x30FA0)) = true := by decide
theorem test_F14 : stepTo (prog [6, 0])
    (fun t => cellIs t 0x30FF8 0x31000 && decide (t.bp = 0x30FF8 ∧ t.sp = 0x30FF8)) = true := by decide
theorem test_F15 : stepTo ({ prog [7, 2] with sp := 0x30FC0 })
    (fun t => decide (t.sp = 0x30FD0)) = true := by decide
theorem test_F16 : stepTo ({ prog [7, -1000] with sp := 0x30FC0 })
    (fun t => decide (t.sp = 0x2F080 ∧ t.status = .running)) = true := by decide
theorem test_F17 : stepTo ({ atStack (prog [8]) 0x30F00 [(0xFB0, 0x30FD0), (0xFB8, 0x100A8)] with bp := 0x30FB0 })
    (fun t => decide (t.sp = 0x30FC0 ∧ t.bp = 0x30FD0 ∧ t.pc = 0x100A8)) = true := by decide
theorem test_F18 : stepTo (prog [8])
    (faulted (prog [8]) .stackRange 0x31000) = true := by decide

/-! ### Binary opcodes (section 2.4: the opcode itself, the left operand on the stack) -/
/-- The state in which the template S2 is about to run its opcode. -/
def operands (op : Word) (a b : Word) : State := { atStack (prog [op]) 0x30FF8 [(0xFF8, a)] with ax := b }
theorem test_or : stepTo (operands 14 (12) (10))
    (fun t => decide (t.ax = 14 ∧ t.sp = 0x31000)) = true := by decide
theorem test_or_ones : stepTo (operands 14 (0) (-1))
    (fun t => decide (t.ax = -1 ∧ t.sp = 0x31000)) = true := by decide
theorem test_xor : stepTo (operands 15 (12) (10))
    (fun t => decide (t.ax = 6 ∧ t.sp = 0x31000)) = true := by decide
theorem test_xor_same : stepTo (operands 15 (5) (5))
    (fun t => decide (t.ax = 0 ∧ t.sp = 0x31000)) = true := by decide
theorem test_and : stepTo (operands 16 (12) (10))
    (fun t => decide (t.ax = 8 ∧ t.sp = 0x31000)) = true := by decide
theorem test_and_ones : stepTo (operands 16 (-1) (4660))
    (fun t => decide (t.ax = 4660 ∧ t.sp = 0x31000)) = true := by decide
theorem test_eq : stepTo (operands 17 (5) (6))
    (fun t => decide (t.ax = 0 ∧ t.sp = 0x31000)) = true := by decide
theorem test_eq_min : stepTo (operands 17 (0x8000000000000000) (0x8000000000000000))
    (fun t => decide (t.ax = 1 ∧ t.sp = 0x31000)) = true := by decide
theorem test_ne : stepTo (operands 18 (5) (6))
    (fun t => decide (t.ax = 1 ∧ t.sp = 0x31000)) = true := by decide
theorem test_ne_same : stepTo (operands 18 (5) (5))
    (fun t => decide (t.ax = 0 ∧ t.sp = 0x31000)) = true := by decide
theorem test_lt_signed : stepTo (operands 19 (0x8000000000030000) (196608))
    (fun t => decide (t.ax = 1 ∧ t.sp = 0x31000)) = true := by decide
theorem test_lt_same : stepTo (operands 19 (4) (4))
    (fun t => decide (t.ax = 0 ∧ t.sp = 0x31000)) = true := by decide
theorem test_gt : stepTo (operands 20 (0) (-1))
    (fun t => decide (t.ax = 1 ∧ t.sp = 0x31000)) = true := by decide
theorem test_gt_same : stepTo (operands 20 (3) (3))
    (fun t => decide (t.ax = 0 ∧ t.sp = 0x31000)) = true := by decide
theorem test_le : stepTo (operands 21 (4) (3))
    (fun t => decide (t.ax = 0 ∧ t.sp = 0x31000)) = true := by decide
theorem test_le_negative : stepTo (operands 21 (-5) (2))
    (fun t => decide (t.ax = 1 ∧ t.sp = 0x31000)) = true := by decide
theorem test_ge : stepTo (operands 22 (2) (3))
    (fun t => decide (t.ax = 0 ∧ t.sp = 0x31000)) = true := by decide
theorem test_ge_min : stepTo (operands 22 (0) (0x8000000000000000))
    (fun t => decide (t.ax = 1 ∧ t.sp = 0x31000)) = true := by decide
theorem test_shl_63 : stepTo (operands 23 (1) (63))
    (fun t => decide (t.ax = 0x8000000000000000 ∧ t.sp = 0x31000)) = true := by decide
theorem test_shl_wraps : stepTo (operands 23 (-1) (1))
    (fun t => decide (t.ax = -2 ∧ t.sp = 0x31000)) = true := by decide
theorem test_shr_floor : stepTo (operands 24 (-7) (1))
    (fun t => decide (t.ax = -4 ∧ t.sp = 0x31000)) = true := by decide
theorem test_shr_min : stepTo (operands 24 (0x8000000000000000) (63))
    (fun t => decide (t.ax = -1 ∧ t.sp = 0x31000)) = true := by decide
theorem test_add_wraps : stepTo (operands 25 (0x7FFFFFFFFFFFFFFF) (1))
    (fun t => decide (t.ax = 0x8000000000000000 ∧ t.sp = 0x31000)) = true := by decide
theorem test_add : stepTo (operands 25 (10) (20))
    (fun t => decide (t.ax = 30 ∧ t.sp = 0x31000)) = true := by decide
theorem test_sub : stepTo (operands 26 (10) (20))
    (fun t => decide (t.ax = -10 ∧ t.sp = 0x31000)) = true := by decide
theorem test_sub_min : stepTo (operands 26 (0) (0x8000000000000000))
    (fun t => decide (t.ax = 0x8000000000000000 ∧ t.sp = 0x31000)) = true := by decide
theorem test_mul_min : stepTo (operands 27 (0x8000000000000000) (-1))
    (fun t => decide (t.ax = 0x8000000000000000 ∧ t.sp = 0x31000)) = true := by decide
theorem test_mul_high : stepTo (operands 27 (0x100000000) (0x100000000))
    (fun t => decide (t.ax = 0 ∧ t.sp = 0x31000)) = true := by decide
theorem test_div_truncates : stepTo (operands 28 (-7) (2))
    (fun t => decide (t.ax = -3 ∧ t.sp = 0x31000)) = true := by decide
theorem test_div_min : stepTo (operands 28 (0x8000000000000000) (2))
    (fun t => decide (t.ax = 0xC000000000000000 ∧ t.sp = 0x31000)) = true := by decide
theorem test_mod_sign : stepTo (operands 29 (-7) (2))
    (fun t => decide (t.ax = -1 ∧ t.sp = 0x31000)) = true := by decide
theorem test_mod_divisor_sign : stepTo (operands 29 (7) (-2))
    (fun t => decide (t.ax = 1 ∧ t.sp = 0x31000)) = true := by decide
theorem test_div_zero : stepTo (operands 28 7 0)
    (faulted (operands 28 7 0) .divZero 7) = true := by decide
theorem test_div_overflow : stepTo (operands 28 0x8000000000000000 (-1))
    (faulted (operands 28 0x8000000000000000 (-1)) .divOverflow 0x8000000000000000) = true := by decide
theorem test_mod_zero : stepTo (operands 29 7 0)
    (faulted (operands 29 7 0) .divZero 7) = true := by decide
theorem test_mod_overflow : stepTo (operands 29 0x8000000000000000 (-1))
    (faulted (operands 29 0x8000000000000000 (-1)) .divOverflow 0x8000000000000000) = true := by decide
theorem test_shl_64_goes_on : stepTo (operands 23 3 64)
    (fun t => decide (t.sp = 0x31000 ∧ t.pc = 0x10008 ∧ t.status = .running)) = true := by decide
theorem test_shr_minus_one_goes_on : stepTo (operands 24 3 (-1))
    (fun t => decide (t.sp = 0x31000 ∧ t.pc = 0x10008 ∧ t.status = .running)) = true := by decide

/-! ### Loads, stores, push (vectors L1 to L12) -/
theorem test_L1 : stepTo ({ withData (prog [9]) [(0, 42)] with ax := 0x20000 })
    (fun t => decide (t.ax = 42)) = true := by decide
theorem test_L2 : stepTo ({ withData (prog [10]) [(0, 0xFF)] with ax := 0x20000 })
    (fun t => decide (t.ax = -1)) = true := by decide
theorem test_L2_zero : stepTo ({ withData (prog [10]) [(0, 0xFF)] with ax := 0x20000, par := { Config.params with lcExtend := .zero } })
    (fun t => decide (t.ax = 255)) = true := by decide
theorem test_L4 : stepTo ({ atStack (prog [11]) 0x30FF8 [(0xFF8, 0x20000)] with ax := 7 })
    (fun t => cellIs t 0x20000 7 && decide (t.sp = 0x31000 ∧ t.ax = 7)) = true := by decide
theorem test_L5 : stepTo ({ atStack (prog [11]) 0x30FF8 [(0xFF8, 0x20003)] with ax := 7 })
    (faulted ({ atStack (prog [11]) 0x30FF8 [(0xFF8, 0x20003)] with ax := 7 }) .dataMisaligned 0x20003) = true := by decide
theorem test_L6 : stepTo (prog [11])
    (faulted (prog [11]) .stackRange 0x31000) = true := by decide
theorem test_L7 : stepTo ({ atStack (prog [12]) 0x30FF8 [(0xFF8, 0x20008)] with ax := 0x141 })
    (fun t => cellIs t 0x20008 0x41 && decide (t.sp = 0x31000 ∧ t.ax = 0x41)) = true := by decide
theorem test_L9 : stepTo ({ atStack (prog [12]) 0x30FF8 [(0xFF8, 0x30FF8)] with ax := 0x55 })
    (fun t => cellIs t 0x30FF8 0x30F55 && decide (t.sp = 0x31000)) = true := by decide
theorem test_L10 : stepTo ({ prog [13] with ax := 10 })
    (fun t => cellIs t 0x30FF8 10 && decide (t.sp = 0x30FF8)) = true := by decide
theorem test_L11 : stepTo ({ prog [13] with sp := 0x30000 })
    (faulted ({ prog [13] with sp := 0x30000 }) .stackRange 0x2FFF8) = true := by decide
theorem test_L12 : stepTo ({ atStack (prog [11]) 0x30FF8 [(0xFF8, 0x10008)] with ax := 0x26 })
    (fun t => cellIs t 0x10008 0x26 && decide (t.opCounter = 1)) = true := by decide

/-! ### Host calls (vectors H1 to H13, P5) -/
/-- The stack of a call with three arguments, pushed in this order. -/
def called (op a b c : Word) : State := atStack (prog [op]) 0x30FE8 [(0xFF8, a), (0xFF0, b), (0xFE8, c)]

/-- The state of vector H7: MALC has returned 0x7F0000001000, 16 bytes. -/
def heapState (op ptr : Word) : State :=
  { atStack (prog [op]) 0x30FF8 [(0xFF8, ptr)] with
    hmem := HostMemory.allocate [] 0x7F0000001000 16 [0x5A]
    heap := [(0x7F0000001000, 16)] }

/-- The state of P5 at its PRTF: the format "%d" and a newline, 42, and the count 2 in the ADJ that follows. -/
def printing : State :=
  withData (atStack (prog [33, 7, 2]) 0x30FF0 [(0xFF8, 0x20000), (0xFF0, 42)]) [(0, 0x0A6425)]
theorem test_H1 : stepTo (answering (withData (atStack (prog [30]) 0x30FF0 [(0xFF8, 0x20000)]) [(0, 0x7478742E61)]) 3 [])
    (fun t => decide (t.ax = 3 ∧ t.sp = 0x30FF0 ∧ t.requests = [.opn 0x20000 0])) = true := by decide
theorem test_H2 : stepTo (answering (called 31 3 0x20100 4) 4 [0x61, 0x62, 0x63, 0x64])
    (fun t => cellIs t 0x20100 0x64636261 && decide (t.ax = 4 ∧ t.requests = [.read 3 0x20100 4])) = true := by decide
theorem test_H3 : stepTo (answering (called 31 3 0x20100 0) 0 [])
    (fun t => cellIs t 0x20100 0 && decide (t.ax = 0)) = true := by decide
theorem test_H4 : stepTo (answering (atStack (prog [32]) 0x30FF8 [(0xFF8, 3)]) 0 [])
    (fun t => decide (t.ax = 0 ∧ t.requests = [.clos 3])) = true := by decide
theorem test_H5 : stepTo (answering printing 3 [])
    (fun t => decide (t.ax = 3 ∧ t.requests = [.prtf 0x20000 42 0 0 0 0])) = true := by decide
theorem test_prtf_count_uncommitted : stepTo (answering { printing with opCounter := 2 } 3 [])
    (faulted (answering { printing with opCounter := 2 } 3 []) .fetchUncommitted 0x10010) = true := by decide
theorem test_H6 : stepTo (answering (atStack (prog [34]) 0x30FF8 [(0xFF8, 16)]) 0x7F0000001000 [0x5A])
    (fun t => decide (t.ax = 0x7F0000001000 ∧ t.byteAt 0x7F0000001000 = some 0x5A
      ∧ (t.byteAt 0x7F000000100F).isSome = true ∧ t.byteAt 0x7F0000001010 = none)) = true := by decide
theorem test_H7 : stepTo (answering (heapState 35 0x7F0000001000) 77 [])
    (fun t => decide (t.ax = 77 ∧ t.byteAt 0x7F0000001000 = none ∧ t.heap = [])) = true := by decide
theorem test_H8 : stepTo (answering { heapState 35 0x7F0000001000 with hmem := [], heap := [] } 0 [])
    (faulted (answering { heapState 35 0x7F0000001000 with hmem := [], heap := [] } 0 []) .hostFault 0x7F0000001000) = true := by decide
theorem test_H9 : stepTo (answering (called 36 0x20000 0x41 3) 0 [])
    (fun t => cellIs t 0x20000 0x414141 && decide (t.ax = 0x20000)) = true := by decide
theorem test_H10 : stepTo (answering (called 36 0x20FFE 0x41 4) 0 [])
    (faulted (answering (called 36 0x20FFE 0x41 4) 0 []) .hostFault 0x21000) = true := by decide
theorem test_H11 : stepTo (answering (withData (called 37 0x20000 0x20008 3) [(0, 0x636261), (8, 0x646261)]) (-7) [])
    (fun t => decide (t.ax.toInt < 0)) = true := by decide
theorem test_H12 : stepTo (answering (called 37 0x20000 0x20008 0) 5 [])
    (fun t => decide (t.ax = 0)) = true := by decide
theorem test_H13 : stepTo (answering (atStack (prog [30]) 0x30FF8 [(0xFF8, 0x20000)]) 0 [])
    (faulted (answering (atStack (prog [30]) 0x30FF8 [(0xFF8, 0x20000)]) 0 []) .stackRange 0x31000) = true := by decide
theorem test_host_never_answers : step { atStack (prog [32]) 0x30FF8 [(0xFF8, 3)] with replies := [none] }
    = .fault .hostNeverAnswers := by rfl

/-! ### Halt and the host interface (vectors E1, E2, I1 to I8, P4) -/
theorem test_E1 : stepTo (atStack (prog [38]) 0x30FF8 [(0xFF8, -5)])
    (fun t => decide (t.status = .exit ∧ t.exitValue = -5 ∧ t.sp = 0x30FF8 ∧ t.pc = 0x10008)) = true := by decide
theorem test_E2 : stepTo (prog [38])
    (faulted (prog [38]) .stackRange 0x31000) = true := by decide
theorem test_I1 : ({ State.reset with opCounter := 511 }.append 5).1 = .ok
    ∧ { State.reset with opCounter := 512 }.append 5 = (.opCounterOverflow, { State.reset with opCounter := 512 }) := by decide
theorem test_I2 : (State.reset.putConstant 7).1 = .placed 0x20000
    ∧ ((State.reset.putConstant 7).2.putConstant 0x4142).1 = .placed 0x20008
    ∧ ((State.reset.putConstant 7).2.putConstant 0x4142).2.dataCursor = 0x20010 := by decide
theorem test_I3 : { State.reset with dataCursor := 0x21000 }.putConstant 7
    = (.dataOverflow, { State.reset with dataCursor := 0x21000 }) := by decide
theorem test_I4 : { State.reset with opCounter := 11 }.nextCodeAddress = 0x10058 := by decide
theorem test_I5 : { State.reset with pc := 0x10058 }.programCounterOffset = 11 := by decide

/-- What setup_entry leaves, or the state before where it fails. -/
def entered (s : State) (entry argc argv : Word) : State :=
  match s.setupEntry entry argc argv with
  | .ok t => t
  | .error _ => s

theorem test_I6_cells : (let t := entered State.reset 0x10058 2 0x20000
    cellIs t 0x30FF8 38 && cellIs t 0x30FF0 13 && cellIs t 0x30FE8 2 && cellIs t 0x30FE0 0x20000
      && cellIs t 0x30FD8 0x30FF0) = true := by decide
theorem test_I6_registers : (let t := entered State.reset 0x10058 2 0x20000
    decide (t.bp = 0x30FE0 ∧ t.sp = 0x30FD8 ∧ t.pc = 0x10058 ∧ t.status = .init)) = true := by decide
theorem test_I7 : (prog [1, 10, 13, 39, 1]).disassemble
    = [.instr 0 "IMM" (some 10), .instr 2 "PUSH" none, .unknown 3, .incomplete 4 1] := by decide
theorem test_I8 : { prog [1, 10] with status := .exit, exitValue := 120, ax := 120, cycle := 121 }.resetMachine
    = State.reset := by decide
theorem test_construct_refuses : construct (Params.mk 40 0x10000 0x20000 0x30000 .sign) = none := by decide

/-! ### Witnesses: for every statement with hypotheses, a state and operands that meet them, clause by clause -/

/-- The form of memory and the control registers, checked. -/
def checks (s : State) : Bool :=
  s.par.wf && Memory.wf s.par.poolSize s.code && Memory.wf s.par.poolSize s.data && Memory.wf s.par.poolSize s.stack
    && HostMemory.wf s.par s.hmem
    && decide (s.opCounter ≤ cap s.par ∧ s.par.dataBase ≤ s.dataCursor
      ∧ s.dataCursor ≤ s.par.dataBase + s.par.poolSize ∧ s.dataCursor % 8 = 0
      ∧ s.status = .running ∧ s.exitValue = 0 ∧ s.faultCause = .none ∧ s.faultPc = 0 ∧ s.faultInfo = 0)

theorem inv_of_checks {s : State} (h : checks s = true) (hh : HeapOk s.hmem s.heap) : Inv s := by
  simp only [checks, Bool.and_eq_true, decide_eq_true_eq] at h
  obtain ⟨⟨⟨⟨⟨h1, h2⟩, h3⟩, h4⟩, h5⟩, h6, h7, h8, h9, h10, h11, h12, h13, h14⟩ := h
  exact ⟨h1, h2, h3, h4, h5, hh, h6, h7, h8, h9, ⟨by simp [h10], fun _ => h11, by simp [h10, h12], by simp [h10, h12],
    fun _ => ⟨h13, h14⟩⟩⟩

theorem heapOk_nil : HeapOk [] [] := ⟨rfl, by simp, by simp, by simp⟩

theorem heapOk_one : HeapOk (HostMemory.allocate [] 0x7F0000001000 16 [0x5A]) [(0x7F0000001000, 16)] := by
  refine ⟨rfl, by simp, fun b hb x hx => ?_, fun b hb c hc hne => ?_⟩
  · simp only [List.mem_singleton] at hb; subst hb
    simp only [covers] at hx
    rw [HostMemory.lookup_allocate, if_pos hx]; rfl
  · simp only [List.mem_singleton] at hb hc; subst hb hc; exact absurd rfl hne

/-- A Machine that runs, with one live range of host memory. -/
def live (op ptr : Word) (cursor : Nat) : State :=
  answering { heapState op ptr with dataCursor := cursor, status := .running } 77 []

theorem inv_live_free : Inv (live 35 0x7F0000001000 0x20000) := inv_of_checks (by decide) heapOk_one

theorem witness_DecodeOfEncode : (Instr.lea 0).wf = true ∧ Instr.exit.wf = true := by decide
theorem witness_EncodeOfDecode : decodeBytes [13, 0, 0, 0, 0, 0, 0, 0, 7] = .ok (.push, [7]) := by decide
theorem witness_OpcodeCellValidity : ¬ (0 ≤ (39 : Word).toInt ∧ (39 : Word).toInt ≤ 38)
    ∧ ¬ (0 ≤ (-1 : Word).toInt ∧ (-1 : Word).toInt ≤ 38) := by decide
theorem witness_OpcodeCellTellsWidth : decodeInstr 7 5 = some (.adj 5) ∧ decodeInstr 8 5 = some .lev
    ∧ 7 < (8 : Word).toInt ∧ (-1 : Word).toInt < 0 := by decide

theorem witness_StepKeepsInvariant : Inv (live 35 0x7F0000001000 0x20000)
    ∧ ∃ t, step (live 35 0x7F0000001000 0x20000) = .next t := ⟨inv_live_free, next_of_stepTo (by decide)⟩
theorem witness_InvariantAtReset : ∃ s, construct (Params.mk 48 8 56 104 .zero) = some s := ⟨_, rfl⟩
theorem witness_HostOperationsKeepInvariant : Inv (live 35 0x7F0000001000 0x20FF8)
    ∧ ∃ t, (live 35 0x7F0000001000 0x20FF8).setupEntry 1 2 3 = .ok t :=
  ⟨inv_of_checks (by decide) heapOk_one, ⟨_, rfl⟩⟩
theorem witness_ResetValues : (∃ t, t = (live 35 0 0x20FF8).resetMachine)
    ∧ ∃ t, construct (live 35 0 0x20FF8).par = some t := ⟨⟨_, rfl⟩, ⟨_, rfl⟩⟩

theorem witness_StepRunsDecodedInstruction_two : (prog [1, 10]).status.halted = false ∧ (prog [1, 10]).stalls = false
    ∧ (prog [1, 10]).fetch (prog [1, 10]).pc = .ok 1
    ∧ (widthCells 1 = 2 → (prog [1, 10]).fetch ((prog [1, 10]).pc + 8) = .ok 10)
    ∧ decodeBytes (cellBytes 1 ++ if widthCells 1 = 2 then cellBytes 10 else []) = .ok (.imm 10, []) := by decide
theorem witness_StepRunsDecodedInstruction_one : (prog [13]).status.halted = false ∧ (prog [13]).stalls = false
    ∧ (prog [13]).fetch (prog [13]).pc = .ok 13
    ∧ decodeBytes (cellBytes 13 ++ if widthCells 13 = 2 then cellBytes 0 else []) = .ok (.push, []) := by decide
theorem witness_GuardStallsExactly : (prog [1]).par.wf = true ∧ ((prog [1]).request .guarded false).stalls = true
    ∧ (State.reset.request .guarded false).stalls = true ∧ ((prog [1, 10]).request .guarded false).stalls = false
    ∧ ((prog [-1]).request .guarded false).stalls = false
    ∧ ({ State.reset.request .guarded false with status := .exit } : State).stalls = false := by decide
theorem witness_GuardedStepIsBlockingStep : ((prog [1, 10]).request .guarded false).stalls = false
    ∧ ((prog [1, 10]).request .guarded false).mode = .guarded := by decide
theorem witness_FetchChecksInOrder_segment : Config.params.wf = true ∧ (prog [1]).fetch 0x20000 = .error ⟨.fetchSegment, 0x20000⟩
    ∧ (prog [1]).fetch 0x10FFC = .error ⟨.fetchSegment, 0x10FFC⟩ ∧ (prog [1]).fetch 0x31000 = .error ⟨.fetchSegment, 0x31000⟩ := by
  decide
theorem witness_FetchChecksInOrder_misaligned : (prog [1]).fetch 0x10FF4 = .error ⟨.fetchMisaligned, 0x10FF4⟩
    ∧ (prog [1]).fetch 0x30001 = .error ⟨.fetchMisaligned, 0x30001⟩ := by decide
theorem witness_FetchChecksInOrder_committed : (prog [1]).fetch 0x10008 = .error ⟨.fetchUncommitted, 0x10008⟩
    ∧ (prog [1]).fetch 0x10000 = .ok 1 ∧ (prog [1]).fetch 0x30000 = .ok 0 ∧ (prog [1]).fetch 0x30FF8 = .ok 0 := by decide
theorem witness_FetchFaultsArePrecise : State.reset.status.halted = false ∧ State.reset.stalls = false
    ∧ State.reset.fetch State.reset.pc = .error ⟨.fetchUncommitted, 0x10000⟩ ∧ (prog [1]).status.halted = false
    ∧ (prog [1]).stalls = false ∧ (prog [1]).fetch (prog [1]).pc = .ok 1
    ∧ (prog [1]).fetch ((prog [1]).pc + 8) = .error ⟨.fetchUncommitted, 0x10008⟩ := by decide
theorem witness_UnknownOpcodeIsAnError : (prog [39]).status.halted = false ∧ (prog [39]).stalls = false
    ∧ (prog [39]).fetch (prog [39]).pc = .ok 39 ∧ ¬ (0 ≤ (39 : Word).toInt ∧ (39 : Word).toInt ≤ 38) := by decide
theorem witness_EveryFaultIsPrecise : State.reset.status.halted = false
    ∧ stepTo State.reset (fun t => decide (t.status = .fault)) = true := by decide
theorem witness_StatusTransitions_halted : ({ State.reset with status := .exit } : State).status = .exit
    ∧ ({ State.reset with status := .error } : State).status = .error
    ∧ ({ State.reset with status := .fault } : State).status = .fault := by decide
theorem witness_StatusTransitions_fetched : (prog [1]).status = .init ∧ (prog [1]).fetchInstr = .trap ⟨.fetchUncommitted, 0x10008⟩
    ∧ (prog [39]).fetchInstr = .unknown 39 ∧ (prog [38]).fetchInstr = .instr .exit ∧ (prog [13]).fetchInstr = .instr .push
    ∧ ((prog [1]).request .guarded false).stalls = true ∧ (prog [1]).stalls = false := by decide
theorem witness_StatusTransitions_next : (∃ t, step (prog [1]) = .next t) ∧ (∃ t, step (prog [39]) = .next t)
    ∧ (∃ t, step (prog [38]) = .next t) ∧ (∃ t, step (prog [13]) = .next t)
    ∧ stepTo (atStack (prog [38]) 0x30FF8 []) (fun t => decide (t.status = .exit)) = true
    ∧ stepTo (prog [39]) (fun t => decide (t.status = .error)) = true :=
  ⟨next_of_stepTo (by decide), next_of_stepTo (by decide), next_of_stepTo (by decide), next_of_stepTo (by decide),
    by decide, by decide⟩
theorem witness_StepCountsAndCommitsNothing : (∃ t, step (prog [13]) = .next t) ∧ (∃ t, step (prog [1]) = .next t)
    ∧ ∃ t, step (atStack (prog [11]) 0x30FF8 [(0xFF8, 0x10008)]) = .next t :=
  ⟨next_of_stepTo (by decide), next_of_stepTo (by decide), next_of_stepTo (by decide)⟩

/-- The outcome a request returned with, if it returned. -/
def returned (r : RunReport) : Option (Status × Bool × Word) :=
  match r with
  | .returned st b v _ => some (st, b, v)
  | .goingOn _ => none
  | .stopped _ => none
  | .refused _ => none

theorem witness_RunsReturnWhenHaltedOrStalled : Inv (live 38 5 0x20000)
    ∧ returned ((live 38 5 0x20000).run true 1) = some (.exit, false, 5)
    ∧ returned ((live 1 5 0x20000).run true 1) = some (.fault, false, 0)
    ∧ returned ((live 1 5 0x20000).runAvailable true 1) = some (.running, true, 0)
    ∧ returned (({ State.reset with status := .error } : State).runAvailable true 1) = some (.error, false, 0)
    ∧ returned ((live 13 5 0x20000).run true 1) = none :=
  ⟨inv_of_checks (by decide) heapOk_one, by decide, by decide, by decide, by decide, by decide⟩
theorem witness_TraceEventPerInstruction : (∃ t, exec .push State.reset = .next t)
    ∧ ∃ t, exec .lev ((prog [8]).request .blocking true) = .next t := ⟨⟨_, rfl⟩, ⟨_, rfl⟩⟩

/-- exec answers a state with `p`. -/
def execTo (i : Instr) (s : State) (p : State → Bool) : Bool :=
  match exec i s with
  | .next t => p t
  | .fault _ => false
  | .refused _ => false

theorem witness_RegisterWriters : execTo (.ent 0) State.reset (fun t => decide (t.bp ≠ State.reset.bp ∧ t.sp ≠ State.reset.sp)) = true
    ∧ execTo (.imm 1) State.reset (fun t => decide (t.ax ≠ State.reset.ax)) = true
    ∧ execTo .exit (atStack State.reset 0x30FF8 [(0xFF8, 5)]) (fun t => decide (t.exitValue ≠ 0)) = true := by decide

theorem witness_RouteSelectsSegment : Config.params.wf = true ∧ route Config.params 0x10FF8 8 = .seg .code 0xFF8
    ∧ route Config.params 0x10FF9 8 = .straddle ∧ route Config.params 0xFFF9 8 = .straddle
    ∧ route Config.params 0xFFF8 8 = .hostMem 0xFFF8 ∧ route Config.params 0xFFFFFFFFFFFFFFF8 8 = .hostMem 0xFFFFFFFFFFFFFFF8
    ∧ route Config.params 0xFFFFFFFFFFFFFFF9 8 = .straddle := by decide

theorem next_write {s : State} {a v : Word} {n : Nat} (h : (s.memWrite a n v).isOk = true) : ∃ t, s.memWrite a n v = .ok t := by
  cases hw : s.memWrite a n v with
  | ok t => exact ⟨t, rfl⟩
  | error e => rw [hw] at h; simp [Except.isOk, Except.toBool] at h

theorem witness_DataWriteThenRead : (live 35 0 0x20000).par.wf = true ∧ (∃ t, (live 35 0 0x20000).memWrite 0x20FF8 8 5 = .ok t)
    ∧ (∃ t, (live 35 0 0x20000).memWrite 0x10FFF 1 5 = .ok t) ∧ (∃ t, (live 35 0 0x20000).memWrite 0x7F0000001008 8 5 = .ok t) :=
  ⟨by decide, next_write (by decide), next_write (by decide), next_write (by decide)⟩
theorem witness_DataAccessChecks_address : route (live 35 0 0x20000).par 0x20FFC 8 = .straddle
    ∧ route (live 35 0 0x20000).par 0x7F0000001009 8 = .hostMem 0x7F0000001009
    ∧ (live 35 0 0x20000).byteAt (0x7F0000001009 + BitVec.ofNat 64 6) = some 0
    ∧ (live 35 0 0x20000).byteAt (0x7F0000001009 + BitVec.ofNat 64 7) = none := by decide
theorem witness_DataAccessChecks_misaligned : route (live 35 0 0x20000).par 0x20FF7 8 = .seg .data 0xFF7
    ∧ (0x20FF7 : Word).toNat % 8 ≠ 0 := by decide
theorem witness_DataAccessChecks_ok : route (live 35 0 0x20000).par 0x7F0000001008 8 = .hostMem 0x7F0000001008
    ∧ HostMemory.allocated (live 35 0 0x20000).hmem 0x7F0000001008 8 = true ∧ (0x7F0000001008 : Word).toNat % 8 = 0 := by decide

theorem stackCell_low : IsStackCell Config.params 0x30000 := ⟨by decide, by decide, by decide⟩
theorem stackCell_high : IsStackCell Config.params 0x30FF8 := ⟨by decide, by decide, by decide⟩
theorem not_stackCell_end : ¬ IsStackCell Config.params 0x31000 := fun h => absurd h.2.1 (by decide)
theorem not_stackCell_below : ¬ IsStackCell Config.params 0x2FFF8 := fun h => absurd h.1 (by decide)
theorem not_stackCell_misaligned : ¬ IsStackCell Config.params 0x30FF4 := fun h => absurd h.2.2 (by decide)
theorem witness_StackAccessChecks : State.reset.par.wf = true ∧ IsStackCell State.reset.par 0x30FF8
    ∧ ¬ IsStackCell State.reset.par 0x31000 := ⟨by decide, stackCell_high, not_stackCell_end⟩
theorem witness_PopAfterPush : ∃ t, State.reset.push 5 = .ok t := ⟨_, rfl⟩
theorem witness_CallPushesReturnAddress : State.reset.par.wf = true ∧ IsStackCell State.reset.par (State.reset.sp - 8)
    ∧ ¬ IsStackCell State.reset.par (({ State.reset with sp := 0x30000 } : State).sp - 8) :=
  ⟨by decide, stackCell_high, not_stackCell_below⟩
theorem witness_EntEntersFrame : IsStackCell State.reset.par (({ State.reset with sp := 0x30008 } : State).sp - 8)
    ∧ ¬ IsStackCell State.reset.par (({ State.reset with sp := 0x31008 } : State).sp - 8) :=
  ⟨stackCell_low, not_stackCell_end⟩
theorem witness_PushStoresAx : IsStackCell State.reset.par (State.reset.sp - 8)
    ∧ ¬ IsStackCell State.reset.par (({ State.reset with sp := 0x30FFC } : State).sp - 8) :=
  ⟨stackCell_high, not_stackCell_misaligned⟩
theorem witness_LevLeavesFrame : ({ State.reset with bp := 0x30FF0 } : State).stackRead 0x30FF0 = .ok 0
    ∧ ({ State.reset with bp := 0x30FF0 } : State).stackRead (0x30FF0 + 8) = .ok 0 := by decide
theorem witness_LevLeavesFrame_faults : ¬ IsStackCell State.reset.par State.reset.bp
    ∧ IsStackCell State.reset.par ({ State.reset with bp := 0x30FF8 } : State).bp
    ∧ ¬ IsStackCell State.reset.par (({ State.reset with bp := 0x30FF8 } : State).bp + 8) :=
  ⟨not_stackCell_end, stackCell_high, not_stackCell_end⟩
theorem witness_LiLoadsWord : (withData State.reset [(0xFF8, 42)]).memRead 0x20FF8 8 = .ok 42
    ∧ State.reset.memRead State.reset.ax 8 = .error ⟨.dataAddress, 0⟩ := by decide
theorem witness_LcLoadsByte : State.reset.par.wf = true ∧ ({ State.reset with ax := 0x20FFF } : State).byteAt 0x20FFF = some 0
    ∧ State.reset.byteAt State.reset.ax = none := by decide

/-- A Machine whose stack holds one cell. -/
def holding (v : Word) : State := atStack State.reset 0x30FF8 [(0xFF8, v)]

theorem witness_SiStoresWord : (holding 0x20FF8).par.wf = true ∧ (holding 0x20FF8).stackRead (holding 0x20FF8).sp = .ok 0x20FF8
    ∧ (holding 0x20FF8).dataRoute 0x20FF8 8 = .ok (.seg .data 0xFF8)
    ∧ State.reset.stackRead State.reset.sp = .error ⟨.stackRange, 0x31000⟩
    ∧ (holding 0x20FF9).stackRead (holding 0x20FF9).sp = .ok 0x20FF9
    ∧ (holding 0x20FF9).dataRoute 0x20FF9 8 = .error ⟨.dataAddress, 0x20FF9⟩ := by decide
theorem witness_ScStoresByte : (holding 0x20FFF).stackRead (holding 0x20FFF).sp = .ok 0x20FFF
    ∧ ((holding 0x20FFF).byteAt 0x20FFF).isSome = true ∧ (holding 0x21000).stackRead (holding 0x21000).sp = .ok 0x21000
    ∧ (holding 0x21000).byteAt 0x21000 = none := by decide
theorem witness_BinaryOpcodesPopOnce : State.reset.stackRead State.reset.sp = .error ⟨.stackRange, 0x31000⟩
    ∧ (holding 7).stackRead (holding 7).sp = .ok 7
    ∧ execTo .add (holding 7) (fun t => decide (t.status ≠ .fault)) = true
    ∧ execTo .shl (holding 7) (fun t => decide (t.status ≠ .fault)) = true := by decide
theorem witness_LogicOpcodesBitwise : (holding 12).stackRead (holding 12).sp = .ok 12
    ∧ State.reset.stackRead State.reset.sp = .error ⟨.stackRange, 0x31000⟩ := by decide
theorem witness_CompareOpcodesWriteBool : (holding 0x8000000000000000).stackRead (holding 0x8000000000000000).sp
    = .ok 0x8000000000000000 := by decide
theorem witness_AddSubMulWrap : (holding 0x7FFFFFFFFFFFFFFF).stackRead (holding 0x7FFFFFFFFFFFFFFF).sp
    = .ok 0x7FFFFFFFFFFFFFFF := by decide
theorem witness_ExitRecordsTopOfStack : (holding 7).stackRead (holding 7).sp = .ok 7
    ∧ State.reset.stackRead State.reset.sp = .error ⟨.stackRange, 0x31000⟩ := by decide
theorem witness_ShiftOpcodes : (holding 3).stackRead (holding 3).sp = .ok 3 ∧ (0 : Word).toInt = 0 ∧ (63 : Word).toInt = 63 ∧ ¬ (64 : Word).toInt ≤ 63
    ∧ ¬ 0 ≤ (-1 : Word).toInt := by decide
theorem witness_DivAndModDivide : (0x8000000000000000 : Word).toInt = -2 ^ 63 ∧ (-1 : Word).toInt = -1
    ∧ (0x8000000000000001 : Word).toInt ≠ -2 ^ 63
    ∧ (holding 0x8000000000000000).stackRead (holding 0x8000000000000000).sp = .ok 0x8000000000000000 := by decide

theorem witness_HostCallsTouchOnlyAx : (∃ t, exec .malc (answering (holding 16) 0x7F0000001000 []) = .next t)
    ∧ ∃ t, exec .clos State.reset = .next t := ⟨⟨_, rfl⟩, ⟨_, rfl⟩⟩
theorem witness_HostCallArgumentFaults : State.reset.stackRead State.reset.sp = .error ⟨.stackRange, 0x31000⟩
    ∧ (holding 5).stackRead ((holding 5).sp + 8) = .error ⟨.stackRange, 0x31000⟩
    ∧ (atStack State.reset 0x2FFF8 []).stackRead (0x2FFF8 + 8) = .ok 0
    ∧ (atStack State.reset 0x2FFF8 []).stackRead 0x2FFF8 = .error ⟨.stackRange, 0x2FFF8⟩ := by decide
theorem witness_HostCallArgumentFaults_three : (holding 5).stackRead ((holding 5).sp + 16) = .error ⟨.stackRange, 0x31008⟩
    ∧ (atStack State.reset 0x2FFF0 []).stackRead (0x2FFF0 + 16) = .ok 0
    ∧ (atStack State.reset 0x2FFF0 []).stackRead (0x2FFF0 + 8) = .error ⟨.stackRange, 0x2FFF8⟩
    ∧ (atStack State.reset 0x2FFF8 []).stackRead (0x2FFF8 + 16) = .ok 0 := by decide

/-- OPEN's two arguments, and the string "a" in the last two bytes of the data segment. -/
def opening (path : Word) : State :=
  answering (withData (atStack (prog [30]) 0x30FF0 [(0xFF8, path)]) [(0xFF0, 0x62), (0xFF8, 0x0061000000000000)]) 3 []

theorem string_at : StringAt (opening 0x20FFE) 0x20FFE 1 := by
  refine ⟨by decide, fun i hi => ⟨0x61, ?_⟩, by decide⟩
  have : i = 0 := by omega
  subst this; decide
theorem string_empty : StringAt (opening 0x20FFF) 0x20FFF 0 := ⟨by decide, fun i hi => absurd hi (by omega), by decide⟩
theorem string_stops_at_once : StringStopsAt (opening 0x21000) 0x21000 0 :=
  ⟨by decide, fun i hi => absurd hi (by omega), by decide⟩
theorem string_stops_later : StringStopsAt (withData (opening 0x20FFF) [(0xFF8, 0x6100000000000000)]) 0x20FFF 1 := by
  refine ⟨by decide, fun i hi => ⟨0x61, ?_⟩, by decide⟩
  have : i = 0 := by omega
  subst this; decide
theorem witness_OpenAsksHost : (opening 0x20FFE).stackRead ((opening 0x20FFE).sp + 8) = .ok 0x20FFE
    ∧ (opening 0x20FFE).stackRead (opening 0x20FFE).sp = .ok 0 ∧ (opening 0x20FFE).nextAnswer = some (answer 3 [])
    ∧ StringAt (opening 0x20FFE) 0x20FFE 1 ∧ StringStopsAt (opening 0x21000) 0x21000 0 :=
  ⟨by decide, by decide, by decide, string_at, string_stops_at_once⟩

/-- READ into the last bytes of the data segment. -/
def reading (v : Word) : State := answering (called 31 3 0x20FFE 4) v [0x61, 0x62]

theorem witness_ReadKeepsCountLaw : (reading 2).stackRead ((reading 2).sp + 16) = .ok 3
    ∧ (reading 2).stackRead ((reading 2).sp + 8) = .ok 0x20FFE ∧ (reading 2).stackRead (reading 2).sp = .ok 4
    ∧ (reading 2).nextAnswer = some (answer 2 [0x61, 0x62]) ∧ (answer 2 [0x61, 0x62]).fails = none
    ∧ (readResult 4 2).toInt.toNat = 2 ∧ (⟨2, [], some 0, false⟩ : HostAnswer).fails.isSome = true := by decide
theorem witness_ReadKeepsCountLaw_range : RangeAccessible (reading 2) 0x20FFE 2 ∧ RangeStopsAt (reading 3) 0x20FFE 3 2 := by
  unfold RangeStopsAt RangeAccessible; decide
theorem witness_ReadKeepsCountLaw_law : readResult 4 4 = 4 ∧ readResult 4 5 = -1 ∧ readResult 4 0 = 0 ∧ readResult 4 (-1) = -1
    ∧ readResult 4 (-2) = -1 ∧ readResult (-1) 0x7FFFFFFFFFFFFFFF = 0x7FFFFFFFFFFFFFFF := by decide
theorem witness_ClosAsksHost : (answering (holding 3) 0 []).stackRead (answering (holding 3) 0 []).sp = .ok 3
    ∧ (answering (holding 3) 0 []).nextAnswer = some (answer 0 []) := by decide
theorem witness_PrtfPassesFiveValues_count : (answering printing 3 []).fetch ((answering printing 3 []).pc + 16) = .ok 2
    ∧ (prog [33]).fetch ((prog [33]).pc + 16) = .error ⟨.fetchUncommitted, 0x10010⟩
    ∧ printing.sp + BitVec.ofInt 64 ((2 : Word).toInt * 8) = 0x31000
    ∧ ({ printing with sp := 0x31000 } : State).stackRead (0x31010 - 8) = .error ⟨.stackRange, 0x31008⟩
    ∧ ({ printing with sp := 0x30010 } : State).stackRead (0x30020 - 8 * 4) = .ok 0
    ∧ ({ printing with sp := 0x30010 } : State).stackRead (0x30020 - 8 * 5) = .error ⟨.stackRange, 0x2FFF8⟩ := by decide
theorem witness_PrtfPassesFiveValues_slots : printing.stackRead (0x31000 - 8) = .ok 0x20000
    ∧ printing.stackRead (0x31000 - 16) = .ok 42 ∧ printing.stackRead (0x31000 - 24) = .ok 0
    ∧ printing.stackRead (0x31000 - 32) = .ok 0 ∧ printing.stackRead (0x31000 - 40) = .ok 0
    ∧ printing.stackRead (0x31000 - 48) = .ok 0 := by decide
theorem stringIs_of {s : State} {a : Word} {f : List Byte} (h1 : a.toNat + f.length < 2 ^ 64)
    (h2 : ∀ i < f.length, f.getD i 0 ≠ 0 ∧ s.byteAt (a + BitVec.ofNat 64 i) = some (f.getD i 0))
    (h3 : s.byteAt (a + BitVec.ofNat 64 f.length) = some 0) : StringIs s a f := by
  refine ⟨h1, fun i b hb => ?_, h3⟩
  obtain ⟨hi, rfl⟩ := List.getElem?_eq_some_iff.mp hb
  simpa [List.getD_eq_getElem?_getD, hi] using h2 i hi
theorem witness_PrtfPassesFiveValues_values : (answering printing 3 []).nextAnswer = some (answer 3 [])
    ∧ (answer 3 []).fails = none ∧ StringIs (answering printing 3 []) 0x20000 [0x25, 0x64, 0x0A]
    ∧ NeedsFiveAtMost [0x25, 0x64, 0x0A] ∧ ∀ j x, ¬ NamesString [0x25, 0x64, 0x0A] [42, 0, 0, 0, 0] j x := by
  refine ⟨by decide, rfl, stringIs_of (by decide) (by decide) (by decide), by unfold NeedsFiveAtMost; decide, ?_⟩
  rintro (_ | _ | j) x ⟨h, -⟩ <;> simp [conversions, isPercent, isStringLetter, isValueLetter] at h

/-- A PRTF with the format at 0x20000, two pushed values and an answer that fails with `a`. -/
def twoStrings (format : List (Nat × Word)) (v1 v2 : Word) (a : Option Word) : State :=
  { withData (atStack (prog [33, 7, 3]) 0x30FE8 [(0xFF8, 0x20000), (0xFF0, v1), (0xFE8, v2)]) format with
    replies := [some ⟨3, [], a, false⟩], status := .running }

/-- The format "%s%s", with two strings that cannot be read; the second is the one reported. -/
theorem witness_PrtfPassesFiveValues_unreadable :
    let s := twoStrings [(0, 0x73257325)] 0x21000 0x31000 (some 0x31000)
    Inv s ∧ StringIs s 0x20000 [0x25, 0x73, 0x25, 0x73] ∧ NeedsFiveAtMost [0x25, 0x73, 0x25, 0x73]
    ∧ NamesString [0x25, 0x73, 0x25, 0x73] [0x21000, 0x31000, 0, 0, 0] 0 0x21000
    ∧ NamesString [0x25, 0x73, 0x25, 0x73] [0x21000, 0x31000, 0, 0, 0] 1 0x31000
    ∧ StringStopsAt s 0x21000 0 ∧ StringStopsAt s 0x31000 0 ∧ stepTo s (faulted s .hostFault 0x31000) = true :=
  ⟨inv_of_checks (by decide) heapOk_nil, stringIs_of (by decide) (by decide) (by decide),
    by unfold NeedsFiveAtMost; decide, by unfold NamesString; decide, by unfold NamesString; decide,
    ⟨by decide, fun i hi => absurd hi (by omega), by decide⟩, ⟨by decide, fun i hi => absurd hi (by omega), by decide⟩,
    by decide⟩

/-- The format "%s%s%s%s%s%s" needs six values: an unreadable string need not make it fail. -/
theorem witness_PrtfPassesFiveValues_six :
    let s := twoStrings [(0, 0x7325732573257325), (8, 0x73257325)] 0x21000 0x31000 none
    let f : List Byte := [0x25, 0x73, 0x25, 0x73, 0x25, 0x73, 0x25, 0x73, 0x25, 0x73, 0x25, 0x73]
    StringIs s 0x20000 f ∧ ¬ NeedsFiveAtMost f ∧ stepTo s (fun t => decide (t.ax = 3 ∧ t.status = .running)) = true :=
  ⟨stringIs_of (by decide) (fun i hi => by have hi : i < 12 := hi; interval_cases i <;> decide) (by decide),
    by unfold NeedsFiveAtMost; decide, by decide⟩
theorem witness_PrtfPassesFiveValues_stops :
    StringStopsAt (answering (atStack (prog [33, 7, 2]) 0x30FF0 [(0xFF8, 0x21000)]) 3 []) 0x21000 0 :=
  ⟨by decide, fun i hi => absurd hi (by omega), by decide⟩
theorem inv_malc : Inv (answering { atStack (prog [34]) 0x30FF8 [(0xFF8, 16)] with status := .running } 0x7F0000001000 []) :=
  inv_of_checks (by decide) heapOk_nil
theorem witness_MalcAllocatesFreshRange :
    let s := answering { atStack (prog [34]) 0x30FF8 [(0xFF8, 16)] with status := .running } 0x7F0000001000 []
    Inv s ∧ s.stackRead s.sp = .ok 16 ∧ s.nextAnswer = some (answer 0x7F0000001000 [])
      ∧ (∀ i < 16, s.byteAt (0x7F0000001000 + BitVec.ofNat 64 i) = none) ∧ lookup s.heap 0x7F0000001000 = none :=
  ⟨inv_malc, by decide, by decide, by decide, by decide⟩
theorem witness_FreeReleasesRange : Inv (live 35 0x7F0000001000 0x20000)
    ∧ (live 35 0x7F0000001000 0x20000).stackRead (live 35 0x7F0000001000 0x20000).sp = .ok 0x7F0000001000
    ∧ (live 35 0x7F0000001000 0x20000).nextAnswer = some (answer 77 [])
    ∧ lookup (live 35 0x7F0000001000 0x20000).heap (0x7F0000001000 : Word).toNat = some 16 :=
  ⟨inv_live_free, by decide, by decide, by decide⟩
theorem witness_FreeReleasesRange_zero : Inv (live 35 0 0x20000) ∧ (live 35 0 0x20000).stackRead (live 35 0 0x20000).sp = .ok 0 :=
  ⟨inv_of_checks (by decide) heapOk_one, by decide⟩
theorem witness_FreeReleasesRange_inside : Inv (live 35 0x7F0000001008 0x20000)
    ∧ (live 35 0x7F0000001008 0x20000).stackRead (live 35 0x7F0000001008 0x20000).sp = .ok 0x7F0000001008
    ∧ lookup (live 35 0x7F0000001008 0x20000).heap (0x7F0000001008 : Word).toNat = none :=
  ⟨inv_of_checks (by decide) heapOk_one, by decide, by decide⟩
theorem witness_MsetFillsRange : (answering (called 36 0x20FFE 0x41 4) 0 []).stackRead 0x30FF8 = .ok 0x20FFE
    ∧ (answering (called 36 0x20FFE 0x41 4) 0 []).stackRead 0x30FF0 = .ok 0x41
    ∧ (answering (called 36 0x20FFE 0x41 4) 0 []).stackRead 0x30FE8 = .ok 4
    ∧ (answering (called 36 0x20FFE 0x41 4) 0 []).nextAnswer = some (answer 0 []) := by decide
theorem witness_MsetFillsRange_range : RangeAccessible (answering (called 36 0x20FFC 0x41 4) 0 []) 0x20FFC 4
    ∧ RangeStopsAt (answering (called 36 0x20FFE 0x41 4) 0 []) 0x20FFE 4 2
    ∧ RangeStopsAt (answering (called 36 0x21000 0x41 4) 0 []) 0x21000 4 0 := by
  unfold RangeStopsAt RangeAccessible; decide
theorem witness_McmpComparesRanges : (answering (called 37 0x20000 0x20FFE 2) 0 []).stackRead 0x30FF8 = .ok 0x20000
    ∧ (answering (called 37 0x20000 0x20FFE 2) 0 []).stackRead 0x30FF0 = .ok 0x20FFE
    ∧ (answering (called 37 0x20000 0x20FFE 2) 0 []).stackRead 0x30FE8 = .ok 2
    ∧ (answering (called 37 0x20000 0x20FFE 2) 0 []).nextAnswer = some (answer 0 []) := by decide
theorem witness_McmpComparesRanges_range : RangeAccessible (answering (called 37 0x20000 0x20FFE 2) 0 []) 0x20FFE 2
    ∧ RangeAccessible (answering (called 37 0x20000 0x20FFE 3) 0 []) 0x20000 3
    ∧ RangeStopsAt (answering (called 37 0x20000 0x20FFE 3) 0 []) 0x20FFE 3 2 := by
  unfold RangeStopsAt RangeAccessible; decide
theorem witness_McmpComparesRanges_bytes :
    let s := withData (called 37 0x20000 0x20008 3) [(0, 0x636261), (8, 0x646261)]
    (∀ i < 2, s.byteAt (0x20000 + BitVec.ofNat 64 i) = s.byteAt (0x20008 + BitVec.ofNat 64 i))
      ∧ s.byteAt (0x20000 + BitVec.ofNat 64 2) = some 0x63 ∧ s.byteAt (0x20008 + BitVec.ofNat 64 2) = some 0x64 := by decide
theorem witness_AppendCommitsCell : ({ State.reset with opCounter := 511 } : State).opCounter < cap State.reset.par
    ∧ cap State.reset.par ≤ ({ State.reset with opCounter := 512 } : State).opCounter := by decide
theorem witness_PutConstantPlacesWord : Inv (live 35 0 0x20FF8) ∧ Inv (live 35 0 0x21000)
    ∧ (live 35 0 0x20FF8).dataCursor + 8 ≤ Config.params.dataBase + Config.params.poolSize
    ∧ Config.params.dataBase + Config.params.poolSize < (live 35 0 0x21000).dataCursor + 8 :=
  ⟨inv_of_checks (by decide) heapOk_one, inv_of_checks (by decide) heapOk_one, by decide, by decide⟩
theorem witness_SetupEntryBuildsStub : (Params.mk 48 8 56 104 .sign).wf = true := by decide
theorem witness_DisassembleListsProgram :
    let items := [CodeItem.instr (.imm 10), .unknown 39, .instr .push]
    let cells := items.flatMap CodeItem.cells ++ (some (7 : Word)).toList
    (∀ c, CodeItem.unknown c ∈ items → ¬ (0 ≤ c.toInt ∧ c.toInt ≤ 38))
    ∧ (∀ op ∈ some (7 : Word), 0 ≤ op.toInt ∧ op.toInt ≤ 7)
    ∧ (prog [1, 10, 39, 13, 7]).opCounter = cells.length
    ∧ (∀ k < (prog [1, 10, 39, 13, 7]).opCounter, some ((prog [1, 10, 39, 13, 7]).codeCell k) = cells[k]?)
    ∧ (prog [1, 10, 39, 13, 7]).disassemble
      = [.instr 0 "IMM" (some 10), .unknown 2, .instr 3 "PUSH" none, .incomplete 4 7] := by
  refine ⟨fun c hc => ?_, fun op h => by cases h; decide, by decide, by decide, by decide⟩
  simp only [List.mem_cons, List.not_mem_nil, or_false, CodeItem.unknown.injEq, reduceCtorEq, false_or] at hc
  subst hc; decide

end Sys2Proof.Tests
end

section
/-! PROOFS. The statements about control transfer (spec/42_control_transfer.md). JMP, JZ, JNZ, ADJ and LEV write pc, bp
and sp alone, so one lemma says what all of them leave unchanged; CALL is a push followed by a write of pc. -/

namespace Sys2Proof.Machine

/-! ### What a write of pc, bp and sp leaves unchanged -/

/-- An effect that writes pc, bp and sp alone leaves the control registers as the start of the instruction has set
them (R103, R104, R107), and all else as before the instruction. -/
theorem kept_of_pointer_writes {i : Instr} {s t : State}
    (h : t = (((s.begun i).setPc t.pc).setBp t.bp).setSp t.sp) :
    t.ax = s.ax ∧ Retired i s t ∧ PortQuiet s t ∧ BytesKept s t := by
  rw [h]
  exact ⟨by simp, by constructor <;> simp, by constructor <;> simp, fun x => by simp⟩

theorem retired_setPc {i : Instr} {s t : State} (h : Retired i s t) (w : Word) : Retired i s (t.setPc w) := by
  obtain ⟨status, cycle, trace, traceOn, mode, par, op, cursor, exitValue, cause, pc, info⟩ := h
  exact ⟨status, cycle, trace, traceOn, mode, par, op, cursor, exitValue, cause, pc, info⟩

theorem portQuiet_setPc {s t : State} (h : PortQuiet s t) (w : Word) : PortQuiet s (t.setPc w) := by
  obtain ⟨heap, requests, replies, draws⟩ := h
  exact ⟨heap, requests, replies, draws⟩

theorem bytesHold_setPc {a v : Word} {n : Nat} {t : State} (h : BytesHold a n v t) (w : Word) :
    BytesHold a n v (t.setPc w) := by simpa [BytesHold] using h

theorem bytesKeptOutside_setPc {a : Word} {n : Nat} {s t : State} (h : BytesKeptOutside a n s t) (w : Word) :
    BytesKeptOutside a n s (t.setPc w) := by simpa [BytesKeptOutside] using h

/-! ### CALL -/

/-- R141: CALL where the push succeeds. -/
theorem exec_call_completes {s u : State} {w : Word} (h : (s.begun (.call w)).push (s.pc + 16) = .ok u) :
    exec (.call w) s = .next (u.setPc w) := by
  rw [exec_call]
  refine runInstr_ok ?_
  rw [pc_two rfl, h]; rfl

/-- R141: CALL where the push fails. -/
theorem exec_call_faults {s : State} {w : Word} {e : Trap} (h : (s.begun (.call w)).push (s.pc + 16) = .error e) :
    FaultsWith (exec (.call w) s) e.cause e.info s := by
  rw [exec_call]
  refine faultsWith_runInstr ?_
  rw [pc_two rfl, h]; rfl

/-! ### LEV -/

/-- R62: a stack read fails at an address that is no stack cell. -/
theorem stackRead_of_not {s : State} {a : Word} (h : ¬ IsStackCell s.par a) :
    s.stackRead a = .error ⟨.stackRange, a⟩ := by
  unfold State.stackRead; rw [stackCell_of_not h]; rfl

/-- R62: a stack read succeeds at a stack cell. -/
theorem stackRead_of_isStackCell {s : State} {a : Word} (hp : s.par.wf = true) (h : IsStackCell s.par a) :
    ∃ v, s.stackRead a = .ok v := by
  unfold State.stackRead; rw [stackCell_of_isStackCell hp h]; exact ⟨_, rfl⟩

/-- R146: both pops of LEV succeed. -/
theorem leaveFrame_ok {t : State} {b r : Word} (hb : t.stackRead t.bp = .ok b)
    (hr : t.stackRead (t.bp + 8) = .ok r) :
    leaveFrame t = .ok (((t.setSp (t.bp + 8 + 8)).setBp b).setPc r) := by
  unfold leaveFrame
  rw [pop_of_read (v := b) (by simpa using hb)]
  simp only [bind, Except.bind]
  rw [pop_of_read (v := r) (by simpa using hr)]
  rfl

/-- R146: the first pop of LEV, at bp, fails. -/
theorem leaveFrame_first_error {t : State} {e : Trap} (h : t.stackRead t.bp = .error e) :
    leaveFrame t = .error e := by
  unfold leaveFrame
  rw [pop_of_error (e := e) (by simpa using h)]; rfl

/-- R146: the second pop of LEV, at bp + 8, fails. -/
theorem leaveFrame_second_error {t : State} {b : Word} {e : Trap} (hb : t.stackRead t.bp = .ok b)
    (h : t.stackRead (t.bp + 8) = .error e) : leaveFrame t = .error e := by
  unfold leaveFrame
  rw [pop_of_read (v := b) (by simpa using hb)]
  simp only [bind, Except.bind]
  rw [pop_of_error (e := e) (by simpa using h)]

/-! ### JMP, JZ, JNZ -/

@[simp] theorem axZero_begun (s : State) (i : Instr) : (s.begun i).axZero = decide (s.ax = 0) := by
  rw [State.axZero, State.begun_ax]

/-- R104: a branch of two cells that is not taken leaves pc past its operand. -/
theorem setPc_begun_two {i : Instr} (h : i.width = 2) (s : State) : (s.begun i).setPc (s.pc + 16) = s.begun i := by
  rw [← pc_two h s]; rfl

/-- What an instruction leaves whose effect is to set pc. -/
theorem exec_of_setPc {i : Instr} {f : State → Access State} {s : State} {a : Word} (hexec : exec i s = runInstr i f s)
    (h : f (s.begun i) = .ok ((s.begun i).setPc a)) :
    ∃ t, exec i s = .next t ∧ t.pc = a ∧ Retired i s t ∧ PortQuiet s t ∧ BytesKept s t
      ∧ t.bp = s.bp ∧ t.sp = s.sp ∧ t.ax = s.ax := by
  obtain ⟨hax, hret, hport, hbytes⟩ := kept_of_pointer_writes (t := (s.begun i).setPc a) rfl
  exact ⟨_, hexec.trans (runInstr_ok h), rfl, hret, hport, hbytes, by simp, by simp, hax⟩

/-! ### The statements -/

/-- Settles O31: the effect of CALL is a push of the address past the operand, then a write of pc. -/
theorem callPushesReturnAddress : Obligations.CallPushesReturnAddress := by
  unfold Obligations.CallPushesReturnAddress
  refine fun s w hp => ⟨fun hcell => ?_, fun hno => exec_call_faults (push_begun_fault hno)⟩
  obtain ⟨u, hpush, hhold, hkept, hsp, hbp, hax, -, hret, hport⟩ :=
    push_begun (i := .call w) (v := s.pc + 16) hp hcell
  exact ⟨_, exec_call_completes hpush, rfl, hsp, bytesHold_setPc hhold w, bytesKeptOutside_setPc hkept w, hbp, hax,
    retired_setPc hret w, portQuiet_setPc hport w⟩

/-- Settles O34, by the two pops of LEV in order: both succeed, the first fails, or the second fails. -/
theorem levLeavesFrame : Obligations.LevLeavesFrame := by
  unfold Obligations.LevLeavesFrame
  intro s hp
  rw [exec_lev]
  refine ⟨fun b r hb hr => ?_, fun hno => ?_, fun hcell hno => ?_⟩
  · have hok := leaveFrame_ok (t := s.begun .lev) (by simpa using hb) (by simpa using hr)
    obtain ⟨hax, hret, hport, hbytes⟩ := kept_of_pointer_writes (i := .lev) (s := s)
      (t := (((s.begun .lev).setSp ((s.begun .lev).bp + 8 + 8)).setBp b).setPc r) rfl
    have hsp : (s.begun .lev).bp + 8 + 8 = s.bp + 16 := by rw [State.begun_bp, BitVec.add_assoc]; rfl
    exact ⟨_, runInstr_ok hok, hsp, rfl, rfl, hax, hret, hport, hbytes⟩
  · exact faultsWith_runInstr (leaveFrame_first_error (by simpa using stackRead_of_not hno))
  · obtain ⟨b, hb⟩ := stackRead_of_isStackCell hp hcell
    exact faultsWith_runInstr
      (leaveFrame_second_error (b := b) (by simpa using hb) (by simpa using stackRead_of_not hno))

/-- Settles O30: each of the three sets pc, a branch not taken to the address past its operand. -/
theorem jumpsSetPc : Obligations.JumpsSetPc := by
  unfold Obligations.JumpsSetPc
  intro s w p hp
  simp only [List.mem_cons, List.not_mem_nil, or_false] at hp
  obtain rfl | rfl | rfl := hp
  · exact exec_of_setPc (exec_jmp w s) rfl
  · refine exec_of_setPc (exec_jz w s) ?_
    simp only [axZero_begun, decide_eq_true_eq]
    split
    · rfl
    · rw [setPc_begun_two rfl]
  · refine exec_of_setPc (exec_jnz w s) ?_
    simp only [axZero_begun, decide_eq_true_eq]
    split
    · rw [setPc_begun_two rfl]
    · rfl

/-- Settles O33: ADJ adds 8 times the signed operand to sp, writes nothing else and has no access that could fail. -/
theorem adjMovesStackPointer : Obligations.AdjMovesStackPointer := by
  unfold Obligations.AdjMovesStackPointer
  intro s w
  rw [exec_adj]
  obtain ⟨hax, hret, hport, hbytes⟩ := kept_of_pointer_writes
    (t := (s.begun (.adj w)).setSp ((s.begun (.adj w)).sp + cellOffset w)) rfl
  exact ⟨_, runInstr_ok rfl, by rw [State.setSp_sp, State.begun_sp]; rfl, pc_two rfl s, by simp, hax, hret, hport, hbytes⟩

end Sys2Proof.Machine
end

section
/-! PROOFS. The statements about loads and stores (spec/43_load_store.md). The effect of PUSH is one push of ax (R64). -/

namespace Sys2Proof.Machine

/-- R164: PUSH where the push succeeds. -/
theorem exec_push_completes {s t : State} (h : (s.begun .push).push s.ax = .ok t) : exec .push s = .next t := by
  rw [exec_push]
  refine runInstr_ok ?_
  rwa [State.begun_ax]

/-- R164: PUSH where the push fails. -/
theorem exec_push_faults {s : State} {e : Trap} (h : (s.begun .push).push s.ax = .error e) :
    FaultsWith (exec .push s) e.cause e.info s := by
  rw [exec_push]
  refine faultsWith_runInstr ?_
  rwa [State.begun_ax]

/-- Settles O39: the effect of PUSH is a push of ax, which succeeds exactly where sp - 8 is a stack cell. -/
theorem pushStoresAx : Obligations.PushStoresAx := by
  unfold Obligations.PushStoresAx
  refine fun s hp => ⟨fun hcell => ?_, fun hno => exec_push_faults (push_begun_fault hno)⟩
  obtain ⟨t, hpush, hhold, hkept, hsp, hbp, hax, hpc, hret, hport⟩ := push_begun (i := .push) (v := s.ax) hp hcell
  exact ⟨t, exec_push_completes hpush, hsp, hhold, hkept, hpc.trans (pc_one rfl s), hbp, hax, hret, hport⟩

end Sys2Proof.Machine
end

section
/-! PROOFS. The statements about the binary opcodes (spec/44_alu.md). -/

namespace Sys2Proof.Machine

/-- R175: a binary opcode whose pop fails. -/
theorem exec_binary_faults {i : Instr} {f : Word → Word → Access Word}
    (hexec : ∀ s, exec i s = runInstr i (fun t => t.binary f) s) {s : State} {e : Trap}
    (h : s.stackRead s.sp = .error e) : FaultsWith (exec i s) e.cause e.info s := by
  rw [hexec]
  exact faultsWith_runInstr (binary_of_error h f)

/-- R176 to R178: what a binary opcode does whose result is a function `g` of the two operands, bit by bit the
function `b`. -/
theorem exec_bitwise {i : Instr} {g : Word → Word → Word} {b : Bool → Bool → Bool}
    (hexec : ∀ s, exec i s = runInstr i (fun t => t.binary fun x y => .ok (g x y)) s) (hw : i.width = 1)
    (hbit : ∀ x y k, (g x y).getLsbD k = b (x.getLsbD k) (y.getLsbD k)) {s : State} {a : Word}
    (ha : s.stackRead s.sp = .ok a) :
    ∃ t, exec i s = .next t ∧ (∀ k < 64, t.ax.getLsbD k = b (a.getLsbD k) (s.ax.getLsbD k)) ∧ BinaryDone i s t := by
  obtain ⟨t, ht, hax, hdone⟩ := exec_binary_ok hexec hw ha rfl
  exact ⟨t, ht, fun k _ => by rw [hax, hbit], hdone⟩

/-- Settles O41: each opcode's result is a bitwise operation on the two words, and none has a fault but the pop's. -/
theorem logicOpcodesBitwise : Obligations.LogicOpcodesBitwise := by
  unfold Obligations.LogicOpcodesBitwise
  refine fun s => ⟨fun a ha p hp => ?_, fun e he i hi => ?_⟩
  · simp only [List.mem_cons, List.not_mem_nil, or_false] at hp
    obtain rfl | rfl | rfl := hp
    · exact exec_bitwise exec_or rfl (fun _ _ _ => BitVec.getLsbD_or) ha
    · exact exec_bitwise exec_xor rfl (fun _ _ _ => BitVec.getLsbD_xor) ha
    · exact exec_bitwise exec_and rfl (fun _ _ _ => BitVec.getLsbD_and) ha
  · simp only [List.mem_cons, List.not_mem_nil, or_false] at hi
    obtain rfl | rfl | rfl := hi
    · exact exec_binary_faults exec_or he
    · exact exec_binary_faults exec_xor he
    · exact exec_binary_faults exec_and he

end Sys2Proof.Machine
end

section
/-! PROOFS. The statements about the encoding (spec/30_encoding.md): what decoding answers for the bytes of a cell, and
what it has read where it answers an instruction. -/

namespace Sys2Proof

/-! ### What decoding answers -/

/-- R81, R86: a cell that tells the width one decodes by itself. -/
theorem decodeBytes_one {op : Word} {i : Instr} (hv : validOpcode op = true) (hw : widthCells op ≠ 2)
    (hd : decodeInstr op 0 = some i) (rest : List Byte) : decodeBytes (cellBytes op ++ rest) = .ok (i, rest) := by
  simp only [decodeBytes, takeCell_cellBytes, hv, hw, hd, Bool.true_eq_false, if_false]

/-- R82, R86: a cell that tells the width two decodes with the operand cell after it. -/
theorem decodeBytes_two {op imm : Word} {i : Instr} (hv : validOpcode op = true) (hw : widthCells op = 2)
    (hd : decodeInstr op imm = some i) (rest : List Byte) :
    decodeBytes (cellBytes op ++ (cellBytes imm ++ rest)) = .ok (i, rest) := by
  simp [decodeBytes, takeCell_cellBytes, hv, hw, hd]

/-- R88: a cell that is no opcode is refused by name. -/
theorem decodeBytes_unknown {op : Word} (hv : validOpcode op = false) (rest : List Byte) :
    decodeBytes (cellBytes op ++ rest) = .error (.unknownOpcode op) := by
  simp [decodeBytes, takeCell_cellBytes, hv]

/-- R81, R82: the cells decoding has read where it answers an instruction. -/
theorem decodeBytes_ok {bs rest : List Byte} {i : Instr} (h : decodeBytes bs = .ok (i, rest)) :
    ∃ op tail, takeCell bs = some (op, tail) ∧ validOpcode op = true
      ∧ ((widthCells op = 2 ∧ ∃ imm, takeCell tail = some (imm, rest) ∧ decodeInstr op imm = some i)
        ∨ (widthCells op ≠ 2 ∧ tail = rest ∧ decodeInstr op 0 = some i)) := by
  unfold decodeBytes at h
  split at h
  case h_1 => simp at h
  case h_2 op tail htake =>
    refine ⟨op, tail, htake, ?_⟩
    split at h
    · simp at h
    · rename_i hv
      refine ⟨by simpa using hv, ?_⟩
      split at h
      · rename_i hw
        split at h
        · simp at h
        · rename_i imm rest' htake'
          split at h
          · rename_i hd
            simp only [Except.ok.injEq, Prod.mk.injEq] at h
            obtain ⟨rfl, rfl⟩ := h
            exact .inl ⟨hw, imm, htake', hd⟩
          · simp at h
      · rename_i hw
        split at h
        · rename_i hd
          simp only [Except.ok.injEq, Prod.mk.injEq] at h
          obtain ⟨rfl, rfl⟩ := h
          exact .inr ⟨hw, rfl, hd⟩
        · simp at h

/-! ### Encodings, cell by cell -/

/-- R84: the width is two exactly where there is an operand cell. -/
theorem width_eq_two_iff (i : Instr) : i.width = 2 ↔ ∃ w, i.operand = some w := by
  unfold Instr.width
  cases i.operand <;> simp

/-- R80, R82: the bytes of a two-cell instruction. -/
theorem encodeBytes_of_operand {i : Instr} {w : Word} (h : i.operand = some w) :
    encodeBytes i = cellBytes i.opcode ++ cellBytes w := by
  simp [encodeBytes, encode, h]

/-- R80, R81: the bytes of a one-cell instruction. -/
theorem encodeBytes_of_no_operand {i : Instr} (h : i.operand = none) : encodeBytes i = cellBytes i.opcode := by
  simp [encodeBytes, encode, h]

theorem length_encode (i : Instr) : (encode i).length = i.width := by
  unfold encode Instr.width
  cases i.operand <;> rfl

theorem length_encodeBytes (i : Instr) : (encodeBytes i).length = 8 * i.width := by
  have hcell : ∀ v, (cellBytes v).length = 8 := fun v => by simp [cellBytes]
  cases h : i.operand with
  | none => rw [encodeBytes_of_no_operand h, hcell, Instr.width, h]; rfl
  | some w => rw [encodeBytes_of_operand h, List.length_append, hcell, hcell, Instr.width, h]; rfl

/-- R84: the width a decoded opcode cell tells is that of the instruction. -/
theorem widthCells_of_decode {op imm : Word} {i : Instr} (h : decodeInstr op imm = some i) :
    widthCells op = i.width := by
  rw [← (decode_facts h).1, width_opcode]

/-- R83: every value 0..38 has an instruction. -/
theorem decodeInstr_isSome {op : Word} (imm : Word) (h : op.toNat ≤ 38) : (decodeInstr op imm).isSome = true := by
  unfold decodeInstr
  generalize op.toNat = n at h
  interval_cases n <;> rfl

/-- R83, as the statements spell it. -/
theorem validOpcode_iff (op : Word) : validOpcode op = true ↔ 0 ≤ op.toInt ∧ op.toInt ≤ 38 := by simp [validOpcode]

/-- R84, as the statements spell it. -/
theorem widthCells_eq_two_iff (op : Word) : widthCells op = 2 ↔ 0 ≤ op.toInt ∧ op.toInt ≤ 7 := by
  unfold widthCells; split <;> simp_all

/-! ### The statements -/

/-- Settles O1: the opcode cell is valid and tells the instruction's width; then it is decoded with its operand cell,
if it has one. -/
theorem decodeOfEncode : Obligations.DecodeOfEncode := by
  unfold Obligations.DecodeOfEncode
  intro i rest _
  have hd := decodeInstr_opcode i
  cases h : i.operand with
  | none =>
    rw [encodeBytes_of_no_operand h]
    rw [h] at hd
    exact decodeBytes_one (valid_opcode i) (by rw [width_opcode, Ne, width_eq_two_iff, h]; simp) hd rest
  | some w =>
    rw [encodeBytes_of_operand h, List.append_assoc]
    rw [h] at hd
    exact decodeBytes_two (valid_opcode i) (by rw [width_opcode, width_eq_two_iff]; exact ⟨w, h⟩) hd rest

/-- Settles O2: the cells that were read are the instruction's opcode and operand cells. -/
theorem encodeOfDecode : Obligations.EncodeOfDecode := by
  unfold Obligations.EncodeOfDecode
  intro bs rest i h
  obtain ⟨op, tail, hbs, -, ⟨hw, imm, htail, hd⟩ | ⟨hw, rfl, hd⟩⟩ := decodeBytes_ok h
  · obtain ⟨hop, himm, -⟩ := decode_facts hd
    rw [widthCells_of_decode hd, width_eq_two_iff] at hw
    obtain ⟨w, hw⟩ := hw
    rw [encodeBytes_of_operand hw, hop, himm w hw, cellBytes_of_takeCell hbs, cellBytes_of_takeCell htail,
      List.append_assoc]
  · rw [widthCells_of_decode hd, Ne, width_eq_two_iff] at hw
    have hnone : i.operand = none := by simpa [Option.eq_none_iff_forall_ne_some] using hw
    rw [encodeBytes_of_no_operand hnone, (decode_facts hd).1, cellBytes_of_takeCell hbs]

/-- Settles O3: the cells the decoder has an instruction for are the valid ones. -/
theorem opcodeCellValidity : Obligations.OpcodeCellValidity := by
  unfold Obligations.OpcodeCellValidity
  refine ⟨fun op imm => ?_, fun op rest h => ?_⟩
  · rw [← validOpcode_iff, valid_iff]
    refine ⟨fun h => ?_, decodeInstr_isSome imm⟩
    obtain ⟨i, hi⟩ := Option.isSome_iff_exists.mp h
    exact (decode_facts hi).2.2
  · refine decodeBytes_unknown ?_ rest
    rwa [← validOpcode_iff, Bool.not_eq_true] at h

/-- Settles O4: the width an opcode cell tells is the instruction's, and that is two exactly where there is an operand
cell, which is then the one decoded. -/
theorem opcodeCellTellsWidth : Obligations.OpcodeCellTellsWidth := by
  unfold Obligations.OpcodeCellTellsWidth
  refine ⟨fun op imm i h => ?_, fun op h => ?_⟩
  · have hw := widthCells_of_decode h
    refine ⟨by rw [length_encode, hw], by rw [length_encodeBytes, hw], ?_⟩
    rw [hw, width_eq_two_iff]
    have himm := (decode_facts h).2.1
    cases i <;> simp_all [Instr.operand]
  · unfold widthCells
    rw [if_neg (by omega)]

/-- Settles O5, by evaluating the decoder on the seven byte strings. -/
theorem sampleWordsDecode : Obligations.SampleWordsDecode := by
  unfold Obligations.SampleWordsDecode
  exact ⟨rfl, rfl, rfl, rfl, rfl, rfl, rfl⟩

end Sys2Proof
end

section
/-! PROOFS. The statements about the invariant and reset (spec/10_state.md, spec/47_host_interface.md). The invariant is
taken apart into memory (`MemOk`), the two counters (`CountersOk`) and the control registers (`StatusOk`), and each part
is kept by its own argument. -/

namespace Sys2Proof.Machine

/-! ### The three parts of the invariant -/

/-- R27, R28: op_counter and data_cursor are in range. -/
structure CountersOk (s : State) : Prop where
  committed : s.opCounter ≤ cap s.par
  cursorLow : s.par.dataBase ≤ s.dataCursor
  cursorHigh : s.dataCursor ≤ s.par.dataBase + s.par.poolSize
  cursorAligned : s.dataCursor % 8 = 0

theorem inv_iff (s : State) : Inv s ↔ MemOk s ∧ CountersOk s ∧ StatusOk s := by
  constructor
  · rintro ⟨hpar, hcode, hdata, hstack, hhost, hheap, hop, hlow, hhigh, hal, hst⟩
    exact ⟨⟨hpar, hcode, hdata, hstack, hhost, hheap⟩, ⟨hop, hlow, hhigh, hal⟩, hst⟩
  · rintro ⟨⟨hpar, hcode, hdata, hstack, hhost, hheap⟩, ⟨hop, hlow, hhigh, hal⟩, hst⟩
    exact ⟨hpar, hcode, hdata, hstack, hhost, hheap, hop, hlow, hhigh, hal, hst⟩

theorem CountersOk.congr {s t : State} (h : CountersOk s) (hp : t.par = s.par) (ho : t.opCounter = s.opCounter)
    (hd : t.dataCursor = s.dataCursor) : CountersOk t := by
  obtain ⟨hop, hlow, hhigh, hal⟩ := h
  exact ⟨by rwa [ho, hp], by rwa [hd, hp], by rwa [hd, hp], by rwa [hd]⟩

theorem StatusOk.congr {s t : State} (h : StatusOk s) (hs : t.status = s.status) (hc : t.cycle = s.cycle)
    (he : t.exitValue = s.exitValue) (hf : t.faultCause = s.faultCause) (hpc : t.faultPc = s.faultPc)
    (hi : t.faultInfo = s.faultInfo) : StatusOk t := by
  obtain ⟨hinit, hexit, herr, hfault, hno⟩ := h
  exact ⟨by rwa [hs, hc], by rwa [hs, he], by rwa [hs, hf], by rwa [hs, hf], by rwa [hf, hpc, hi]⟩

/-! ### The control registers after a step -/

/-- R31: before it has halted, the Machine has no fault cause. -/
theorem StatusOk.faultCause_none {s : State} (h : StatusOk s) (hrun : s.status.halted = false) :
    s.faultCause = .none := by
  obtain ⟨-, -, herr, hfault, -⟩ := h
  by_contra hne
  by_cases hu : s.faultCause = .unknownOpcode
  · rw [herr.mp hu] at hrun; simp [Status.halted] at hrun
  · rw [hfault.mp ⟨hne, hu⟩] at hrun; simp [Status.halted] at hrun

/-- R30: before it has halted, the Machine has recorded no exit value. -/
theorem StatusOk.exitValue_zero {s : State} (h : StatusOk s) (hrun : s.status.halted = false) : s.exitValue = 0 := by
  refine h.noExitValue fun he => ?_
  rw [he] at hrun; simp [Status.halted] at hrun

/-- R252: an exception with one of the codes 1 to 9 makes the status FAULT. -/
theorem statusOk_takeFault {s : State} (h : StatusOk s) (hrun : s.status.halted = false) (u : State) {e : Trap}
    (he : e.cause ≠ .none ∧ e.cause ≠ .unknownOpcode) : StatusOk (s.takeFault u e) := by
  refine ⟨fun hc => ?_, fun _ => h.exitValue_zero hrun, ?_, ?_, fun hc => ?_⟩
  · simp at hc
  · simp [he]
  · simp [he]
  · exact absurd hc he.1

/-- R106: an unknown opcode makes the status ERROR, with code 10. -/
theorem statusOk_unknownOpcode {s : State} (h : StatusOk s) (hrun : s.status.halted = false) (op : Word) :
    StatusOk (s.unknownOpcode op) := by
  refine ⟨fun hc => ?_, fun _ => ?_, ?_, ?_, fun hc => ?_⟩
  · simp at hc
  · rw [State.unknownOpcode_exitValue]; exact h.exitValue_zero hrun
  · simp
  · simp
  · simp at hc

/-- R103, R225: an instruction that completes leaves RUNNING, or EXIT with the value it recorded. -/
theorem statusOk_of_kept {i : Instr} {s t : State} (h : StatusOk s) (hrun : s.status.halted = false)
    (hk : Kept i (s.begun i) t) : StatusOk t := by
  have hcause : t.faultCause = .none := by rw [hk.faultCause, State.begun_faultCause, h.faultCause_none hrun]
  have hno := h.noFault (h.faultCause_none hrun)
  have hpc : t.faultPc = 0 := by rw [hk.faultPc, State.begun_faultPc, hno.1]
  have hinfo : t.faultInfo = 0 := by rw [hk.faultInfo, State.begun_faultInfo, hno.2]
  by_cases hi : i = .exit
  · have hst := hk.exited hi
    exact ⟨by simp [hst], by simp [hst], by simp [hst, hcause], by simp [hst, hcause], fun _ => ⟨hpc, hinfo⟩⟩
  · have hst : t.status = .running := by rw [hk.status hi, State.begun_status]
    have hexit : t.exitValue = 0 := by rw [hk.exitValue hi, State.begun_exitValue, h.exitValue_zero hrun]
    exact ⟨by simp [hst], fun _ => hexit, by simp [hst, hcause], by simp [hst, hcause], fun _ => ⟨hpc, hinfo⟩⟩

/-! ### The invariant after a step -/

theorem inv_takeFault {s : State} (h : Inv s) (hrun : s.status.halted = false) (u : State) {e : Trap}
    (he : e.cause ≠ .none ∧ e.cause ≠ .unknownOpcode) : Inv (s.takeFault u e) := by
  obtain ⟨hm, hc, hst⟩ := (inv_iff s).mp h
  exact (inv_iff _).mpr ⟨memOk_of_eq hm rfl (fun X => by cases X <;> rfl) rfl rfl, hc.congr rfl rfl rfl,
    statusOk_takeFault hst hrun u he⟩

theorem inv_unknownOpcode {s : State} (h : Inv s) (hrun : s.status.halted = false) (op : Word) :
    Inv (s.unknownOpcode op) := by
  obtain ⟨hm, hc, hst⟩ := (inv_iff s).mp h
  exact (inv_iff _).mpr ⟨memOk_of_eq hm (by simp) (fun X => by cases X <;> simp [State.seg]) (by simp) (by simp),
    hc.congr (by simp) (by simp) (by simp), statusOk_unknownOpcode hst hrun op⟩

theorem inv_of_kept {i : Instr} {s t : State} (h : Inv s) (hrun : s.status.halted = false)
    (hk : Kept i (s.begun i) t) : Inv t := by
  obtain ⟨hm, hc, hst⟩ := (inv_iff s).mp h
  have hbegun : MemOk (s.begun i) := memOk_of_eq hm (by simp) (by simp) (by simp) (by simp)
  exact (inv_iff _).mpr ⟨hk.mem hbegun,
    hc.congr (by rw [hk.par]; simp) (by rw [hk.opCounter]; simp) (by rw [hk.dataCursor]; simp),
    statusOk_of_kept hst hrun hk⟩

theorem inv_exec {i : Instr} {s t : State} (h : Inv s) (hrun : s.status.halted = false) (hx : exec i s = .next t) :
    Inv t := by
  obtain ⟨e, u, rfl, -, he⟩ | hk := exec_next hx
  · exact inv_takeFault h hrun u he
  · exact inv_of_kept h hrun hk

/-- A step from a state with the invariant leaves one. -/
theorem inv_step {s t : State} (h : Inv s) (hx : step s = .next t) : Inv t := by
  obtain ⟨-, hs⟩ | ⟨hrun, -, ⟨e, hf, hs⟩ | ⟨op, -, hs⟩ | ⟨i, -, hs⟩⟩ := step_cases s <;> rw [hs] at hx
  · cases hx; exact h
  · cases hx; exact inv_takeFault h hrun s (fetchInstr_trap_raises hf)
  · cases hx; exact inv_unknownOpcode h hrun op
  · exact inv_exec h hrun hx

/-! ### Reset and construction -/

theorem read_nil (o : Nat) : Memory.read [] o = 0 := rfl

theorem countersOk_initial {p : Params} (hp : p.wf = true) : CountersOk (State.initial p) := by
  obtain ⟨-, -, hb, -⟩ := (Params.wf_iff p).mp hp
  have hd := hb .data
  simp only [base] at hd
  exact ⟨Nat.zero_le _, Nat.le_refl _, Nat.le_add_right _ _, hd.1⟩

theorem statusOk_initial (p : Params) : StatusOk (State.initial p) :=
  ⟨fun _ => rfl, fun _ => rfl, by simp [State.initial], by simp [State.initial], fun _ => ⟨rfl, rfl⟩⟩

theorem inv_initial {p : Params} (hp : p.wf = true) : Inv (State.initial p) :=
  (inv_iff _).mpr ⟨⟨hp, rfl, rfl, rfl, rfl, rfl, by simp [State.initial], by simp [State.initial],
    by simp [State.initial]⟩, countersOk_initial hp, statusOk_initial p⟩

/-- R230: what construction answers. -/
theorem construct_eq_some {p : Params} {s : State} (h : construct p = some s) : p.wf = true ∧ s = State.initial p := by
  unfold construct at h
  split at h
  · rename_i hp
    cases h; exact ⟨hp, rfl⟩
  · simp at h

/-! ### The host's operations -/

theorem inv_resetMachine {s : State} (h : Inv s) : Inv s.resetMachine := by
  obtain ⟨hm, -, -⟩ := (inv_iff s).mp h
  exact (inv_iff _).mpr ⟨⟨hm.params, rfl, rfl, rfl, hm.hostMemory, hm.heap⟩,
    (countersOk_initial hm.params).congr rfl rfl rfl, (statusOk_initial s.par).congr rfl rfl rfl rfl rfl rfl⟩

theorem inv_request {s : State} (h : Inv s) (m : RunMode) (b : Bool) : Inv (s.request m b) := by
  obtain ⟨hm, hc, hst⟩ := (inv_iff s).mp h
  exact (inv_iff _).mpr ⟨memOk_of_eq hm rfl (fun X => by cases X <;> rfl) rfl rfl, hc.congr rfl rfl rfl,
    hst.congr rfl rfl rfl rfl rfl rfl⟩

/-- pc, bp and sp are free: the invariant says nothing of them. -/
theorem inv_pointers {s : State} (h : Inv s) (pc bp sp : Word) : Inv { s with pc := pc, bp := bp, sp := sp } := by
  obtain ⟨hm, hc, hst⟩ := (inv_iff s).mp h
  exact (inv_iff _).mpr ⟨memOk_of_eq hm rfl (fun X => by cases X <;> rfl) rfl rfl, hc.congr rfl rfl rfl,
    hst.congr rfl rfl rfl rfl rfl rfl⟩

theorem inv_setPc {s : State} (h : Inv s) (v : Word) : Inv (s.setPc v) := inv_pointers h v s.bp s.sp

theorem inv_setBp {s : State} (h : Inv s) (v : Word) : Inv (s.setBp v) := inv_pointers h s.pc v s.sp

theorem inv_setSp {s : State} (h : Inv s) (v : Word) : Inv (s.setSp v) := inv_pointers h s.pc s.bp v

theorem inv_push {s t : State} {v : Word} (h : Inv s) (hp : s.push v = .ok t) : Inv t := by
  obtain ⟨o, ho, rfl⟩ := push_ok hp
  obtain ⟨hm, hc, hst⟩ := (inv_iff s).mp h
  exact inv_setSp ((inv_iff _).mpr ⟨memOk_writeStack hm ho v, hc.congr rfl rfl rfl,
    hst.congr rfl rfl rfl rfl rfl rfl⟩) _

theorem inv_append {s : State} (h : Inv s) (v : Word) : Inv (s.append v).2 := by
  obtain ⟨hm, hc, hst⟩ := (inv_iff s).mp h
  unfold State.append
  split
  · rename_i hlt
    have hin : s.opCounter * 8 + 8 ≤ s.par.poolSize := by unfold cap at hlt; omega
    exact (inv_iff _).mpr ⟨⟨hm.params, Memory.wf_writeWord hm.code hin v, hm.data, hm.stack, hm.hostMemory, hm.heap⟩,
      ⟨hlt, hc.cursorLow, hc.cursorHigh, hc.cursorAligned⟩, hst.congr rfl rfl rfl rfl rfl rfl⟩
  · exact h

theorem inv_putConstant {s : State} (h : Inv s) (v : Word) : Inv (s.putConstant v).2 := by
  obtain ⟨hm, hc, hst⟩ := (inv_iff s).mp h
  unfold State.putConstant
  split
  · rename_i hroom
    split
    · rename_i t ht
      obtain ⟨r, hr, rfl⟩ := memWrite_ok ht
      have hal := hc.cursorAligned
      have hlow := hc.cursorLow
      refine (inv_iff _).mpr ⟨memOk_of_eq (memOk_writeRoute hm hr v) rfl (fun X => by cases X <;> rfl) rfl rfl,
        ⟨?_, ?_, ?_, ?_⟩, hst.congr (by simp) (by simp) (by simp) (by simp) (by simp) (by simp)⟩
      · simpa using hc.committed
      · simp only [State.writeRoute_par]; omega
      · simpa using hroom
      · simp only; omega
    · exact h
  · exact h

/-- A computation that succeeds has passed its first step. -/
theorem access_bind_ok {α β : Type} {x : Access α} {f : α → Access β} {b : β} (h : (x >>= f) = .ok b) :
    ∃ a, x = .ok a ∧ f a = .ok b := by
  cases x with
  | error e => simp [bind, Except.bind] at h
  | ok a => exact ⟨a, rfl, h⟩

theorem inv_setupEntry {s t : State} {entry argc argv : Word} (h : Inv s)
    (hs : s.setupEntry entry argc argv = .ok t) : Inv t := by
  unfold State.setupEntry at hs
  obtain ⟨s1, h1, hs⟩ := access_bind_ok hs
  obtain ⟨s2, h2, hs⟩ := access_bind_ok hs
  obtain ⟨s3, h3, hs⟩ := access_bind_ok hs
  obtain ⟨s4, h4, hs⟩ := access_bind_ok hs
  obtain ⟨s5, h5, hs⟩ := access_bind_ok hs
  cases hs
  have i1 := inv_push (inv_setBp (inv_setSp h _) _) h1
  have i4 := inv_push (inv_push (inv_push i1 h2) h3) h4
  exact inv_setPc (inv_push (inv_setBp i4 _) h5) _

/-! ### The statements -/

/-- Settles O6: a step ends unchanged, in an exception, in an unknown opcode, or with an instruction completed. -/
theorem stepKeepsInvariant : Obligations.StepKeepsInvariant := by
  unfold Obligations.StepKeepsInvariant
  exact fun _ _ => inv_step

/-- Settles O7: both states are the initial state of constructible parameters. -/
theorem invariantAtReset : Obligations.InvariantAtReset := by
  unfold Obligations.InvariantAtReset
  refine ⟨inv_initial (by decide), fun p s h => ?_⟩
  obtain ⟨hp, rfl⟩ := construct_eq_some h
  exact inv_initial hp

/-- Settles O8, operation by operation. -/
theorem hostOperationsKeepInvariant : Obligations.HostOperationsKeepInvariant := by
  unfold Obligations.HostOperationsKeepInvariant
  exact fun s h => ⟨inv_append h, inv_putConstant h, inv_setPc h, fun _ _ _ _ => inv_setupEntry h, inv_request h,
    inv_resetMachine h⟩

/-- Settles O9: both operations leave the registers and the segments of the initial state. -/
theorem resetValues : Obligations.ResetValues := by
  unfold Obligations.ResetValues
  rintro s t (rfl | h)
  · exact ⟨rfl, rfl, rfl, rfl, rfl, rfl, rfl, rfl, rfl, rfl, rfl, rfl, fun X o => by cases X <;> exact read_nil o, rfl,
      fun _ => ⟨rfl, rfl⟩⟩
  · obtain ⟨-, rfl⟩ := construct_eq_some h
    exact ⟨rfl, rfl, rfl, rfl, rfl, rfl, rfl, rfl, rfl, rfl, rfl, rfl, fun X o => by cases X <;> exact read_nil o, rfl,
      fun he => ⟨(congrArg State.hmem he :), (congrArg State.heap he :)⟩⟩

end Sys2Proof.Machine
end

section
/-! PROOFS. The statements about fetching and about one step (spec/20_memory.md R61, spec/40_dispatch.md). Fetching and
the step get an equation per case; what an executed instruction answers is `exec_next`. -/

namespace Sys2Proof.Machine

/-! ### Fetching one cell -/

/-- R52: the bytes of a segment access are those of the word it reads. -/
theorem bytesHold_readSeg {s : State} (hp : s.par.wf = true) {a : Word} {n : Nat} {X : Seg} {o : Nat} (hn : n ≤ 8)
    (h : route s.par a n = .seg X o) : BytesHold a n (Memory.readWord (s.seg X) o n) s := by
  intro i hi
  unfold State.byteAt
  rw [route_byte_seg hp h hi]
  simp only [Memory.readWord]
  rw [byteOf_leWord _ _ _ _ hi hn]

theorem aligned_iff (a : Word) : aligned a = true ↔ a.toNat % 8 = 0 := by simp [aligned]

/-- R61: Fetch inside the code segment. -/
theorem fetch_of_code {s : State} {a : Word} {o : Nat} (h : route s.par a 8 = .seg .code o) :
    s.fetch a = if aligned a = false then .error ⟨.fetchMisaligned, a⟩
      else if s.opCounter ≤ o / 8 then .error ⟨.fetchUncommitted, a⟩ else .ok (Memory.readWord (s.seg .code) o 8) := by
  unfold State.fetch; rw [h]; rfl

/-- R61: Fetch inside the stack segment. -/
theorem fetch_of_stack {s : State} {a : Word} {o : Nat} (h : route s.par a 8 = .seg .stack o) :
    s.fetch a = if aligned a = false then .error ⟨.fetchMisaligned, a⟩ else .ok (Memory.readWord (s.seg .stack) o 8) := by
  unfold State.fetch; rw [h]; rfl

/-- R61: Fetch outside both. -/
theorem fetch_of_neither {s : State} {a : Word} (hc : ∀ o, route s.par a 8 ≠ .seg .code o)
    (hs : ∀ o, route s.par a 8 ≠ .seg .stack o) : s.fetch a = .error ⟨.fetchSegment, a⟩ := by
  unfold State.fetch
  cases hr : route s.par a 8 with
  | straddle => rfl
  | hostMem x => rfl
  | seg X o =>
    cases X
    · exact absurd hr (hc o)
    · rfl
    · exact absurd hr (hs o)

/-- Settles O13: the route of the address decides which checks Fetch makes. -/
theorem fetchChecksInOrder : Obligations.FetchChecksInOrder := by
  unfold Obligations.FetchChecksInOrder
  intro s a hp inCode inStack
  have hcode : inCode → route s.par a 8 = .seg .code (a.toNat - s.par.codeBase) :=
    fun h => route_of_inside hp (by omega) (X := .code) h.1 h.2
  have hstack : inStack → route s.par a 8 = .seg .stack (a.toNat - s.par.stackBase) :=
    fun h => route_of_inside hp (by omega) (X := .stack) h.1 h.2
  refine ⟨fun ⟨hc, hs⟩ => ?_, fun ⟨hin, hal⟩ => ?_, fun ⟨hin, hal, hop⟩ => ?_, fun ⟨hal, hin⟩ => ?_⟩
  · refine fetch_of_neither (fun o hr => hc ?_) (fun o hr => hs ?_) <;>
      exact ⟨(route_seg hr).1, (route_seg hr).2.1⟩
  · have hfalse : aligned a = false := by rw [← Bool.not_eq_true, aligned_iff]; exact hal
    rcases hin with hin | hin
    · rw [fetch_of_code (hcode hin), if_pos hfalse]
    · rw [fetch_of_stack (hstack hin), if_pos hfalse]
  · rw [fetch_of_code (hcode hin), if_neg (by simp [(aligned_iff a).mpr hal]), if_pos hop]
  · have htrue : ¬ aligned a = false := by simp [(aligned_iff a).mpr hal]
    rcases hin with hin | ⟨hin, hop⟩
    · exact ⟨_, by rw [fetch_of_stack (hstack hin), if_neg htrue],
        bytesHold_readSeg hp (Nat.le_refl 8) (hstack hin)⟩
    · exact ⟨_, by rw [fetch_of_code (hcode hin), if_neg htrue, if_neg (by omega)],
        bytesHold_readSeg hp (Nat.le_refl 8) (hcode hin)⟩

/-! ### Fetching one instruction -/

theorem fetchInstr_of_error {s : State} {e : Trap} (h : s.fetch s.pc = .error e) : s.fetchInstr = .trap e := by
  simp only [State.fetchInstr, h]

theorem fetchInstr_of_invalid {s : State} {op : Word} (h : s.fetch s.pc = .ok op) (hv : validOpcode op = false) :
    s.fetchInstr = .unknown op := by
  simp only [State.fetchInstr, h, hv, if_true]

theorem fetchInstr_of_operand_error {s : State} {op : Word} {e : Trap} (h : s.fetch s.pc = .ok op)
    (hv : validOpcode op = true) (hw : widthCells op = 2) (he : s.fetch (s.pc + 8) = .error e) :
    s.fetchInstr = .trap e := by
  simp only [State.fetchInstr, h, hv, hw, he, Bool.true_eq_false, if_false, if_true]

theorem fetchInstr_of_one {s : State} {op : Word} {i : Instr} (h : s.fetch s.pc = .ok op)
    (hv : validOpcode op = true) (hw : widthCells op ≠ 2) (hd : decodeInstr op 0 = some i) :
    s.fetchInstr = .instr i := by
  simp only [State.fetchInstr, h, hv, hw, hd, Bool.true_eq_false, if_false]

theorem fetchInstr_of_two {s : State} {op imm : Word} {i : Instr} (h : s.fetch s.pc = .ok op)
    (hv : validOpcode op = true) (hw : widthCells op = 2) (hi : s.fetch (s.pc + 8) = .ok imm)
    (hd : decodeInstr op imm = some i) : s.fetchInstr = .instr i := by
  simp only [State.fetchInstr, h, hv, hw, hi, hd, Bool.true_eq_false, if_false, if_true]

/-! ### One step -/

theorem step_of_halted {s : State} (h : s.status.halted = true) : step s = .next s := by
  unfold step; rw [if_pos h]

theorem step_of_stalls {s : State} (h : s.stalls = true) : step s = .next s := by
  unfold step; rw [if_pos h, ite_self]

theorem step_of_trap {s : State} {e : Trap} (hrun : s.status.halted = false) (hst : s.stalls = false)
    (hf : s.fetchInstr = .trap e) : step s = .next (s.takeFault s e) := by
  simp only [step, hrun, hst, hf, Bool.false_eq_true, if_false]

theorem step_of_unknown {s : State} {op : Word} (hrun : s.status.halted = false) (hst : s.stalls = false)
    (hf : s.fetchInstr = .unknown op) : step s = .next (s.unknownOpcode op) := by
  simp only [step, hrun, hst, hf, Bool.false_eq_true, if_false]

theorem step_of_instr {s : State} {i : Instr} (hrun : s.status.halted = false) (hst : s.stalls = false)
    (hf : s.fetchInstr = .instr i) : step s = exec i s := by
  simp only [step, hrun, hst, hf, Bool.false_eq_true, if_false]

/-- Settles O10: what the bytes decode to is what is fetched. -/
theorem stepRunsDecodedInstruction : Obligations.StepRunsDecodedInstruction := by
  unfold Obligations.StepRunsDecodedInstruction
  intro s op imm i hrun hst hop himm hdec
  refine step_of_instr hrun hst ?_
  obtain ⟨op', tail, htake, hv, hcase⟩ := decodeBytes_ok hdec
  rw [takeCell_cellBytes] at htake
  cases htake
  obtain ⟨hw, imm', htail, hd⟩ | ⟨hw, -, hd⟩ := hcase
  · rw [if_pos hw, ← List.append_nil (cellBytes imm), takeCell_cellBytes] at htail
    cases htail
    exact fetchInstr_of_two hop hv hw (himm hw) hd
  · exact fetchInstr_of_one hop hv hw hd

/-- Settles O14: the step is the exception of the fetch, taken from the state before it. -/
theorem fetchFaultsArePrecise : Obligations.FetchFaultsArePrecise := by
  unfold Obligations.FetchFaultsArePrecise
  intro s e hrun hst h
  have hf : s.fetchInstr = .trap e := by
    obtain h | ⟨op, hop, hlow, hhigh, h⟩ := h
    · exact fetchInstr_of_error h
    · exact fetchInstr_of_operand_error hop ((validOpcode_iff op).mpr ⟨hlow, by omega⟩)
        ((widthCells_eq_two_iff op).mpr ⟨hlow, hhigh⟩) h
  exact ⟨_, step_of_trap hrun hst hf, preciseFault_takeFault s s e, rfl, ⟨rfl, rfl, rfl, rfl⟩⟩

/-- Settles O15: the step is `unknownOpcode`, field by field. -/
theorem unknownOpcodeIsAnError : Obligations.UnknownOpcodeIsAnError := by
  unfold Obligations.UnknownOpcodeIsAnError
  intro s op hrun hst hop hv
  rw [← validOpcode_iff, Bool.not_eq_true] at hv
  refine ⟨_, step_of_unknown hrun hst (fetchInstr_of_invalid hop hv), ?_⟩
  have hbytes : BytesKept s (s.unknownOpcode op) :=
    fun x => byteAt_congr (by simp) (fun X => by cases X <;> simp [State.seg]) (by simp) x
  have hport : PortQuiet s (s.unknownOpcode op) := by constructor <;> simp
  simp [hbytes, hport]

/-! ### The guard -/

/-- R108: the guard is for a Machine that is not halted, in GUARDED mode. -/
theorem stalls_iff (s : State) :
    s.stalls = true ↔ s.status.halted = false ∧ s.mode = .guarded ∧ s.guardStalls = true := by
  simp [State.stalls]

/-- R100: a BLOCKING step never stalls. -/
theorem not_stalls_of_blocking {s : State} (h : s.mode = .blocking) : s.stalls = false := by
  simp [State.stalls, h]

/-- R108, R109: what the guard looks at inside the code segment. -/
theorem guardStalls_of_code {s : State} {o : Nat} (h : route s.par s.pc 8 = .seg .code o) :
    s.guardStalls = true ↔ s.pc.toNat % 8 = 0 ∧ (s.opCounter < o / 8 + 1
      ∨ s.opCounter < o / 8 + widthCells (Memory.readWord s.code o 8)) := by
  simp [State.guardStalls, h, aligned]

/-- R108: elsewhere it lets the step go on. -/
theorem route_of_guardStalls {s : State} (h : s.guardStalls = true) : ∃ o, route s.par s.pc 8 = .seg .code o := by
  unfold State.guardStalls at h
  split at h
  case h_1 o hr => exact ⟨o, hr⟩
  all_goals simp at h

/-- Settles O11: the guard looks at the cells of the code segment from pc on, and a stalled step is no step. -/
theorem guardStallsExactly : Obligations.GuardStallsExactly := by
  unfold Obligations.GuardStallsExactly
  refine fun s hp => ⟨?_, step_of_stalls⟩
  rw [stalls_iff]
  refine and_congr_right fun _ => and_congr_right fun _ => ⟨fun h => ?_, fun ⟨hlow, hhigh, hrest⟩ => ?_⟩
  · obtain ⟨o, hr⟩ := route_of_guardStalls h
    obtain ⟨hlow, hhigh, ho⟩ := route_seg hr
    simp only [base] at hlow hhigh ho
    rw [show s.pc.toNat - s.par.codeBase = o by omega]
    exact ⟨hlow, hhigh, (guardStalls_of_code hr).mp h⟩
  · exact (guardStalls_of_code (route_of_inside hp (by omega) (X := .code) hlow hhigh)).mpr hrest

/-! ### What a step keeps -/

/-- R103, R115, R225: the status an instruction leaves. -/
theorem Kept.status_cases {i : Instr} {s t : State} (h : Kept i (s.begun i) t) :
    (i = .exit ∧ t.status = .exit) ∨ (i ≠ .exit ∧ t.status = .running) := by
  by_cases hi : i = .exit
  · exact .inl ⟨hi, h.exited hi⟩
  · exact .inr ⟨hi, by rw [h.status hi, State.begun_status]⟩

/-- R110: the status after `exec`. -/
theorem exec_status {i : Instr} {s t : State} (h : exec i s = .next t) :
    t.status = .fault ∨ (i = .exit ∧ t.status = .exit) ∨ (i ≠ .exit ∧ t.status = .running) := by
  obtain ⟨e, u, rfl, -⟩ | hk := exec_next h
  · exact .inl rfl
  · exact .inr hk.status_cases

/-- R103, R115: `exec` counts the cycle, or is an exception; it changes no other control register and no parameter. -/
theorem exec_counts {i : Instr} {s t : State} (h : exec i s = .next t) :
    t.cycle = (if t.status ≠ .fault then s.cycle + 1 else s.cycle) ∧ t.opCounter = s.opCounter
      ∧ t.dataCursor = s.dataCursor ∧ t.par = s.par ∧ t.mode = s.mode ∧ t.traceOn = s.traceOn := by
  obtain ⟨e, u, rfl, -⟩ | hk := exec_next h
  · simp
  · have hne : t.status ≠ .fault := by
      obtain ⟨-, hs⟩ | ⟨-, hs⟩ := hk.status_cases <;> simp [hs]
    exact ⟨by rw [if_pos hne, hk.cycle, State.begun_cycle], by rw [hk.opCounter]; simp, by rw [hk.dataCursor]; simp,
      by rw [hk.par]; simp, by rw [hk.mode]; simp, by rw [hk.traceOn]; simp⟩

/-- Settles O19, by what the step comes to. -/
theorem stepCountsAndCommitsNothing : Obligations.StepCountsAndCommitsNothing := by
  unfold Obligations.StepCountsAndCommitsNothing
  intro s t h
  obtain ⟨hhalt, hs⟩ | ⟨hrun, hst, ⟨e, -, hs⟩ | ⟨op, -, hs⟩ | ⟨i, -, hs⟩⟩ := step_cases s <;> rw [hs] at h
  · cases h
    rw [if_neg (by rintro ⟨h1, h2, -⟩; simp [h1, h2] at hhalt)]
    exact ⟨rfl, rfl, rfl, rfl, rfl, rfl⟩
  · cases h; simp
  · cases h; simp [hrun, hst]
  · simpa [hrun, hst] using exec_counts h

theorem step_mode {s t : State} (h : step s = .next t) : t.mode = s.mode := by
  obtain ⟨-, -, -, -, hm, -⟩ := stepCountsAndCommitsNothing s t h
  exact hm

/-- Settles O16: a step that ends in FAULT has taken an exception. -/
theorem everyFaultIsPrecise : Obligations.EveryFaultIsPrecise := by
  unfold Obligations.EveryFaultIsPrecise
  intro s t hrun h hfault
  have taken : ∀ (u : State) (e : Trap), t = s.takeFault u e → (e.cause ≠ .none ∧ e.cause ≠ .unknownOpcode) →
      PreciseFault t.faultCause t.faultInfo s t ∧ 1 ≤ t.faultCause.toNat ∧ t.faultCause.toNat ≤ 9 := by
    rintro u e rfl he
    exact ⟨preciseFault_takeFault s u e, cause_range he⟩
  obtain ⟨-, hs⟩ | ⟨-, -, ⟨e, hf, hs⟩ | ⟨op, -, hs⟩ | ⟨i, -, hs⟩⟩ := step_cases s <;> rw [hs] at h
  · cases h; rw [hfault] at hrun; simp [Status.halted] at hrun
  · cases h; exact taken s e rfl (fetchInstr_trap_raises hf)
  · cases h; simp at hfault
  · obtain ⟨e, u, ht, -, he⟩ | hk := exec_next h
    · exact taken u e ht he
    · obtain ⟨-, hst⟩ | ⟨-, hst⟩ := hk.status_cases <;> simp [hst] at hfault

/-- Settles O17: each outcome of a step has its status, and its event. -/
theorem statusTransitions : Obligations.StatusTransitions := by
  unfold Obligations.StatusTransitions
  refine ⟨fun s hs => step_of_halted ?_, fun s t hs h => ?_⟩
  · obtain hs | hs | hs := hs <;> rw [hs] <;> rfl
  have hrun : s.status.halted = false := by obtain hs | hs := hs <;> rw [hs] <;> rfl
  obtain ⟨hhalt, hx⟩ | ⟨-, hst, ⟨e, hf, hx⟩ | ⟨op, hf, hx⟩ | ⟨i, hf, hx⟩⟩ := step_cases s <;> rw [hx] at h
  · have hst : s.stalls = true := by simpa [hrun] using hhalt
    cases h
    refine ⟨fun _ => rfl, by simp [hst], fun he => ?_, fun he => ?_, by simp [hst]⟩ <;>
      rw [he] at hrun <;> simp [Status.halted] at hrun
  · cases h; simp [hst, hf]
  · cases h; simp [hst, hf]
  · obtain hs | ⟨rfl, hs⟩ | ⟨hi, hs⟩ := exec_status h
    · simp [hst, hf, hs]
    · simp [hst, hf, hs]
    · simp [hst, hf, hs, hi]

/-- Settles O18: only the execution of a host call can have no next state. -/
theorem stepStopsOnlyUnanswered : Obligations.StepStopsOnlyUnanswered := by
  unfold Obligations.StepStopsOnlyUnanswered
  intro s
  obtain ⟨-, hs⟩ | ⟨-, -, ⟨e, -, hs⟩ | ⟨op, -, hs⟩ | ⟨i, hf, hs⟩⟩ := step_cases s
  · exact .inl ⟨_, hs⟩
  · exact .inl ⟨_, hs⟩
  · exact .inl ⟨_, hs⟩
  · rw [hs]
    obtain ⟨e, u, hx, -⟩ | ⟨t, hx, -⟩ | ⟨hx, hnone, hi⟩ := exec_cases i s
    · exact .inl ⟨_, hx⟩
    · exact .inl ⟨_, hx⟩
    · exact .inr ⟨hx, hnone, i, hi, hf⟩

/-- Settles O21: a fault restores the four registers, and `Kept` lists who else writes them. -/
theorem registerWriters : Obligations.RegisterWriters := by
  unfold Obligations.RegisterWriters
  intro i s t h
  obtain ⟨e, u, rfl, -⟩ | hk := exec_next h
  · simp
  · refine ⟨fun hne => hk.bp (by simpa using hne), fun hne => hk.sp (by simpa using hne),
      fun hne => hk.ax (by simpa using hne), fun hne => ?_⟩
    by_contra hi
    exact hne (by rw [hk.exitValue hi, State.begun_exitValue])

/-- Settles O22: the event is emitted at the start of the instruction, and neither its effect nor a fault changes the
log. -/
theorem traceEventPerInstruction : Obligations.TraceEventPerInstruction := by
  unfold Obligations.TraceEventPerInstruction
  intro i s t h
  rw [← State.begun_trace]
  obtain ⟨e, u, rfl, htrace, -⟩ | hk := exec_next h
  · exact htrace
  · exact hk.trace

/-! ### GUARDED and BLOCKING -/

theorem withMode_self {m : RunMode} {s : State} (h : s.mode = m) : withMode m s = s := by
  cases h; rfl

/-- R117: a step that does not stall is the same in every mode in which it does not stall. -/
theorem step_withMode {m : RunMode} {s : State} (hst : s.stalls = false) (hst' : (withMode m s).stalls = false) :
    step (withMode m s) = withModeOut m (step s) := by
  have hfetch := withMode_fetchInstr m s
  obtain ⟨hhalt, hs⟩ | ⟨hrun, -, ⟨e, hf, hs⟩ | ⟨op, hf, hs⟩ | ⟨i, hf, hs⟩⟩ := step_cases s <;> rw [hs]
  · have hrun : s.status.halted = true := by simpa [hst] using hhalt
    exact step_of_halted (s := withMode m s) hrun
  · rw [step_of_trap (s := withMode m s) hrun hst' (hfetch.trans hf)]; rfl
  · rw [step_of_unknown (s := withMode m s) hrun hst' (hfetch.trans hf), State.unknownOpcode, State.unknownOpcode, withModeOut,
      ← withMode_emit]; rfl
  · rw [step_of_instr (s := withMode m s) hrun hst' (hfetch.trans hf), withMode_exec]

/-- Settles O12: no operation but the guard reads the mode, and no step changes it. -/
theorem guardedStepIsBlockingStep : Obligations.GuardedStepIsBlockingStep := by
  unfold Obligations.GuardedStepIsBlockingStep
  intro s hst
  have hx : step { s with mode := .blocking } = withModeOut .blocking (step s) :=
    step_withMode hst (not_stalls_of_blocking rfl)
  rw [hx]
  cases hs : step s with
  | next t =>
    refine ⟨fun u => ⟨fun h => ?_, fun ⟨v, hv, hu⟩ => ?_⟩, fun f => by simp [withModeOut]⟩
    · cases h
      exact ⟨_, rfl, (withMode_self (step_mode hs)).symm⟩
    · cases hv
      rw [hu]
      exact congrArg _ (withMode_self (step_mode hs)).symm
  | fault f => simp [withModeOut]
  | refused r => simp [withModeOut]

/-! ### Requests -/

theorem runSteps_halted {s : State} (h : s.status.halted = true) (n : Nat) :
    s.runSteps (n + 1) = .returned s.status false s.exitValue s := by
  simp only [State.runSteps, h, if_true]

theorem runSteps_stalled {s : State} (h : s.stalls = true) (n : Nat) :
    s.runSteps (n + 1) = .returned s.status true s.exitValue s := by
  have hrun := ((stalls_iff s).mp h).1
  simp only [State.runSteps, hrun, h, Bool.false_eq_true, if_false, if_true]

theorem runSteps_next_halted {s u : State} (hrun : s.status.halted = false) (hst : s.stalls = false)
    (hx : step s = .next u) (hu : u.status.halted = true) (n : Nat) :
    s.runSteps (n + 1) = .returned u.status false u.exitValue u := by
  simp only [State.runSteps, hrun, hst, hx, hu, Bool.false_eq_true, if_false, if_true]

theorem runSteps_next {s u : State} (hrun : s.status.halted = false) (hst : s.stalls = false)
    (hx : step s = .next u) (hu : u.status.halted = false) (n : Nat) : s.runSteps (n + 1) = u.runSteps n := by
  simp only [State.runSteps, hrun, hst, hx, hu, Bool.false_eq_true, if_false]

theorem runSteps_fault {s : State} {f : Fault} (hrun : s.status.halted = false) (hst : s.stalls = false)
    (hx : step s = .fault f) (n : Nat) : s.runSteps (n + 1) = .stopped f := by
  simp only [State.runSteps, hrun, hst, hx, Bool.false_eq_true, if_false]

/-- What a request that has returned says of the state `t` it left, which was reached in the mode `m` (R113, R114). -/
structure Returned (m : RunMode) (st : Status) (stalled : Bool) (v : Word) (t : State) : Prop where
  inv : Inv t
  mode : t.mode = m
  status : st = t.status
  exitValue : v = t.exitValue
  halted : stalled = true ↔ st.halted = false
  stalls : stalled = true → t.stalls = true

theorem returned_of_halted {t : State} (h : Inv t) (hhalt : t.status.halted = true) :
    Returned t.mode t.status false t.exitValue t :=
  ⟨h, rfl, rfl, rfl, by simp [hhalt], by simp⟩

theorem returned_of_stalls {t : State} (h : Inv t) (hst : t.stalls = true) :
    Returned t.mode t.status true t.exitValue t :=
  ⟨h, rfl, rfl, rfl, by simp [((stalls_iff t).mp hst).1], fun _ => hst⟩

/-- R113, R114: what a request returns, by induction on the number of steps observed. -/
theorem returned_of_runSteps {s t : State} {st : Status} {stalled : Bool} {v : Word} {n : Nat} (hinv : Inv s)
    (h : s.runSteps n = .returned st stalled v t) : Returned s.mode st stalled v t := by
  induction n generalizing s with
  | zero => simp [State.runSteps] at h
  | succ n ih =>
    cases hrun : s.status.halted with
    | true =>
      rw [runSteps_halted hrun] at h
      cases h; exact returned_of_halted hinv hrun
    | false =>
      cases hst : s.stalls with
      | true =>
        rw [runSteps_stalled hst] at h
        cases h; exact returned_of_stalls hinv hst
      | false =>
        obtain ⟨u, hx⟩ | ⟨hx, -⟩ := stepStopsOnlyUnanswered s
        · rw [← step_mode hx]
          cases hu : u.status.halted with
          | true =>
            rw [runSteps_next_halted hrun hst hx hu] at h
            cases h; exact returned_of_halted (inv_step hinv hx) hu
          | false => exact ih (inv_step hinv hx) (by rwa [runSteps_next hrun hst hx hu] at h)
        · rw [runSteps_fault hrun hst hx] at h; simp at h

/-- R30, R113: the exit value returned is 0 unless the status is EXIT. -/
theorem Returned.exitValue_zero {m : RunMode} {st : Status} {stalled : Bool} {v : Word} {t : State}
    (h : Returned m st stalled v t) (hne : st ≠ .exit) : v = 0 := by
  rw [h.exitValue]
  exact h.inv.status.noExitValue (h.status ▸ hne)

/-- Settles O20: the first part is one unfolding of the loop, the second its induction; in BLOCKING mode no state
stalls, so `run` has returned from a halted one. -/
theorem runsReturnWhenHaltedOrStalled : Obligations.RunsReturnWhenHaltedOrStalled := by
  unfold Obligations.RunsReturnWhenHaltedOrStalled
  refine fun s trace n => ⟨fun p hp => ?_, fun t st stalled v hinv => ⟨fun h => ?_, fun h => ?_⟩⟩
  · obtain ⟨m, rfl⟩ : ∃ m, p = (s.request m trace, (s.request m trace).runSteps (n + 1)) := by
      simp only [List.mem_cons, List.not_mem_nil, or_false] at hp
      obtain rfl | rfl := hp <;> exact ⟨_, rfl⟩
    exact ⟨fun h => runSteps_halted (s := s.request m trace) h n, fun h => runSteps_stalled h n,
      fun u hrun hst hx => ⟨fun hu => runSteps_next_halted (s := s.request m trace) hrun hst hx hu n,
        fun hu => runSteps_next (s := s.request m trace) hrun hst hx hu n⟩⟩
  · have hr := returned_of_runSteps (inv_request hinv .blocking trace) h
    have hno : stalled = false := by
      rw [← Bool.not_eq_true]
      intro hc
      have := hr.stalls hc
      rw [not_stalls_of_blocking hr.mode] at this
      simp at this
    refine ⟨hr.inv, hno, hr.status, ?_, hr.exitValue, hr.exitValue_zero⟩
    simpa [hno] using hr.halted
  · have hr := returned_of_runSteps (inv_request hinv .guarded trace) h
    exact ⟨hr.inv, hr.halted, hr.stalls, hr.status, hr.exitValue, hr.exitValue_zero⟩

end Sys2Proof.Machine
end

section
/-! PROOFS. The statements about memory (spec/20_memory.md): the multiplexer, a cell, a data access and its checks, a
stack access, push and pop. -/

namespace Sys2Proof.Machine

/-! ### The multiplexer -/

/-- Settles O23: an access inside a segment goes there, one clear of all segments to host memory, and any other is a
straddle. -/
theorem routeSelectsSegment : Obligations.RouteSelectsSegment := by
  unfold Obligations.RouteSelectsSegment
  intro p a n hp hn
  have hpos : 0 < n := by omega
  refine ⟨fun X o => ⟨fun h => ?_, fun ⟨hlow, hhigh, ho⟩ => ?_⟩, ⟨fun h => ⟨fun X ⟨hlow, hhigh⟩ => ?_, ?_⟩, ?_⟩,
    fun x => ⟨fun h => ?_, fun ⟨hclear, hend, hx⟩ => ?_⟩⟩
  · obtain ⟨hlow, hhigh, ho⟩ := route_seg h
    exact ⟨hlow, hhigh, by omega⟩
  · rw [ho]; exact route_of_inside hp hpos hlow hhigh
  · rw [route_of_inside hp hpos hlow hhigh] at h; simp at h
  · by_contra hno
    rw [not_or, not_exists] at hno
    rw [route_of_clear hpos hno.1 (by omega)] at h; simp at h
  · rintro ⟨hout, hmeet⟩
    cases hr : route p a n with
    | straddle => rfl
    | seg X o => exact absurd ⟨(route_seg hr).1, (route_seg hr).2.1⟩ (hout X)
    | hostMem x =>
      obtain ⟨-, hend, hclear⟩ := route_hostMem hr
      obtain ⟨X, hX⟩ | htop := hmeet
      · exact absurd hX (hclear X)
      · omega
  · obtain ⟨hx, hend, hclear⟩ := route_hostMem h
    exact ⟨hclear, hend, hx⟩
  · rw [hx]; exact route_of_clear hpos hclear hend

/-! ### A cell -/

/-- R52, in the library's terms. -/
theorem byteOf_eq_extractLsb' (v : Word) (i : Nat) : byteOf v i = v.extractLsb' (8 * i) 8 := by
  refine BitVec.eq_of_getLsbD_eq fun k hk => ?_
  rw [byteOf_getLsbD, BitVec.getLsbD_extractLsb']

/-- Settles O24, by what a write leaves at each offset. -/
theorem cellIsLittleEndian : Obligations.CellIsLittleEndian := by
  unfold Obligations.CellIsLittleEndian
  refine fun m o v => ⟨Memory.readWord_writeWord m o v, fun i hi => ?_, fun k hk => ?_⟩
  · rw [Memory.read_writeWord, if_pos (by omega), ← byteOf_eq_extractLsb']
    congr 1; omega
  · rw [Memory.read_writeWord, if_neg hk]

/-! ### A data access -/

theorem memRead_of_route {s : State} {a : Word} {n : Nat} {r : Route} (h : s.dataRoute a n = .ok r) :
    s.memRead a n = .ok (s.readRoute r n) := by
  unfold State.memRead; rw [h]; rfl

theorem memWrite_of_route {s : State} {a : Word} {n : Nat} {r : Route} (h : s.dataRoute a n = .ok r) (v : Word) :
    s.memWrite a n v = .ok (s.writeRoute r n v) := by
  unfold State.memWrite; rw [h]; rfl

theorem memRead_of_error {s : State} {a : Word} {n : Nat} {e : Trap} (h : s.dataRoute a n = .error e) :
    s.memRead a n = .error e := by
  unfold State.memRead; rw [h]; rfl

theorem memWrite_of_error {s : State} {a : Word} {n : Nat} {e : Trap} (h : s.dataRoute a n = .error e) (v : Word) :
    s.memWrite a n v = .error e := by
  unfold State.memWrite; rw [h]; rfl

theorem bytesHold_writeRoute {s : State} (hp : s.par.wf = true) {a : Word} {n : Nat} {r : Route}
    (h : s.dataRoute a n = .ok r) (v : Word) : BytesHold a n v (s.writeRoute r n v) :=
  bytesHold_of (route_end hp h) fun x hx => by rw [byteAt_writeRoute hp h, if_pos hx]

theorem bytesKeptOutside_writeRoute {s : State} (hp : s.par.wf = true) {a : Word} {n : Nat} {r : Route}
    (h : s.dataRoute a n = .ok r) (v : Word) : BytesKeptOutside a n s (s.writeRoute r n v) :=
  fun x hx => by rw [byteAt_writeRoute hp h, if_neg hx]

/-- Settles O25: the write has the route of the read, which reads back what it put there. -/
theorem dataWriteThenRead : Obligations.DataWriteThenRead := by
  unfold Obligations.DataWriteThenRead
  intro s t a v n hp hn h
  obtain ⟨r, hr, rfl⟩ := memWrite_ok h
  refine ⟨bytesHold_writeRoute hp hr v, bytesKeptOutside_writeRoute hp hr v, ?_, writeRoute_frame s r n v⟩
  rw [memRead_of_route (dataRoute_writeRoute hr), readRoute_writeRoute hr hn]

/-- R63, R58: an access to host memory touches an unallocated byte. -/
def Unallocated (s : State) (a : Word) (n : Nat) : Prop :=
  ∃ x, route s.par a n = .hostMem x ∧ ∃ i < n, s.byteAt (a + BitVec.ofNat 64 i) = none

/-- R58: the bytes of host memory that are accessible are the allocated ones. -/
theorem byteAt_of_route_hostMem {s : State} {a : Word} {n x i : Nat} (h : route s.par a n = .hostMem x) (hi : i < n) :
    s.byteAt (a + BitVec.ofNat 64 i) = lookup s.hmem (x + i) := by
  unfold State.byteAt
  rw [route_byte_hostMem h hi]

theorem allocated_iff_not_unallocated {s : State} {a : Word} {n x : Nat} (h : route s.par a n = .hostMem x) :
    HostMemory.allocated s.hmem x n = true ↔ ¬ Unallocated s a n := by
  rw [HostMemory.allocated_iff]
  constructor
  · rintro hall ⟨-, -, i, hi, hnone⟩
    have := hall i hi
    rw [← byteAt_of_route_hostMem h hi, hnone] at this
    simp at this
  · intro hno i hi
    rw [← byteAt_of_route_hostMem h hi, Option.isSome_iff_ne_none]
    exact fun hnone => hno ⟨x, h, i, hi, hnone⟩

/-- R63: the first check, of the address. -/
theorem dataRoute_inaccessible {s : State} {a : Word} {n : Nat}
    (h : route s.par a n = .straddle ∨ Unallocated s a n) : s.dataRoute a n = .error ⟨.dataAddress, a⟩ := by
  unfold State.dataRoute
  obtain h | h := h
  · rw [h]
  · obtain ⟨x, hr, -⟩ := id h
    have hal : HostMemory.allocated s.hmem x n = false := by
      rw [← Bool.not_eq_true, allocated_iff_not_unallocated hr, not_not]; exact h
    simp [hr, hal]

/-- R63: past the first check, the second is the alignment of a word. -/
theorem dataRoute_accessible {s : State} {a : Word} {n : Nat} (hs : route s.par a n ≠ .straddle)
    (hu : ¬ Unallocated s a n) : s.dataRoute a n =
      if n = 8 ∧ aligned a = false then .error ⟨.dataMisaligned, a⟩ else .ok (route s.par a n) := by
  unfold State.dataRoute
  cases hr : route s.par a n with
  | straddle => exact absurd hr hs
  | seg X o => rfl
  | hostMem x => simp [(allocated_iff_not_unallocated hr).mpr hu]

theorem readRoute_lt (s : State) (r : Route) (n : Nat) : (s.readRoute r n).toNat < 2 ^ (8 * n) := by
  cases r with
  | seg X o => exact leWord_lt _ _ _
  | hostMem x => exact leWord_lt _ _ _
  | straddle => exact Nat.two_pow_pos _

/-- Settles O26: reads and writes share their route, whose checks are made in order. -/
theorem dataAccessChecks : Obligations.DataAccessChecks := by
  unfold Obligations.DataAccessChecks
  intro s a v n hp hn unallocated
  refine ⟨fun h => ?_, fun hs hu ⟨hn8, hal⟩ => ?_, fun hs hu hal => ?_⟩
  · have hr := dataRoute_inaccessible h
    exact ⟨memRead_of_error hr, memWrite_of_error hr v⟩
  · have hr := dataRoute_accessible hs hu
    rw [if_pos ⟨hn8, by rwa [← Bool.not_eq_true, aligned_iff]⟩] at hr
    exact ⟨memRead_of_error hr, memWrite_of_error hr v⟩
  · have hr := dataRoute_accessible hs hu
    rw [if_neg (by rintro ⟨hn8, hfalse⟩; rw [(aligned_iff a).mpr (hal hn8)] at hfalse; simp at hfalse)] at hr
    exact ⟨⟨_, memRead_of_route hr, byteAt_readRoute hp (by omega) hr, readRoute_lt _ _ _⟩,
      _, memWrite_of_route hr v, bytesHold_writeRoute hp hr v, bytesKeptOutside_writeRoute hp hr v⟩

/-! ### A stack access -/

theorem stackWrite_of_not {s : State} {a : Word} (h : ¬ IsStackCell s.par a) (v : Word) :
    s.stackWrite a v = .error ⟨.stackRange, a⟩ := by
  unfold State.stackWrite; rw [stackCell_of_not h]; rfl

theorem stackWrite_of_isStackCell {s : State} {a : Word} (hp : s.par.wf = true) (h : IsStackCell s.par a) (v : Word) :
    ∃ t, s.stackWrite a v = .ok t := by
  unfold State.stackWrite; rw [stackCell_of_isStackCell hp h]; exact ⟨_, rfl⟩

/-- R62: a stack read answers the bytes that stand there. -/
theorem bytesHold_stackRead {s : State} (hp : s.par.wf = true) {a w : Word} (h : s.stackRead a = .ok w) :
    BytesHold a 8 w s := by
  obtain ⟨o, ho, rfl⟩ := stackRead_ok h
  exact bytesHold_readSeg (X := .stack) hp (Nat.le_refl 8) (stackCell_ok ho).1

/-- Settles O27: both accesses have the one check. -/
theorem stackAccessChecks : Obligations.StackAccessChecks := by
  unfold Obligations.StackAccessChecks
  refine fun s a v hp => ⟨fun hcell => ?_, fun hno => ⟨stackRead_of_not hno, stackWrite_of_not hno v⟩⟩
  obtain ⟨w, hw⟩ := stackRead_of_isStackCell hp hcell
  obtain ⟨t, ht⟩ := stackWrite_of_isStackCell hp hcell v
  have hbytes := byteAt_stackWrite hp ht
  exact ⟨⟨w, hw, bytesHold_stackRead hp hw⟩, t, ht,
    bytesHold_of (isStackCell_end hp hcell) fun x hx => by rw [hbytes, if_pos hx],
    fun x hx => by rw [hbytes, if_neg hx]⟩

/-- R64: a push moves sp to the cell it writes. -/
theorem sp_of_push {s t : State} {v : Word} (h : s.push v = .ok t) : t.sp = s.sp - 8 := by
  obtain ⟨o, -, rfl⟩ := push_ok h
  rfl

theorem par_of_push {s t : State} {v : Word} (h : s.push v = .ok t) : t.par = s.par := by
  obtain ⟨o, -, rfl⟩ := push_ok h
  rfl

/-- R64: and that cell reads as the value. -/
theorem stackRead_of_push {s t : State} {v : Word} (h : s.push v = .ok t) : t.stackRead (s.sp - 8) = .ok v := by
  obtain ⟨o, ho, rfl⟩ := push_ok h
  unfold State.stackRead
  rw [stackCell_congr (par_of_push h), ho]
  exact congrArg Except.ok (Memory.readWord_writeWord s.stack o v)

/-- Settles O28: the pop reads the cell the push wrote. -/
theorem popAfterPush : Obligations.PopAfterPush := by
  unfold Obligations.PopAfterPush
  intro s t v h
  have hsp := sp_of_push h
  refine ⟨hsp, ?_⟩
  rw [pop_of_read (v := v) (by rw [hsp]; exact stackRead_of_push h), hsp, BitVec.sub_add_cancel]

end Sys2Proof.Machine
end

section
/-! PROOFS. The statements about LEA, IMM, ENT, EXIT, loads and stores (spec/41_frame_and_immediate.md,
spec/42_control_transfer.md, spec/43_load_store.md, spec/46_halt.md). LEA, IMM, LI and LC write ax alone, and SI and SC
are a pop followed by a data write; what each of the two shapes leaves is said once. -/

namespace Sys2Proof.Machine

/-! ### Instructions that write ax alone -/

/-- What an instruction leaves whose effect is to set ax. -/
theorem exec_of_setAx {i : Instr} {f : State → Access State} {s : State} {v : Word} (hexec : exec i s = runInstr i f s)
    (h : f (s.begun i) = .ok ((s.begun i).setAx v)) :
    ∃ t, exec i s = .next t ∧ t.ax = v ∧ Retired i s t ∧ PortQuiet s t ∧ BytesKept s t
      ∧ t.pc = (s.begun i).pc ∧ t.bp = s.bp ∧ t.sp = s.sp :=
  ⟨_, hexec.trans (runInstr_ok h), rfl, by constructor <;> simp, by constructor <;> simp, fun x => by simp, rfl,
    by simp, by simp⟩

/-- Settles O29: neither effect has an access that could fail. -/
theorem leaAndImmLoadAx : Obligations.LeaAndImmLoadAx := by
  unfold Obligations.LeaAndImmLoadAx
  intro s w p hp
  simp only [List.mem_cons, List.not_mem_nil, or_false] at hp
  obtain rfl | rfl := hp
  · rw [← pc_two (width_lea w)]
    exact exec_of_setAx (exec_lea w s) (by rw [State.begun_bp]; rfl)
  · rw [← pc_two (width_imm w)]
    exact exec_of_setAx (exec_imm w s) rfl

/-- R160, R161: a load of one cell completes once its read has a value. -/
theorem exec_load {i : Instr} {n : Nat} {g : State → Word → Word} (hw : i.width = 1) {s : State} {v : Word}
    (hexec : exec i s = runInstr i (fun t => (t.memRead t.ax n).map fun b => t.setAx (g t b)) s)
    (h : s.memRead s.ax n = .ok v) :
    ∃ t, exec i s = .next t ∧ t.ax = g (s.begun i) v ∧ PointersKept s t ∧ Retired i s t ∧ PortQuiet s t
      ∧ BytesKept s t := by
  obtain ⟨t, ht, hax, hret, hport, hbytes, hpc, hbp, hsp⟩ := exec_of_setAx (v := g (s.begun i) v) hexec
    (by rw [State.begun_ax, memRead_begun, h]; rfl)
  exact ⟨t, ht, hax, ⟨hpc.trans (pc_one hw s), hbp, hsp⟩, hret, hport, hbytes⟩

/-- R160, R161: and is the read's fault otherwise. -/
theorem exec_load_faults {i : Instr} {n : Nat} {g : State → Word → Word} {s : State} {e : Trap}
    (hexec : exec i s = runInstr i (fun t => (t.memRead t.ax n).map fun b => t.setAx (g t b)) s)
    (h : s.memRead s.ax n = .error e) : FaultsWith (exec i s) e.cause e.info s := by
  rw [hexec]
  exact faultsWith_runInstr (by rw [State.begun_ax, memRead_begun, h]; rfl)

/-- Settles O35: LI is a load of eight bytes. -/
theorem liLoadsWord : Obligations.LiLoadsWord := by
  unfold Obligations.LiLoadsWord
  exact fun s => ⟨fun v h => exec_load (g := fun _ b => b) width_li (exec_li s) h,
    fun e h => exec_load_faults (g := fun _ b => b) (exec_li s) h⟩

/-- Settles O36: LC is a load of one byte, widened. -/
theorem lcLoadsByte : Obligations.LcLoadsByte := by
  unfold Obligations.LcLoadsByte
  refine fun s _ => ⟨fun b h => ?_, fun h => ?_⟩
  · obtain ⟨v, hv, rfl⟩ := memRead_one h
    rw [← widenByte_eq, ← State.begun_par s .lc]
    exact exec_load (g := fun t b => widenByte t.par.lcExtend b) width_lc (exec_lc s) hv
  · exact exec_load_faults (e := ⟨.dataAddress, s.ax⟩) (exec_lc s) (memRead_of_error (dataRoute_one_none h))

/-! ### Stores -/

/-- The state in which SI and SC write: the address has been popped. -/
theorem dataRoute_popped (s : State) (i : Instr) (a : Word) (n : Nat) :
    ((s.begun i).setSp (s.sp + 8)).dataRoute a n = s.dataRoute a n := dataRoute_congr (by simp) (by simp) a n

theorem pop_begun {s : State} {a : Word} (i : Instr) (h : s.stackRead s.sp = .ok a) :
    (s.begun i).pop = .ok (a, (s.begun i).setSp (s.sp + 8)) := by
  rw [pop_of_read (v := a) (by simpa using h), State.begun_sp]

theorem pop_begun_error {s : State} {e : Trap} (i : Instr) (h : s.stackRead s.sp = .error e) :
    (s.begun i).pop = .error e := pop_of_error (by simpa using h)

/-- What a pop and a write to a route leave. -/
theorem stored {s : State} (hp : s.par.wf = true) {a : Word} {n : Nat} {r : Route} (h : s.dataRoute a n = .ok r)
    (i : Instr) (v : Word) :
    let t := ((s.begun i).setSp (s.sp + 8)).writeRoute r n v
    BytesHold a n v t ∧ BytesKeptOutside a n s t ∧ Retired i s t ∧ PortQuiet s t := by
  have hr := (dataRoute_popped s i a n).trans h
  have hp' : ((s.begun i).setSp (s.sp + 8)).par.wf = true := by simpa using hp
  refine ⟨bytesHold_writeRoute hp' hr v, fun x hx => ?_, retired_writeRoute r n v (by constructor <;> simp),
    portQuiet_writeRoute r n v (by constructor <;> simp)⟩
  rw [bytesKeptOutside_writeRoute hp' hr v x hx, byteAt_setSp, byteAt_begun]

/-- R162: SI, its pop and its write one after the other. -/
theorem storeWord_eq {s : State} {a : Word} (h : s.stackRead s.sp = .ok a) :
    storeWord (s.begun .si) = ((s.begun .si).setSp (s.sp + 8)).memWrite a 8 s.ax := by
  unfold storeWord
  rw [pop_begun .si h]
  simp only [bind, Except.bind, State.setSp_ax, State.begun_ax]

theorem storeWord_pop_error {s : State} {e : Trap} (h : s.stackRead s.sp = .error e) :
    storeWord (s.begun .si) = .error e := by
  unfold storeWord
  rw [pop_begun_error .si h]; rfl

/-- Settles O37: the pop fails, the write fails, or both succeed. -/
theorem siStoresWord : Obligations.SiStoresWord := by
  unfold Obligations.SiStoresWord
  intro s hp
  rw [exec_si]
  refine ⟨fun a r ha hr => ?_, fun e he => ?_, fun a e ha he => ?_⟩
  · have hok := (storeWord_eq ha).trans (memWrite_of_route ((dataRoute_popped s .si a 8).trans hr) s.ax)
    obtain ⟨hhold, hkept, hret, hport⟩ := stored hp hr .si s.ax
    exact ⟨_, runInstr_ok hok, hhold, hkept, by simp, by simp, by simp, by simp, hret, hport⟩
  · exact faultsWith_runInstr (storeWord_pop_error he)
  · exact faultsWith_runInstr ((storeWord_eq ha).trans (memWrite_of_error ((dataRoute_popped s .si a 8).trans he) s.ax))

/-- R163: SC, its pop, its write and its re-read one after the other. -/
theorem storeByte_eq {s : State} {a : Word} (h : s.stackRead s.sp = .ok a) :
    storeByte (s.begun .sc) = (((s.begun .sc).setSp (s.sp + 8)).memWrite a 1 s.ax).map fun v =>
      v.setAx (widenByte v.par.lcExtend v.ax) := by
  unfold storeByte
  rw [pop_begun .sc h]
  simp only [bind, Except.bind, State.setSp_ax, State.begun_ax]
  cases ((s.begun .sc).setSp (s.sp + 8)).memWrite a 1 s.ax <;> rfl

theorem storeByte_pop_error {s : State} {e : Trap} (h : s.stackRead s.sp = .error e) :
    storeByte (s.begun .sc) = .error e := by
  unfold storeByte
  rw [pop_begun_error .sc h]; rfl

/-- The four registers are no part of what `Retired` and `PortQuiet` say. -/
theorem retired_registers {i : Instr} {s t : State} (h : Retired i s t) (pc bp sp ax : Word) :
    Retired i s { t with pc := pc, bp := bp, sp := sp, ax := ax } := by
  obtain ⟨status, cycle, trace, traceOn, mode, par, op, cursor, exitValue, cause, faultPc, info⟩ := h
  exact ⟨status, cycle, trace, traceOn, mode, par, op, cursor, exitValue, cause, faultPc, info⟩

theorem portQuiet_registers {s t : State} (h : PortQuiet s t) (pc bp sp ax : Word) :
    PortQuiet s { t with pc := pc, bp := bp, sp := sp, ax := ax } := by
  obtain ⟨heap, requests, replies, draws⟩ := h
  exact ⟨heap, requests, replies, draws⟩

/-- R52: one byte of a word is its low eight bits. -/
theorem byteAt_of_bytesHold_one {a v : Word} {t : State} (h : BytesHold a 1 v t) :
    t.byteAt a = some (v.setWidth 8) := by
  have h0 := h 0 (by omega)
  rwa [BitVec.add_zero, show byteOf v 0 = v.setWidth 8 by simp [byteOf]] at h0

/-- Settles O38: the pop fails, the write fails, or both succeed. -/
theorem scStoresByte : Obligations.ScStoresByte := by
  unfold Obligations.ScStoresByte
  intro s hp
  rw [exec_sc]
  refine ⟨fun a ha hb => ?_, fun e he => ?_, fun a ha hno => ?_⟩
  · obtain ⟨r, hr⟩ := dataRoute_one hb
    have hok := storeByte_eq ha
    rw [memWrite_of_route ((dataRoute_popped s .sc a 1).trans hr)] at hok
    obtain ⟨hhold, hkept, hret, hport⟩ := stored hp hr .sc s.ax
    refine ⟨_, runInstr_ok hok, ?_, fun x hx => ?_, ?_, by simp, by simp, by simp, retired_registers hret _ _ _ _,
      portQuiet_registers hport _ _ _ _⟩
    · rw [byteAt_setAx]; exact byteAt_of_bytesHold_one hhold
    · rw [byteAt_setAx]; exact hkept x hx
    · rw [State.setAx_ax, widenByte_eq]; simp
  · exact faultsWith_runInstr (storeByte_pop_error he)
  · refine faultsWith_runInstr (e := ⟨.dataAddress, a⟩) ?_
    rw [storeByte_eq ha, memWrite_of_error ((dataRoute_popped s .sc a 1).trans (dataRoute_one_none hno))]
    rfl

/-! ### ENT -/

/-- R144: ENT where the push succeeds. -/
theorem exec_ent_completes {s u : State} {w : Word} (h : (s.begun (.ent w)).push s.bp = .ok u) :
    exec (.ent w) s = .next ((u.setBp u.sp).setSp (u.sp - cellOffset w)) := by
  rw [exec_ent]
  refine runInstr_ok ?_
  rw [State.begun_bp, h]; rfl

/-- R144: ENT where the push fails. -/
theorem exec_ent_faults {s : State} {w : Word} {e : Trap} (h : (s.begun (.ent w)).push s.bp = .error e) :
    FaultsWith (exec (.ent w) s) e.cause e.info s := by
  rw [exec_ent]
  refine faultsWith_runInstr ?_
  rw [State.begun_bp, h]; rfl

/-- Settles O32: the effect of ENT is a push of bp, then writes of bp and sp. -/
theorem entEntersFrame : Obligations.EntEntersFrame := by
  unfold Obligations.EntEntersFrame
  refine fun s w hp => ⟨fun hcell => ?_, fun hno => exec_ent_faults (push_begun_fault hno)⟩
  obtain ⟨u, hpush, hhold, hkept, hsp, -, hax, hpc, hret, hport⟩ :=
    push_begun (i := .ent w) (v := s.bp) hp hcell
  refine ⟨_, exec_ent_completes hpush, hsp, ?_, fun i hi => ?_, fun x hx => ?_, hpc.trans (pc_two rfl s), hax,
    retired_registers hret _ _ _ _, portQuiet_registers hport _ _ _ _⟩
  · rw [State.setSp_sp, hsp]; rfl
  · rw [byteAt_setSp, byteAt_setBp]; exact hhold i hi
  · rw [byteAt_setSp, byteAt_setBp]; exact hkept x hx

/-! ### EXIT -/

/-- Settles O56: the effect of EXIT is one stack read, whose value is recorded. -/
theorem exitRecordsTopOfStack : Obligations.ExitRecordsTopOfStack := by
  unfold Obligations.ExitRecordsTopOfStack
  intro s
  rw [exec_exit]
  refine ⟨fun v h => ?_, fun e h => ?_⟩
  · have hok : ((s.begun .exit).stackRead (s.begun .exit).sp).map (s.begun .exit).recordExit
        = .ok ((s.begun .exit).recordExit v) := by rw [stackRead_begun, State.begun_sp, h]; rfl
    refine ⟨_, runInstr_ok hok, rfl, rfl, ⟨pc_one rfl s, by simp, by simp⟩, by simp, by simp, by simp, by simp, by simp,
      by simp, by simp, by simp, by simp, by simp, State.begun_trace s .exit, by constructor <;> simp,
      fun x => by simp⟩
  · refine faultsWith_runInstr ?_
    rw [stackRead_begun, State.begun_sp, h]; rfl

end Sys2Proof.Machine
end

section
/-! PROOFS. The remaining statements about the binary opcodes (spec/44_alu.md): the shape of all sixteen, and the results
of the comparisons, of ADD, SUB and MUL, of the shifts, and of DIV and MOD. -/

namespace Sys2Proof.Machine

/-! ### What every binary opcode leaves -/

/-- R175: what a binary opcode leaves beside ax and the count of free values. -/
def OperandPopped (i : Instr) (s t : State) : Prop :=
  Retired i s t ∧ BytesKept s t ∧ t.pc = s.pc + 8 ∧ t.bp = s.bp ∧ t.sp = s.sp + 8
    ∧ t.requests = s.requests ∧ t.replies = s.replies ∧ t.heap = s.heap

theorem BinaryDone.operandPopped {i : Instr} {s t : State} (h : BinaryDone i s t) : OperandPopped i s t := by
  obtain ⟨hret, hport, hbytes, hpc, hbp, hsp⟩ := h
  exact ⟨hret, hbytes, hpc, hbp, hsp, hport.requests, hport.replies, hport.heap⟩

theorem operandPopped_drawAx (s : State) {i : Instr} (hw : i.width = 1) :
    OperandPopped i s ((s.begun i).setSp (s.sp + 8)).drawAx :=
  ⟨by constructor <;> simp, fun x => by simp, by simp [hw], by simp, by simp, by simp, by simp, by simp⟩

/-- R175: a binary opcode other than a shift has popped its operand, or is a fault. -/
theorem operandPopped_of_binary {i : Instr} {f : Word → Word → Access Word} {s t : State} {a : Word}
    (hw : i.width = 1) (ha : s.stackRead s.sp = .ok a) (h : runInstr i (fun t => t.binary f) s = .next t)
    (hne : t.status ≠ .fault) : OperandPopped i s t := by
  obtain hok | ⟨e, -, rfl⟩ := runInstr_cases h
  · rw [binary_of_read ha] at hok
    cases hf : f a s.ax with
    | error e => rw [hf] at hok; simp [Except.map] at hok
    | ok r =>
      rw [hf] at hok
      cases hok
      exact (binaryDone s hw r).operandPopped
  · exact absurd rfl hne

/-- R185, R186: a shift has popped its operand, whatever its count. -/
theorem exec_shift_ok {i : Instr} {f : Word → Word → Word} {s : State} {a : Word}
    (hexec : exec i s = runInstr i (fun t => t.shift f) s) (hw : i.width = 1) (ha : s.stackRead s.sp = .ok a) :
    ∃ t, exec i s = .next t ∧ OperandPopped i s t
      ∧ (shiftInRange s.ax = true → t.draws = s.draws ∧ t.ax = f a s.ax) := by
  rw [hexec]
  refine ⟨_, runInstr_ok (shift_of_read ha f), ?_⟩
  split
  · exact ⟨(binaryDone s hw _).operandPopped, fun _ => by simp⟩
  · rename_i hno
    exact ⟨operandPopped_drawAx s hw, fun hin => absurd hin hno⟩

/-- R175: a shift whose pop fails. -/
theorem exec_shift_faults {i : Instr} {f : Word → Word → Word} {s : State} {e : Trap}
    (hexec : exec i s = runInstr i (fun t => t.shift f) s) (h : s.stackRead s.sp = .error e) :
    FaultsWith (exec i s) e.cause e.info s := by
  rw [hexec]
  exact faultsWith_runInstr (shift_of_error h f)

/-- Settles O40: each opcode has one of the two shapes, a binary function or a shift. -/
theorem binaryOpcodesPopOnce : Obligations.BinaryOpcodesPopOnce := by
  unfold Obligations.BinaryOpcodesPopOnce
  intro s i hi
  obtain ⟨hw, ⟨f, hexec⟩ | ⟨-, f, hexec⟩⟩ := exec_binary_cases i hi
  · refine ⟨fun e he => exec_binary_faults hexec he, fun a t ha h hne => ?_⟩
    rw [hexec] at h
    exact operandPopped_of_binary hw ha h hne
  · refine ⟨fun e he => exec_shift_faults (hexec s) he, fun a t ha h _ => ?_⟩
    obtain ⟨u, hu, hpopped, -⟩ := exec_shift_ok (hexec s) hw ha
    rw [h] at hu
    cases hu
    exact hpopped

/-! ### Comparisons, ADD, SUB, MUL -/

/-- Settles O42: each function is `boolWord` of its comparison. -/
theorem compareOpcodesWriteBool : Obligations.CompareOpcodesWriteBool := by
  unfold Obligations.CompareOpcodesWriteBool
  intro s a ha p hp
  simp only [List.mem_cons, List.not_mem_nil, or_false] at hp
  obtain rfl | rfl | rfl | rfl | rfl | rfl := hp
  · exact exec_binary_ok exec_eq rfl ha rfl
  · exact exec_binary_ok exec_ne rfl ha rfl
  · exact exec_binary_ok exec_lt rfl ha rfl
  · exact exec_binary_ok exec_gt rfl ha rfl
  · exact exec_binary_ok exec_le rfl ha rfl
  · exact exec_binary_ok exec_ge rfl ha rfl

theorem add_eq_ofInt (a b : Word) : a + b = BitVec.ofInt 64 (a.toInt + b.toInt) := by
  rw [BitVec.ofInt_add, BitVec.ofInt_toInt, BitVec.ofInt_toInt]

theorem sub_eq_ofInt (a b : Word) : a - b = BitVec.ofInt 64 (a.toInt - b.toInt) := by
  rw [← BitVec.toInt_inj, BitVec.toInt_sub, BitVec.toInt_ofInt]

theorem mul_eq_ofInt (a b : Word) : BitVec.ofInt 64 (a.toInt * b.toInt) = a * b := by
  rw [BitVec.ofInt_mul, BitVec.ofInt_toInt, BitVec.ofInt_toInt]

/-- Settles O43: the operations of the words are those of the integers modulo 2^64, in both readings. -/
theorem addSubMulWrap : Obligations.AddSubMulWrap := by
  unfold Obligations.AddSubMulWrap
  intro s a ha p hp
  simp only [List.mem_cons, List.not_mem_nil, or_false] at hp
  obtain rfl | rfl | rfl := hp
  · obtain ⟨t, ht, hax, hdone⟩ := exec_binary_ok exec_add rfl ha rfl
    exact ⟨t, ht, by rw [hax, add_eq_ofInt], by rw [hax, BitVec.toNat_add], hdone⟩
  · obtain ⟨t, ht, hax, hdone⟩ := exec_binary_ok exec_sub rfl ha rfl
    exact ⟨t, ht, by rw [hax, sub_eq_ofInt], by rw [hax, BitVec.toNat_sub, Nat.add_comm], hdone⟩
  · obtain ⟨t, ht, hax, hdone⟩ := exec_binary_ok exec_mul rfl ha rfl
    exact ⟨t, ht, hax, by rw [hax, mul_eq_ofInt, BitVec.toNat_mul], hdone⟩

/-! ### Shifts -/

theorem toNat_shiftLeft (a b : Word) : (shiftLeft a b).toNat = a.toNat * 2 ^ b.toNat % 2 ^ 64 := by
  rw [shiftLeft, BitVec.toNat_ofNat]

/-- R186: the quotient of a word by a power of two, rounded down, is a word. -/
theorem toInt_shiftRight (a b : Word) : (shiftRight a b).toInt = a.toInt / 2 ^ b.toNat := by
  obtain ⟨hlow, hhigh⟩ := toInt_range a
  have hpos : (0 : Int) < 2 ^ b.toNat := Int.pow_pos (by decide)
  rw [shiftRight, Int.fdiv_eq_ediv_of_nonneg _ hpos.le]
  refine toInt_ofInt_of_range ?_ ?_
  · rw [Int.le_ediv_iff_mul_le hpos]
    nlinarith
  · rw [Int.ediv_lt_iff_lt_mul hpos]
    nlinarith

/-- Settles O44: a shift by a count in range computes its function, and by any other draws a value. -/
theorem shiftOpcodes : Obligations.ShiftOpcodes := by
  unfold Obligations.ShiftOpcodes
  intro s a ha i hi
  have hrange : 0 ≤ s.ax.toInt ∧ s.ax.toInt ≤ 63 → shiftInRange s.ax = true := by simp [shiftInRange]
  simp only [List.mem_cons, List.not_mem_nil, or_false] at hi
  obtain rfl | rfl := hi
  · obtain ⟨t, ht, ⟨hret, hbytes, hpc, hbp, hsp, hreq, hrep, hheap⟩, hin⟩ := exec_shift_ok (exec_shl s) rfl ha
    refine ⟨t, ht, hret, hbytes, hpc, hbp, hsp, hreq, hrep, hheap, fun hc => ?_⟩
    obtain ⟨hdraws, hax⟩ := hin (hrange hc)
    exact ⟨hdraws, fun _ => by rw [hax, toNat_shiftLeft], by simp⟩
  · obtain ⟨t, ht, ⟨hret, hbytes, hpc, hbp, hsp, hreq, hrep, hheap⟩, hin⟩ := exec_shift_ok (exec_shr s) rfl ha
    refine ⟨t, ht, hret, hbytes, hpc, hbp, hsp, hreq, hrep, hheap, fun hc => ?_⟩
    obtain ⟨hdraws, hax⟩ := hin (hrange hc)
    exact ⟨hdraws, by simp, fun _ => by rw [hax, toInt_shiftRight]⟩

/-! ### DIV and MOD -/

theorem toInt_eq_min_iff (a : Word) : a = minWord ↔ a.toInt = -2 ^ 63 := by
  rw [← BitVec.toInt_inj]; rfl

theorem divisionFault_zero (a : Word) : divisionFault a 0 = some .divZero := rfl

theorem divisionFault_overflow {a b : Word} (ha : a.toInt = -2 ^ 63) (hb : b.toInt = -1) :
    divisionFault a b = some .divOverflow := by
  have hne : b ≠ 0 := by rintro rfl; simp at hb
  rw [divisionFault, if_neg hne, if_pos ⟨(toInt_eq_min_iff a).mpr ha, hb⟩]

theorem divisionFault_none {a b : Word} (hb : b ≠ 0) (hno : ¬ (a.toInt = -2 ^ 63 ∧ b.toInt = -1)) :
    divisionFault a b = none := by
  rw [divisionFault, if_neg hb, if_neg (by rwa [toInt_eq_min_iff])]

/-- R190: the quotient is a word, but for the one overflow. -/
theorem quotient_range {x y : Int} (hx : -2 ^ 63 ≤ x ∧ x < 2 ^ 63) (hno : ¬ (x = -2 ^ 63 ∧ y = -1)) :
    -2 ^ 63 ≤ quotient x y ∧ quotient x y < 2 ^ 63 := by
  have hcases : y = 1 ∨ y = -1 ∨ y.natAbs ≠ 1 := by omega
  obtain rfl | rfl | hy := hcases
  · rwa [quotient, Int.tdiv_one]
  · have hne : x ≠ -2 ^ 63 := fun h => hno ⟨h, rfl⟩
    rw [quotient, Int.tdiv_neg, Int.tdiv_one]
    omega
  · have habs : (x.tdiv y).natAbs ≤ x.natAbs / 2 := by
      rw [Int.natAbs_tdiv]
      obtain h0 | hpos := Nat.eq_zero_or_pos y.natAbs
      · rw [h0]; exact (Nat.div_zero _).trans_le (Nat.zero_le _)
      · exact Nat.div_le_div_left (by omega) (by omega)
    unfold quotient
    omega

/-- R191: the remainder is a word. -/
theorem remainder_range {x y : Int} (hy : -2 ^ 63 ≤ y ∧ y < 2 ^ 63) (h0 : y ≠ 0) :
    -2 ^ 63 ≤ remainder x y ∧ remainder x y < 2 ^ 63 := by
  have hmod : remainder x y = x.tmod y := by rw [remainder, Int.tmod_def, Int.mul_comm]
  have habs : (x.tmod y).natAbs < y.natAbs := by
    rw [Int.natAbs_tmod]; exact Nat.mod_lt _ (by omega)
  omega

/-- R190, R191: a division whose checks fail. -/
theorem exec_divided_faults {i : Instr} {f : Int → Int → Int}
    (hexec : ∀ s, exec i s = runInstr i (fun t => t.binary (divided f)) s) {s : State} {a : Word} {c : FaultCause}
    (ha : s.stackRead s.sp = .ok a) (hc : divisionFault a s.ax = some c) : FaultsWith (exec i s) c a s := by
  rw [hexec]
  refine faultsWith_runInstr (e := ⟨c, a⟩) ?_
  rw [binary_of_read ha, divided, hc]; rfl

/-- R190, R191: a division whose checks pass and whose result `f` is a word. -/
theorem exec_divided_ok {i : Instr} {f : Int → Int → Int}
    (hexec : ∀ s, exec i s = runInstr i (fun t => t.binary (divided f)) s) (hw : i.width = 1) {s : State} {a : Word}
    (ha : s.stackRead s.sp = .ok a) (hc : divisionFault a s.ax = none)
    (hrange : -2 ^ 63 ≤ f a.toInt s.ax.toInt ∧ f a.toInt s.ax.toInt < 2 ^ 63) :
    ∃ t, exec i s = .next t ∧ t.ax.toInt = f a.toInt s.ax.toInt ∧ BinaryDone i s t := by
  obtain ⟨t, ht, hax, hdone⟩ := exec_binary_ok hexec hw ha
    (r := BitVec.ofInt 64 (f a.toInt s.ax.toInt)) (by rw [divided, hc])
  exact ⟨t, ht, by rw [hax, toInt_ofInt_of_range hrange.1 hrange.2], hdone⟩

/-- Settles O45: the checks are one function of both opcodes, and past them the results are words. -/
theorem divAndModDivide : Obligations.DivAndModDivide := by
  unfold Obligations.DivAndModDivide
  intro s a ha p hp
  have hzero : s.ax = 0 → divisionFault a s.ax = some .divZero := fun h => by rw [h, divisionFault_zero]
  simp only [List.mem_cons, List.not_mem_nil, or_false] at hp
  obtain rfl | rfl := hp
  · refine ⟨fun h => exec_divided_faults exec_div ha (hzero h),
      fun h1 h2 => exec_divided_faults exec_div ha (divisionFault_overflow h1 h2), fun h0 hno => ?_⟩
    exact exec_divided_ok exec_div rfl ha (divisionFault_none h0 hno) (quotient_range (toInt_range a) hno)
  · refine ⟨fun h => exec_divided_faults exec_mod ha (hzero h),
      fun h1 h2 => exec_divided_faults exec_mod ha (divisionFault_overflow h1 h2), fun h0 hno => ?_⟩
    have hne : s.ax.toInt ≠ 0 := fun h => h0 (BitVec.toInt_inj.mp h)
    exact exec_divided_ok exec_mod rfl ha (divisionFault_none h0 hno)
      (remainder_range (toInt_range s.ax) hne)

end Sys2Proof.Machine
end

section
/-! PROOFS. The statements about OPEN, READ, CLOS, MALC, FREE, MSET and MCMP (spec/45_host_calls.md). Each reads its
arguments, is served in the state with the request sent, and ends as `served_next` or `runHostCall_error` says. -/

namespace Sys2Proof.Machine

/-! ### What all eight leave -/

theorem width_of_hostCall {i : Instr} (hi : i ∈ hostCallOpcodes) : i.width = 1 := by
  simp only [hostCallOpcodes, List.mem_cons, List.not_mem_nil, or_false] at hi
  obtain rfl | rfl | rfl | rfl | rfl | rfl | rfl | rfl := hi <;> rfl

/-- What a host call answers: an exception, or a state the service has kept. -/
theorem hostCall_next {i : Instr} (hi : i ∈ hostCallOpcodes) {s t : State} (h : exec i s = .next t) :
    (∃ u e, t = s.takeFault u e) ∨ ∃ q, Served i ((s.begun i).sent q) t := by
  obtain ⟨f, hexec, -, hserved⟩ := hostCall_served i hi
  rw [hexec] at h
  obtain ⟨e, -, hx⟩ | ⟨q, -, -, hx⟩ | ⟨q, r, hq, -, hx⟩ := runHostCall_cases i f s <;> rw [hx] at h
  · cases h; exact .inl ⟨_, e, rfl⟩
  · simp at h
  · have hy := hserved _ _ hq r ((s.begun i).sent q)
    cases hs : serve q r ((s.begun i).sent q) with
    | ok u => rw [hs] at hy h; cases h; exact .inr ⟨q, hy⟩
    | error e => rw [hs] at h; cases h; exact .inl ⟨_, e, rfl⟩

/-- Settles O46: an exception restores everything, and a service keeps all but ax, memory and the live ranges. -/
theorem hostCallsTouchOnlyAx : Obligations.HostCallsTouchOnlyAx := by
  unfold Obligations.HostCallsTouchOnlyAx
  intro s t i hi h
  obtain ⟨u, e, rfl⟩ | ⟨q, hs⟩ := hostCall_next hi h
  · exact ⟨rfl, rfl, rfl, rfl, rfl, rfl, .inl ⟨_, _, preciseFault_takeFault s u e⟩, fun _ _ X => by cases X <;> rfl⟩
  · obtain ⟨hret, hkept, -⟩ := retired_of_served (width_of_hostCall hi) hs
    exact ⟨hkept.bp, hkept.sp, hret.opCounter, hret.dataCursor, hret.exitValue, hret.par, .inr ⟨hret, hkept.pc⟩,
      fun h1 h2 X => by rw [hs.seg h1 h2 X, State.seg_sent, State.seg_begun]⟩

/-! ### Reading the arguments -/

theorem access_bind_of_ok {α β : Type} {x : Access α} {a : α} (h : x = .ok a) (f : α → Access β) : (x >>= f) = f a := by
  rw [h]; rfl

theorem access_bind_of_error {α β : Type} {x : Access α} {e : Trap} (h : x = .error e) (f : α → Access β) :
    (x >>= f) = .error e := by
  rw [h]; rfl

/-- R207: CLOS, MALC and FREE read one argument. -/
theorem one_arg {s : State} (i : Instr) {v : Word} (h : s.stackRead s.sp = .ok v) (g : Word → HostRequest) :
    ((s.begun i).arg 0).map g = .ok (g v) := by rw [arg_zero, h]; rfl

theorem one_arg_error {s : State} (i : Instr) {e : Trap} (h : s.stackRead s.sp = .error e) (g : Word → HostRequest) :
    ((s.begun i).arg 0).map g = .error e := by rw [arg_zero, h]; rfl

/-- R208: OPEN reads two arguments. -/
theorem requestOpn_ok {s : State} {path flags : Word} (h1 : s.stackRead (s.sp + 8) = .ok path)
    (h0 : s.stackRead s.sp = .ok flags) : requestOpn (s.begun .opn) = .ok (.opn path flags) := by
  unfold requestOpn
  rw [access_bind_of_ok ((arg_one s _).trans h1), access_bind_of_ok ((arg_zero s _).trans h0)]; rfl

theorem requestOpn_error_one {s : State} {e : Trap} (h1 : s.stackRead (s.sp + 8) = .error e) :
    requestOpn (s.begun .opn) = .error e := by
  unfold requestOpn
  rw [access_bind_of_error ((arg_one s _).trans h1)]

theorem requestOpn_error_zero {s : State} {v : Word} {e : Trap} (h1 : s.stackRead (s.sp + 8) = .ok v)
    (h0 : s.stackRead s.sp = .error e) : requestOpn (s.begun .opn) = .error e := by
  unfold requestOpn
  rw [access_bind_of_ok ((arg_one s _).trans h1), access_bind_of_error ((arg_zero s _).trans h0)]

/-- R209, R215, R216: READ, MSET and MCMP read three arguments. -/
def requestThree (g : Word → Word → Word → HostRequest) (t : State) : Access HostRequest := do
  let x ← t.arg 2
  let y ← t.arg 1
  let z ← t.arg 0
  pure (g x y z)

theorem exec_three : ∀ i ∈ [Instr.read, .mset, .mcmp], ∃ g, ∀ s, exec i s = runHostCall i (requestThree g) s := by
  intro i hi
  simp only [List.mem_cons, List.not_mem_nil, or_false] at hi
  obtain rfl | rfl | rfl := hi
  · exact ⟨.read, exec_read⟩
  · exact ⟨.mset, exec_mset⟩
  · exact ⟨.mcmp, exec_mcmp⟩

theorem requestThree_error_two {s : State} (i : Instr) {e : Trap} (h2 : s.stackRead (s.sp + 16) = .error e)
    (g : Word → Word → Word → HostRequest) : requestThree g (s.begun i) = .error e := by
  unfold requestThree
  rw [access_bind_of_error ((arg_two s i).trans h2)]

theorem requestThree_error_one {s : State} (i : Instr) {v : Word} {e : Trap} (h2 : s.stackRead (s.sp + 16) = .ok v)
    (h1 : s.stackRead (s.sp + 8) = .error e) (g : Word → Word → Word → HostRequest) :
    requestThree g (s.begun i) = .error e := by
  unfold requestThree
  rw [access_bind_of_ok ((arg_two s i).trans h2), access_bind_of_error ((arg_one s i).trans h1)]

theorem requestThree_error_zero {s : State} (i : Instr) {v w : Word} {e : Trap} (h2 : s.stackRead (s.sp + 16) = .ok v)
    (h1 : s.stackRead (s.sp + 8) = .ok w) (h0 : s.stackRead s.sp = .error e) (g : Word → Word → Word → HostRequest) :
    requestThree g (s.begun i) = .error e := by
  unfold requestThree
  rw [access_bind_of_ok ((arg_two s i).trans h2), access_bind_of_ok ((arg_one s i).trans h1),
    access_bind_of_error ((arg_zero s i).trans h0)]

/-- Settles O47: the first argument that cannot be read is the request's fault. -/
theorem hostCallArgumentFaults : Obligations.HostCallArgumentFaults := by
  unfold Obligations.HostCallArgumentFaults
  refine fun s e => ⟨fun i hi h => ?_, fun h => runHostCall_argument (requestOpn_error_one h),
    fun v h1 h0 => runHostCall_argument (requestOpn_error_zero h1 h0), fun i hi => ?_⟩
  · simp only [List.mem_cons, List.not_mem_nil, or_false] at hi
    obtain rfl | rfl | rfl := hi
    · exact runHostCall_argument (one_arg_error .clos h .clos)
    · exact runHostCall_argument (one_arg_error .malc h .malc)
    · exact runHostCall_argument (one_arg_error .free h .free)
  · obtain ⟨g, hexec⟩ := exec_three i hi
    rw [hexec]
    exact ⟨fun h2 => runHostCall_argument (requestThree_error_two i h2 g),
      fun v h2 h1 => runHostCall_argument (requestThree_error_one i h2 h1 g),
      fun v w h2 h1 h0 => runHostCall_argument (requestThree_error_zero i h2 h1 h0 g)⟩

/-! ### OPEN, CLOS -/

/-- Settles O48: the path is read as a string, and nothing else can fail. -/
theorem openAsksHost : Obligations.OpenAsksHost := by
  unfold Obligations.OpenAsksHost
  intro s path flags r h1 h0 hr
  have hreq := requestOpn_ok h1 h0
  have hcstr := cString_congr (byteAt_asked s .opn (.opn path flags)) path
  refine ⟨fun n hn => ?_, fun n hn => ?_⟩
  · obtain ⟨bs, hbs⟩ := cString_of_stringAt hn
    have hs : serve (.opn path flags) r ((s.begun .opn).sent (.opn path flags))
        = .ok (((s.begun .opn).sent (.opn path flags)).setAx r.value) := by
      simp only [serve, serveOpn, hcstr, hbs]
    obtain ⟨hx, hret, hkept, hport⟩ := served_next exec_opn rfl hreq hr hs (serveOpn_yields _ _ _ _)
    exact ⟨_, hx, rfl, hport, by simp, hkept, hret, fun x => by simp⟩
  · refine runHostCall_error (e := hostTrap (path + BitVec.ofNat 64 n)) hreq hr ?_
    simp only [serve, serveOpn, hcstr, cString_of_stops hn]

/-- Settles O50: any answer is the result. -/
theorem closAsksHost : Obligations.ClosAsksHost := by
  unfold Obligations.ClosAsksHost
  intro s fd r h hr
  obtain ⟨hx, hret, hkept, hport⟩ := served_next exec_clos rfl (one_arg .clos h .clos) hr rfl
    (served_setAx (served_self _ _) _)
  exact ⟨_, hx, rfl, hport, by simp, hkept, hret, fun x => by simp⟩

/-! ### READ, MSET -/

theorem checkRange_accessible {s : State} {a : Word} {n : Nat} (h : RangeAccessible s a n) (k : Access State) :
    s.checkRange a n k = k := by
  unfold State.checkRange; rw [firstInaccessible_none.mpr h]

theorem checkRange_stops {s : State} {a : Word} {n j : Nat} (h : RangeStopsAt s a n j) (k : Access State) :
    s.checkRange a n k = .error (hostTrap (a + BitVec.ofNat 64 j)) := by
  unfold State.checkRange; rw [firstInaccessible_some h]

/-- The state in which a host call is served has the bytes of the state before it. -/
theorem rangeAccessible_asked (s : State) (i : Instr) (q : HostRequest) (a : Word) (n : Nat) :
    RangeAccessible ((s.begun i).sent q) a n ↔ RangeAccessible s a n :=
  rangeAccessible_congr fun x => by rw [byteAt_asked]

theorem rangeStopsAt_asked (s : State) (i : Instr) (q : HostRequest) (a : Word) (n k : Nat) :
    RangeStopsAt ((s.begun i).sent q) a n k ↔ RangeStopsAt s a n k :=
  rangeStopsAt_congr (byteAt_asked s i q) a n k

theorem setBytes_heap (s : State) (a : Word) (bs : List Byte) : (s.setBytes a bs).heap = s.heap := by
  rw [setBytes_frame]

/-- R75: what writing bytes to an accessible range in a host call leaves, byte by byte. -/
theorem setBytes_asked {s : State} {i : Instr} {q : HostRequest} {a : Word} {bs : List Byte} (hlen : bs.length ≤ 2 ^ 64)
    (h : RangeAccessible s a bs.length) (v : Word) :
    let t := (((s.begun i).sent q).setBytes a bs).setAx v
    (∀ j < bs.length, t.byteAt (a + BitVec.ofNat 64 j) = some (bs.getD j 0)) ∧ BytesKeptOff a bs.length s t
      ∧ t.heap = s.heap := by
  obtain ⟨hin, hout⟩ := byteAt_setBytes ((rangeAccessible_asked s i q a _).mpr h) hlen
  refine ⟨fun j hj => ?_, fun x hx => ?_, ?_⟩
  · rw [byteAt_setAx]; exact hin j hj
  · rw [byteAt_setAx, hout x hx, byteAt_asked]
  · simp [setBytes_heap]

/-- R209: the count law, as the statements spell it. -/
theorem readLaw_iff (count r : Word) :
    readLaw count r = true ↔ r.toInt = -1 ∨ (0 ≤ r.toInt ∧ r.toInt ≤ count.toNat) := by
  simp [readLaw]

/-- R209: every result of READ obeys the count law. -/
theorem readResult_law (count r : Word) :
    (readResult count r).toInt = -1 ∨ (0 ≤ (readResult count r).toInt ∧ (readResult count r).toInt ≤ count.toNat) := by
  unfold readResult
  split
  · rename_i h; exact (readLaw_iff count r).mp h
  · exact .inl rfl

theorem readResult_of_law {count r : Word} (h : r.toInt = -1 ∨ (0 ≤ r.toInt ∧ r.toInt ≤ count.toNat)) :
    readResult count r = r := by
  rw [readResult, if_pos ((readLaw_iff count r).mpr h)]

theorem deliveredBytes_getD (r : HostAnswer) {n i : Nat} (h : i < n) :
    (deliveredBytes r n).getD i 0 = r.bytes.getD i 0 := by
  simp [deliveredBytes, h]

theorem serveRead_fails {r : HostAnswer} (h : r.fails.isSome = true) (buf count : Word) (s : State) :
    serveRead buf count r s = .error (hostTrap 0) := by
  rw [serveRead, if_pos h]

theorem serveRead_answers {r : HostAnswer} (h : r.fails = none) (buf count : Word) (s : State) :
    serveRead buf count r s = s.checkRange buf (readResult count r.value).toInt.toNat
      (.ok ((s.setBytes buf (deliveredBytes r (readResult count r.value).toInt.toNat)).setAx
        (readResult count r.value))) := by
  rw [serveRead, if_neg (by simp [h])]

/-- Settles O49: the answer fails, the range it counts is accessible, or that range stops. -/
theorem readKeepsCountLaw : Obligations.ReadKeepsCountLaw := by
  unfold Obligations.ReadKeepsCountLaw
  intro s fd buf count r h2 h1 h0 hr res
  have hreq : requestRead (s.begun .read) = _ := three_args h2 h1 h0 .read
  refine ⟨readResult_law count r.value, readResult_of_law, fun hfail => ?_, fun hok hacc => ?_, fun k hok hstop => ?_⟩
  · exact runHostCall_error (e := hostTrap 0) hreq hr (serveRead_fails hfail _ _ _)
  · have hlen := deliveredBytes_length r res.toInt.toNat
    have hs := serveRead_answers hok buf count ((s.begun .read).sent (.read fd buf count))
    rw [checkRange_accessible ((rangeAccessible_asked s _ _ _ _).mpr hacc)] at hs
    obtain ⟨hx, hret, hkept, hport⟩ := served_next exec_read rfl hreq hr hs (serveRead_yields _ _ _ _)
    obtain ⟨hin, hout, hheap⟩ := setBytes_asked (i := .read) (q := .read fd buf count) (a := buf)
      (bs := deliveredBytes r res.toInt.toNat) (by have := (toInt_range res).2; omega) (by rwa [hlen]) res
    rw [hlen] at hin hout
    exact ⟨_, hx, rfl, fun i hi => by rw [hin i hi, deliveredBytes_getD r hi], hout, hport, hheap, hkept, hret⟩
  · refine runHostCall_error (e := hostTrap (buf + BitVec.ofNat 64 k)) hreq hr ?_
    have hs := serveRead_answers hok buf count ((s.begun .read).sent (.read fd buf count))
    rwa [checkRange_stops ((rangeStopsAt_asked s _ _ _ _ _).mpr hstop)] at hs

/-- Settles O54: the range is accessible, and is filled, or it stops. -/
theorem msetFillsRange : Obligations.MsetFillsRange := by
  unfold Obligations.MsetFillsRange
  intro s dst val len r h2 h1 h0 hr
  have hreq : requestMset (s.begun .mset) = _ := three_args h2 h1 h0 .mset
  refine ⟨fun hacc => ?_, fun k hstop => ?_⟩
  · have hlen : (List.replicate len.toNat (byteOf val 0)).length = len.toNat := List.length_replicate
    have hs := checkRange_accessible ((rangeAccessible_asked s .mset (.mset dst val len) _ _).mpr hacc)
      (.ok ((((s.begun .mset).sent (.mset dst val len)).setBytes dst (List.replicate len.toNat (byteOf val 0))).setAx dst))
    obtain ⟨hx, hret, hkept, hport⟩ := served_next exec_mset rfl hreq hr hs (serveMset_yields _ _ _ _)
    obtain ⟨hin, hout, hheap⟩ := setBytes_asked (i := .mset) (q := .mset dst val len) (a := dst)
      (bs := List.replicate len.toNat (byteOf val 0)) (by have := len.isLt; omega) (by rwa [hlen]) dst
    rw [hlen] at hin hout
    refine ⟨_, hx, rfl, fun i hi => ?_, hout, hport, hheap, hkept, hret⟩
    rw [hin i hi]
    simp [hi, byteOf]
  · exact runHostCall_error (e := hostTrap (dst + BitVec.ofNat 64 k)) hreq hr
      (checkRange_stops ((rangeStopsAt_asked s _ _ _ _ _).mpr hstop) _)

/-! ### MCMP -/

theorem compareResult_below (r : Word) : (compareResult (some true) r).toInt < 0 := by
  simp only [compareResult]
  split
  · assumption
  · decide

theorem compareResult_above (r : Word) : 0 < (compareResult (some false) r).toInt := by
  simp only [compareResult]
  split
  · assumption
  · decide

/-- Settles O55: both ranges are accessible, and the first difference decides, or one of them stops. -/
theorem mcmpComparesRanges : Obligations.McmpComparesRanges := by
  unfold Obligations.McmpComparesRanges
  intro s a b len r h2 h1 h0 hr
  have hreq : requestMcmp (s.begun .mcmp) = _ := three_args h2 h1 h0 .mcmp
  have hfirst := firstInaccessible_congr (byteAt_asked s .mcmp (.mcmp a b len))
  have hdiff := firstDifference_congr (byteAt_asked s .mcmp (.mcmp a b len))
  refine ⟨fun ha hb => ?_, fun k ha hb => ?_, fun k ha hb => ?_⟩
  · have hs : serve (.mcmp a b len) r ((s.begun .mcmp).sent (.mcmp a b len))
        = .ok (((s.begun .mcmp).sent (.mcmp a b len)).setAx
          (compareResult (s.firstDifference a b len.toNat) r.value)) := by
      simp only [serve, serveMcmp, hfirst, hdiff, firstInaccessible_none.mpr ha, firstInaccessible_none.mpr hb]
    obtain ⟨hx, hret, hkept, hport⟩ := served_next exec_mcmp rfl hreq hr hs (serveMcmp_yields _ _ _ _ _ _)
    obtain ⟨hequal, hdiffer⟩ := firstDifference_spec s a b len.toNat ha hb
    refine ⟨_, hx, fun h => ?_, fun k hk x y hbefore hxk hyk => ⟨fun hlt => ?_, fun hlt => ?_⟩, hport, by simp, hkept,
      hret, fun x => by simp⟩
    · rw [State.setAx_ax, hequal h]; rfl
    · rw [State.setAx_ax, hdiffer k hk x y hbefore hxk hyk (by rintro rfl; omega), decide_eq_true hlt]
      exact compareResult_below _
    · rw [State.setAx_ax, hdiffer k hk x y hbefore hxk hyk (by rintro rfl; omega), decide_eq_false (by omega)]
      exact compareResult_above _
  · refine runHostCall_error (e := hostTrap (a + BitVec.ofNat 64 k)) hreq hr ?_
    simp only [serve, serveMcmp, hfirst, firstInaccessible_some ha, firstInaccessible_none.mpr hb]
  · refine runHostCall_error (e := hostTrap (b + BitVec.ofNat 64 k)) hreq hr ?_
    simp only [serve, serveMcmp, hfirst, firstInaccessible_none.mpr ha, firstInaccessible_some hb]

end Sys2Proof.Machine
end

section
/-! PROOFS. The statements about MALC and FREE (spec/45_host_calls.md R213, R214): which addresses of host memory become
accessible or inaccessible, and which live ranges there are. -/

namespace Sys2Proof.Machine

/-! ### Host memory, byte by byte -/

/-- An address is as accessible as before, with the byte it had, if it is listed in host memory as before. -/
theorem byteAt_of_lookup {s t : State} (hp : t.par = s.par) (hseg : ∀ X, t.seg X = s.seg X) {x : Word}
    (hl : lookup t.hmem x.toNat = lookup s.hmem x.toNat) : t.byteAt x = s.byteAt x := by
  unfold State.byteAt
  rw [hp]
  obtain ⟨X, o, hr⟩ | hr := route_one_cases s.par x <;> rw [hr]
  · simp only [hseg]
  · exact hl

/-- R50, R56: every byte of a segment is accessible. -/
theorem byteAt_isSome_of_segment {s : State} (hp : s.par.wf = true) {x : Word} {X : Seg}
    (hlow : base s.par X ≤ x.toNat) (hhigh : x.toNat < base s.par X + s.par.poolSize) :
    (s.byteAt x).isSome = true := by
  unfold State.byteAt
  rw [route_of_inside hp (by omega) hlow (by omega)]; rfl

/-- An address of a range that does not wrap is its start plus an offset. -/
theorem eq_add_ofNat {a x : Word} (h : a.toNat ≤ x.toNat) : x = a + BitVec.ofNat 64 (x.toNat - a.toNat) := by
  have hx := x.isLt
  refine BitVec.eq_of_toNat_eq ?_
  rw [toNat_add_ofNat (by omega)]
  omega

/-- R58: an allocated address lies in no segment. -/
theorem outside_of_allocated {s : State} (h : HostMemory.wf s.par s.hmem = true) {x : Nat}
    (hx : (lookup s.hmem x).isSome = true) (X : Seg) :
    ¬ (base s.par X ≤ x ∧ x < base s.par X + s.par.poolSize) := by
  intro ⟨hlow, hhigh⟩
  have hout := (((HostMemory.wf_iff _ _).mp h).2 x hx).2.2 X
  rw [(inSegment_iff _ _ _ _).mpr ⟨hlow, by omega⟩] at hout
  simp at hout

/-! ### MALC -/

theorem freshRange_asked (s : State) (i : Instr) (q : HostRequest) (p size : Word) :
    ((s.begun i).sent q).freshRange p size = s.freshRange p size := by simp [State.freshRange]

/-- R213: an inaccessible range is outside the segments and outside allocated host memory. -/
theorem freshRange_of_inaccessible {s : State} (hp : s.par.wf = true) {p size : Word} (h0 : p ≠ 0)
    (hend : p.toNat + size.toNat ≤ 2 ^ 64) (hno : ∀ i < size.toNat, s.byteAt (p + BitVec.ofNat 64 i) = none)
    (hl : lookup s.heap p.toNat = none) : s.freshRange p size = true := by
  have hnone : ∀ x : Word, p.toNat ≤ x.toNat → x.toNat < p.toNat + size.toNat → s.byteAt x = none := by
    intro x hlow hhigh
    rw [eq_add_ofNat hlow]
    exact hno _ (by omega)
  have hclear : ∀ x : Word, p.toNat ≤ x.toNat → x.toNat < p.toNat + size.toNat →
      ∀ X, ¬ (base s.par X ≤ x.toNat ∧ x.toNat < base s.par X + s.par.poolSize) := by
    intro x hlow hhigh X ⟨h1, h2⟩
    have hsome := byteAt_isSome_of_segment hp h1 h2
    rw [hnone x hlow hhigh] at hsome
    simp at hsome
  refine (freshRange_iff s p size).mpr ⟨h0, hend, fun X => ?_, fun k hlow hhigh => ?_, hl⟩
  · by_contra hno
    -- the first address that the range and the segment share
    obtain ⟨m, hm⟩ : ∃ m, m = max p.toNat (base s.par X) := ⟨_, rfl⟩
    obtain ⟨-, hpool, hbases, -⟩ := (Params.wf_iff _).mp hp
    have hbase := hbases X
    have ht : (BitVec.ofNat 64 m).toNat = m := by rw [BitVec.toNat_ofNat, Nat.mod_eq_of_lt (by omega)]
    exact hclear (BitVec.ofNat 64 m) (by omega) (by omega) X (by omega)
  · have ht : (BitVec.ofNat 64 k).toNat = k := by rw [BitVec.toNat_ofNat, Nat.mod_eq_of_lt (by omega)]
    rw [← ht] at hlow hhigh ⊢
    rw [← byteAt_clear _ (hclear _ hlow hhigh), hnone _ hlow hhigh]

/-- R213: what allocating a fresh range leaves at each address, and in the list of live ranges. -/
theorem allocated_fresh {s t : State} {p size : Word} (hfresh : s.freshRange p size = true) (bytes : List Byte)
    (hp : t.par = s.par) (hseg : ∀ X, t.seg X = s.seg X)
    (hmem : t.hmem = HostMemory.allocate s.hmem p.toNat size.toNat bytes)
    (hheap : t.heap = insertKey s.heap p.toNat size.toNat) :
    (∀ i < size.toNat, s.byteAt (p + BitVec.ofNat 64 i) = none
        ∧ t.byteAt (p + BitVec.ofNat 64 i) = some (bytes.getD i 0))
      ∧ BytesKeptOff p size.toNat s t ∧ lookup t.heap p.toNat = some size.toNat
      ∧ ∀ q, q ≠ p.toNat → lookup t.heap q = lookup s.heap q := by
  obtain ⟨-, hend, hout, hvacant, -⟩ := (freshRange_iff s p size).mp hfresh
  refine ⟨fun i hi => ?_, fun x hx => ?_, ?_, fun q hq => ?_⟩
  · have ht := toNat_add_ofNat (a := p) (i := i) (by have := p.isLt; omega)
    have hclear : ∀ X, ¬ (base s.par X ≤ (p + BitVec.ofNat 64 i).toNat
        ∧ (p + BitVec.ofNat 64 i).toNat < base s.par X + s.par.poolSize) := fun X => by have := hout X; omega
    rw [byteAt_clear (s := s) _ hclear, byteAt_clear (s := t) _ (by rwa [hp]), ht, hmem, HostMemory.lookup_allocate,
      if_pos (by omega), Nat.add_sub_cancel_left]
    exact ⟨hvacant _ (by omega) (by omega), rfl⟩
  · refine byteAt_of_lookup hp hseg ?_
    rw [hmem, HostMemory.lookup_allocate, if_neg]
    intro ⟨hlow, hhigh⟩
    exact hx (x.toNat - p.toNat) (by omega) (eq_add_ofNat hlow)
  · rw [hheap, lookup_insertKey, if_pos rfl]
  · rw [hheap, lookup_insertKey, if_neg (Ne.symm hq)]

/-- Settles O52: the answer is a fresh range, which is allocated, or it is replaced by 0. -/
theorem malcAllocatesFreshRange : Obligations.MalcAllocatesFreshRange := by
  unfold Obligations.MalcAllocatesFreshRange
  intro s size r hinv h0 hr
  have hasked := freshRange_asked s .malc (.malc size) r.value size
  have hy := serveMalc_yields .malc ((s.begun .malc).sent (.malc size)) size r
  cases hfresh : s.freshRange r.value size with
  | false =>
    have hs : serve (.malc size) r ((s.begun .malc).sent (.malc size))
        = .ok (((s.begun .malc).sent (.malc size)).setAx 0) := by
      simp only [serve, serveMalc, hasked, hfresh, Bool.false_eq_true, if_false]
    obtain ⟨hx, hret, hkept, hport⟩ := served_next exec_malc rfl (one_arg .malc h0 .malc) hr hs hy
    refine ⟨_, hx, hport, hkept, hret, fun hne hend hno hl => ?_, .inl ⟨rfl, fun x => by simp, by simp⟩⟩
    rw [freshRange_of_inaccessible hinv.params hne hend hno hl] at hfresh
    simp at hfresh
  | true =>
    have hs : serve (.malc size) r ((s.begun .malc).sent (.malc size))
        = .ok ((((s.begun .malc).sent (.malc size)).allocateRange r.value.toNat size.toNat r.bytes).setAx r.value) := by
      simp only [serve, serveMalc, hasked, hfresh, if_true]
    obtain ⟨hx, hret, hkept, hport⟩ := served_next exec_malc rfl (one_arg .malc h0 .malc) hr hs hy
    obtain ⟨hne, hend, -⟩ := (freshRange_iff s r.value size).mp hfresh
    exact ⟨_, hx, hport, hkept, hret, fun _ _ _ _ => rfl, .inr ⟨rfl, hne, hend,
      allocated_fresh hfresh r.bytes (by simp) (by simp) (by simp) (by simp)⟩⟩

/-! ### FREE -/

/-- R213: the bytes of a live range are allocated. -/
theorem allocated_of_live {s : State} (h : HeapOk s.hmem s.heap) {a n k : Nat} (hl : lookup s.heap a = some n)
    (hlow : a ≤ k) (hhigh : k < a + n) : (lookup s.hmem k).isSome = true :=
  h.allocated _ (mem_of_lookup hl) k ⟨hlow, hhigh⟩

/-- R214: what releasing a live range leaves at each address, and in the list of live ranges. -/
theorem released_live {s t : State} (hinv : Inv s) {ptr : Word} {n : Nat} (hl : lookup s.heap ptr.toNat = some n)
    (hp : t.par = s.par) (hseg : ∀ X, t.seg X = s.seg X) (hmem : t.hmem = HostMemory.release s.hmem ptr.toNat n)
    (hheap : t.heap = eraseKey s.heap ptr.toNat) :
    (∀ i < n, t.byteAt (ptr + BitVec.ofNat 64 i) = none) ∧ BytesKeptOff ptr n s t
      ∧ lookup t.heap ptr.toNat = none ∧ ∀ q, q ≠ ptr.toNat → lookup t.heap q = lookup s.heap q := by
  have hend : ptr.toNat + n ≤ 2 ^ 64 := (hinv.heap.fits _ (mem_of_lookup hl)).2
  refine ⟨fun i hi => ?_, fun x hx => ?_, ?_, fun q hq => ?_⟩
  · have ht := toNat_add_ofNat (a := ptr) (i := i) (by omega)
    have hal := allocated_of_live hinv.heap hl (k := ptr.toNat + i) (by omega) (by omega)
    rw [byteAt_clear _ (by rw [ht, hp]; exact outside_of_allocated hinv.hostMemory hal), ht, hmem,
      HostMemory.lookup_release, if_pos (by omega)]
  · refine byteAt_of_lookup hp hseg ?_
    rw [hmem, HostMemory.lookup_release, if_neg]
    intro ⟨hlow, hhigh⟩
    exact hx (x.toNat - ptr.toNat) (by omega) (eq_add_ofNat hlow)
  · rw [hheap, lookup_eraseKey, if_pos rfl]
  · rw [hheap, lookup_eraseKey, if_neg hq]

/-- Settles O53: the pointer is 0, the start of a live range, or neither. -/
theorem freeReleasesRange : Obligations.FreeReleasesRange := by
  unfold Obligations.FreeReleasesRange
  intro s ptr r hinv h0 hr
  have hreq := one_arg .free h0 .free
  have hy := serveFree_yields .free ((s.begun .free).sent (.free ptr)) ptr r
  have hheap : ((s.begun .free).sent (.free ptr)).heap = s.heap := by simp
  refine ⟨fun hz => ?_, fun n hne hl => ?_, fun hne hl => ?_⟩
  · have hs : serve (.free ptr) r ((s.begun .free).sent (.free ptr))
        = .ok (((s.begun .free).sent (.free ptr)).setAx r.value) := by
      simp only [serve, serveFree, hz, if_true]
    obtain ⟨hx, hret, hkept, hport⟩ := served_next exec_free rfl hreq hr hs hy
    exact ⟨_, hx, fun x => by simp, by simp, hport, hkept, hret⟩
  · have hs : serve (.free ptr) r ((s.begun .free).sent (.free ptr))
        = .ok ((((s.begun .free).sent (.free ptr)).releaseRange ptr.toNat n).setAx r.value) := by
      simp only [serve, serveFree, hne, hheap, hl, if_false]
    obtain ⟨hx, hret, hkept, hport⟩ := served_next exec_free rfl hreq hr hs hy
    obtain ⟨hin, hout, hgone, hother⟩ := released_live hinv hl
      (t := ((((s.begun .free).sent (.free ptr)).releaseRange ptr.toNat n).setAx r.value))
      (by simp) (by simp) (by simp) (by simp)
    exact ⟨_, hx, hin, hout, hgone, hother, hport, hkept, hret⟩
  · refine runHostCall_error (e := hostTrap ptr) hreq hr ?_
    simp only [serve, serveFree, hne, hheap, hl, if_false]

end Sys2Proof.Machine
end

section
/-! PROOFS. The statement about PRTF (spec/45_host_calls.md R211, R212): how a format is read, the count and the six
slots, and what the host answers, which depends on the bytes of the state before the call alone (`servePrtf_congr`). -/

namespace Sys2Proof.Machine

/-! ### The format -/

/-- Each rule is an equation of `conversions`, once the tests of the letters are decided. -/
theorem conversionRules : ConversionRules where
  done := rfl
  plain b rest h := by
    have hb : isPercent b = false := decide_eq_false h
    cases rest <;> simp [conversions, hb]
  percent rest := by simp only [conversions, show isPercent 0x25 = true from rfl, if_true]
  string rest := by
    simp only [conversions, show isPercent 0x25 = true from rfl, show isPercent 0x73 = false from rfl,
      show isStringLetter 0x73 = true from rfl, Bool.false_eq_true, if_true, if_false]
  value c hc rest := by
    have hletter : isValueLetter c = true := decide_eq_true hc
    have hpercent : isPercent c = false := decide_eq_false (by rintro rfl; simp at hc)
    have hstring : isStringLetter c = false := decide_eq_false (by rintro rfl; simp at hc)
    simp only [conversions, show isPercent 0x25 = true from rfl, hpercent, hstring, hletter, Bool.false_eq_true,
      if_true, if_false]
  other c hc rest := by
    obtain ⟨hpercent, hc⟩ := not_or.mp (List.mem_cons.not.mp hc)
    obtain ⟨hstring, hvalue⟩ := not_or.mp (List.mem_cons.not.mp hc)
    have hpercent : isPercent c = false := decide_eq_false hpercent
    have hstring : isStringLetter c = false := decide_eq_false hstring
    have hletter : isValueLetter c = false := decide_eq_false hvalue
    simp only [conversions, show isPercent 0x25 = true from rfl, hpercent, hstring, hletter, Bool.false_eq_true,
      if_true, if_false]
  alone := rfl

theorem fitsFive_iff (f : List Byte) : fitsFive (conversions f) = true ↔ NeedsFiveAtMost f := by
  simp [fitsFive, NeedsFiveAtMost]

/-! ### The count and the slots -/

/-- R211: the count is the operand of the ADJ after PRTF. -/
theorem prtfCount_begun (s : State) : (s.begun .prtf).prtfCount = s.fetch (s.pc + 16) := by
  rw [State.prtfCount, pc_one rfl s, fetch_begun, BitVec.add_assoc]; rfl

/-- R212: the stack read of slot `j` of `k` cells. -/
def slotRead (s : State) (k : Word) (j : Nat) : Access Word :=
  s.stackRead (s.sp + BitVec.ofInt 64 (k.toInt * 8) - BitVec.ofNat 64 (8 * j))

theorem prtfSlot_begun (s : State) (k : Word) (j : Nat) : (s.begun .prtf).prtfSlot k j = slotRead s k j := by
  rw [State.prtfSlot, State.begun_sp, stackRead_begun]; rfl

/-- R211, R212: PRTF's arguments, as reads of the state before it. -/
theorem requestPrtf_begun (s : State) : requestPrtf (s.begun .prtf) = (do
    let k ← s.fetch (s.pc + 16)
    let fmt ← slotRead s k 1
    let v1 ← slotRead s k 2
    let v2 ← slotRead s k 3
    let v3 ← slotRead s k 4
    let v4 ← slotRead s k 5
    let v5 ← slotRead s k 6
    pure (.prtf fmt v1 v2 v3 v4 v5)) := by
  unfold requestPrtf
  simp only [prtfCount_begun, prtfSlot_begun]

theorem requestPrtf_count_error {s : State} {e : Trap} (h : s.fetch (s.pc + 16) = .error e) :
    requestPrtf (s.begun .prtf) = .error e := by
  rw [requestPrtf_begun, access_bind_of_error h]

/-- R254: the first slot that cannot be read is the request's fault. -/
theorem requestPrtf_slot_error {s : State} {k : Word} {e : Trap} {j : Nat} (hk : s.fetch (s.pc + 16) = .ok k)
    (hj : j < 6) (hbefore : ∀ i < j, ∃ v, slotRead s k (i + 1) = .ok v) (he : slotRead s k (j + 1) = .error e) :
    requestPrtf (s.begun .prtf) = .error e := by
  rw [requestPrtf_begun, access_bind_of_ok hk]
  obtain rfl | hj0 := Nat.eq_zero_or_pos j
  · rw [access_bind_of_error he]
  obtain ⟨fmt, h1⟩ := hbefore 0 hj0
  rw [access_bind_of_ok h1]
  obtain rfl | hj1 := Nat.eq_or_lt_of_le hj0
  · rw [access_bind_of_error he]
  obtain ⟨v1, h2⟩ := hbefore 1 hj1
  rw [access_bind_of_ok h2]
  obtain rfl | hj2 := Nat.eq_or_lt_of_le hj1
  · rw [access_bind_of_error he]
  obtain ⟨v2, h3⟩ := hbefore 2 hj2
  rw [access_bind_of_ok h3]
  obtain rfl | hj3 := Nat.eq_or_lt_of_le hj2
  · rw [access_bind_of_error he]
  obtain ⟨v3, h4⟩ := hbefore 3 hj3
  rw [access_bind_of_ok h4]
  obtain rfl | hj4 := Nat.eq_or_lt_of_le hj3
  · rw [access_bind_of_error he]
  obtain ⟨v4, h5⟩ := hbefore 4 hj4
  obtain rfl : j = 5 := by omega
  rw [access_bind_of_ok h5, access_bind_of_error he]

theorem requestPrtf_ok {s : State} {k fmt v1 v2 v3 v4 v5 : Word} (hk : s.fetch (s.pc + 16) = .ok k)
    (h1 : slotRead s k 1 = .ok fmt) (h2 : slotRead s k 2 = .ok v1) (h3 : slotRead s k 3 = .ok v2)
    (h4 : slotRead s k 4 = .ok v3) (h5 : slotRead s k 5 = .ok v4) (h6 : slotRead s k 6 = .ok v5) :
    requestPrtf (s.begun .prtf) = .ok (.prtf fmt v1 v2 v3 v4 v5) := by
  rw [requestPrtf_begun, access_bind_of_ok hk, access_bind_of_ok h1, access_bind_of_ok h2, access_bind_of_ok h3,
    access_bind_of_ok h4, access_bind_of_ok h5, access_bind_of_ok h6]; rfl

/-! ### What the host answers -/

theorem servePrtf_unreadable {s : State} {fmt a : Word} (h : s.cString fmt = .error a) (vs : List Word)
    (r : HostAnswer) : servePrtf fmt vs r s = .error (hostTrap a) := by
  simp only [servePrtf, h]

/-- R212: a format known to need at most five values, whose strings are readable. -/
theorem servePrtf_readable {s : State} {fmt : Word} {f : List Byte} (h : s.cString fmt = .ok f)
    (hneeds : NeedsFiveAtMost f) {vs : List Word} (hnone : s.stringFaults (stringArguments (conversions f) vs) = [])
    (r : HostAnswer) :
    servePrtf fmt vs r s = if r.fails.isSome then .error (hostTrap 0) else .ok (s.setAx r.value) := by
  simp only [servePrtf, h, (fitsFive_iff f).mpr hneeds, hnone, if_true]

/-- R212: a format known to need at most five values, with strings that are not. -/
theorem servePrtf_stops {s : State} {fmt a : Word} {f : List Byte} {as : List Word} (h : s.cString fmt = .ok f)
    (hneeds : NeedsFiveAtMost f) {vs : List Word}
    (hsome : s.stringFaults (stringArguments (conversions f) vs) = a :: as) (r : HostAnswer) :
    servePrtf fmt vs r s = .error (hostTrap (reportedFault a as r.fails)) := by
  simp only [servePrtf, h, (fitsFive_iff f).mpr hneeds, hsome, if_true]

/-- R212, log entry 10: any other format, where the answer fails. -/
theorem servePrtf_open_fails {s : State} {fmt a : Word} {f : List Byte} (h : s.cString fmt = .ok f)
    (hneeds : ¬ NeedsFiveAtMost f) (vs : List Word) {r : HostAnswer} (hfail : r.fails = some a) :
    servePrtf fmt vs r s = .error (hostTrap a) := by
  rw [← fitsFive_iff, Bool.not_eq_true] at hneeds
  simp only [servePrtf, h, hneeds, hfail, Bool.false_eq_true, if_false]

/-- R212, log entry 10: any other format, where it does not. -/
theorem servePrtf_open_answers {s : State} {fmt : Word} {f : List Byte} (h : s.cString fmt = .ok f)
    (hneeds : ¬ NeedsFiveAtMost f) (vs : List Word) {r : HostAnswer} (hok : r.fails = none) :
    servePrtf fmt vs r s = .ok (s.setAx r.value) := by
  rw [← fitsFive_iff, Bool.not_eq_true] at hneeds
  simp only [servePrtf, h, hneeds, hok, Bool.false_eq_true, if_false]

/-- Log entry 22: the failure reported is one of the strings'. -/
theorem reportedFault_mem (a : Word) (as : List Word) (fails : Option Word) : reportedFault a as fails ∈ a :: as := by
  unfold reportedFault
  split
  · split
    · rename_i h; exact List.mem_cons_of_mem _ h
    · exact List.mem_cons_self
  · exact List.mem_cons_self

/-- Log entry 22: a failure the answer names is reported. -/
theorem reportedFault_named {a x : Word} {as : List Word} (h : x ∈ a :: as) : reportedFault a as (some x) = x := by
  simp only [reportedFault]
  split
  · rfl
  · rename_i hno
    obtain rfl | h := List.mem_cons.mp h
    · rfl
    · exact absurd h hno

/-! ### The outcome of PRTF -/

/-- PRTF where the host's service, as the bytes before the call decide it, succeeds. -/
theorem exec_prtf_completes {s u : State} {fmt v1 v2 v3 v4 v5 : Word} {r : HostAnswer}
    (hreq : requestPrtf (s.begun .prtf) = .ok (.prtf fmt v1 v2 v3 v4 v5)) (hr : s.nextAnswer = some r)
    (hs : servePrtf fmt [v1, v2, v3, v4, v5] r s = .ok u) :
    ∃ t, exec .prtf s = .next t ∧ t.ax = r.value ∧ PortUsed (.prtf fmt v1 v2 v3 v4 v5) s t
      ∧ t.heap = s.heap ∧ PointersKept s t ∧ Retired .prtf s t ∧ BytesKept s t := by
  have hasked : serve (.prtf fmt v1 v2 v3 v4 v5) r ((s.begun .prtf).sent (.prtf fmt v1 v2 v3 v4 v5)) = _ :=
    servePrtf_congr (byteAt_asked s .prtf _) fmt [v1, v2, v3, v4, v5] r
  rw [hs] at hasked
  obtain ⟨hx, hret, hkept, hport⟩ := served_next exec_prtf rfl hreq hr hasked (servePrtf_yields _ _ _ _ _)
  exact ⟨_, hx, rfl, hport, by simp, hkept, hret, fun x => by simp⟩

/-- PRTF where it fails. -/
theorem exec_prtf_faults {s : State} {fmt v1 v2 v3 v4 v5 a : Word} {r : HostAnswer}
    (hreq : requestPrtf (s.begun .prtf) = .ok (.prtf fmt v1 v2 v3 v4 v5)) (hr : s.nextAnswer = some r)
    (hs : servePrtf fmt [v1, v2, v3, v4, v5] r s = .error (hostTrap a)) :
    FaultsWith (exec .prtf s) .hostFault a s := by
  have hasked : serve (.prtf fmt v1 v2 v3 v4 v5) r ((s.begun .prtf).sent (.prtf fmt v1 v2 v3 v4 v5)) = _ :=
    servePrtf_congr (byteAt_asked s .prtf _) fmt [v1, v2, v3, v4, v5] r
  rw [hs] at hasked
  exact runHostCall_error (e := hostTrap a) hreq hr hasked

/-- R212: strings that are all readable have no failure. -/
theorem stringFaults_nil {s : State} {f : List Byte} {vs : List Word}
    (h : ∀ j x, NamesString f vs j x → ∃ n, StringAt s x n) :
    s.stringFaults (stringArguments (conversions f) vs) = [] := by
  refine List.eq_nil_iff_forall_not_mem.mpr fun a ha => ?_
  obtain ⟨j, x, hx, herr⟩ := mem_stringFaults.mp ha
  obtain ⟨n, hn⟩ := h j x hx
  obtain ⟨bs, hbs⟩ := cString_of_stringAt hn
  rw [hbs] at herr
  simp at herr

/-- Settles O51: the count or a slot cannot be read, the format cannot be read, or the format decides. -/
theorem prtfPassesFiveValues : Obligations.PrtfPassesFiveValues := by
  unfold Obligations.PrtfPassesFiveValues
  refine ⟨conversionRules, fun s k => ⟨fun e he => runHostCall_argument (requestPrtf_count_error he), fun hk => ?_⟩⟩
  refine ⟨fun e j hj hbefore he => runHostCall_argument (requestPrtf_slot_error hk hj hbefore he),
    fun fmt v1 v2 v3 v4 v5 r h1 h2 h3 h4 h5 h6 hr => ?_⟩
  have hreq := requestPrtf_ok hk h1 h2 h3 h4 h5 h6
  refine ⟨fun n hn => exec_prtf_faults hreq hr (servePrtf_unreadable (cString_of_stops hn) _ r), fun f hf => ?_⟩
  have hstr := cString_of_stringIs hf
  refine ⟨fun hneeds hread => ?_, fun hneeds j x n hnames hstops => ?_, fun hneeds => ?_⟩
  · have hs := servePrtf_readable hstr hneeds (stringFaults_nil hread) r
    refine ⟨fun hok => exec_prtf_completes hreq hr (hs.trans (if_neg (by simp [hok]))),
      fun hfail => exec_prtf_faults hreq hr (hs.trans (if_pos hfail))⟩
  · have hmem := mem_stringFaults.mpr ⟨j, x, hnames, cString_of_stops hstops⟩
    obtain ⟨a, as, has⟩ := List.exists_cons_of_ne_nil (List.ne_nil_of_mem hmem)
    have hs := servePrtf_stops hstr hneeds has r
    refine ⟨fun hfail => ?_, fun hinv => ?_⟩
    · rw [has] at hmem
      rw [hfail, reportedFault_named hmem] at hs
      exact exec_prtf_faults hreq hr hs
    · have hreported := reportedFault_mem a as r.fails
      rw [← has] at hreported
      obtain ⟨j', x', hnames', herr⟩ := mem_stringFaults.mp hreported
      obtain ⟨n', hstops', heq⟩ := stops_of_cString hinv herr
      exact ⟨j', x', n', hnames', hstops', heq ▸ exec_prtf_faults hreq hr hs⟩
  · exact ⟨fun hok => exec_prtf_completes hreq hr (servePrtf_open_answers hstr hneeds _ hok),
      fun a hfail => exec_prtf_faults hreq hr (servePrtf_open_fails hstr hneeds _ hfail)⟩

end Sys2Proof.Machine
end

section
/-! PROOFS. The statements about the host's operations append, put_constant, setup_entry and disassemble
(spec/47_host_interface.md). -/

namespace Sys2Proof.Machine

/-! ### append -/

/-- Settles O57: the cell is written at the first offset past the committed ones. -/
theorem appendCommitsCell : Obligations.AppendCommitsCell := by
  unfold Obligations.AppendCommitsCell
  refine fun s v => ⟨fun hlt => ⟨_, if_pos hlt, rfl, ?_, fun o ho => ?_, rfl⟩, fun hfull => if_neg (by omega)⟩
  · rw [State.codeCell, Nat.mul_comm]
    exact Memory.readWord_writeWord s.code _ v
  · rw [Memory.read_writeWord, if_neg (by omega)]

/-! ### put_constant -/

/-- R28, R232: with room for a word, data_cursor is the address of an aligned cell of the data segment. -/
theorem dataRoute_dataCursor {s : State} (hinv : Inv s) (hroom : s.dataCursor + 8 ≤ s.par.dataBase + s.par.poolSize) :
    (BitVec.ofNat 64 s.dataCursor).toNat = s.dataCursor
      ∧ s.dataRoute (BitVec.ofNat 64 s.dataCursor) 8 = .ok (.seg .data (s.dataCursor - s.par.dataBase)) := by
  obtain ⟨-, -, hb, -⟩ := (Params.wf_iff _).mp hinv.params
  have hend := (hb .data).2.2
  simp only [base] at hend
  have ht : (BitVec.ofNat 64 s.dataCursor).toNat = s.dataCursor := by
    rw [BitVec.toNat_ofNat, Nat.mod_eq_of_lt (by omega)]
  have hroute : route s.par (BitVec.ofNat 64 s.dataCursor) 8 = .seg .data (s.dataCursor - s.par.dataBase) := by
    rw [route_of_inside hinv.params (by omega) (X := .data) (by rw [ht]; exact hinv.cursorLow) (by rw [ht]; exact hroom),
      ht]; rfl
  have hal : aligned (BitVec.ofNat 64 s.dataCursor) = true := (aligned_iff _).mpr (by rw [ht]; exact hinv.cursorAligned)
  refine ⟨ht, ?_⟩
  unfold State.dataRoute
  rw [hroute]
  simp [hal]

theorem putConstant_of_write {s t : State} {v : Word} (hroom : s.dataCursor + 8 ≤ s.par.dataBase + s.par.poolSize)
    (h : s.memWrite (BitVec.ofNat 64 s.dataCursor) 8 v = .ok t) :
    s.putConstant v = (.placed (BitVec.ofNat 64 s.dataCursor), { t with dataCursor := s.dataCursor + 8 }) := by
  rw [State.putConstant, if_pos hroom, h]

/-- Settles O58: the write cannot fail where the invariant holds. -/
theorem putConstantPlacesWord : Obligations.PutConstantPlacesWord := by
  unfold Obligations.PutConstantPlacesWord
  refine fun s v hinv => ⟨fun hroom => ?_, fun hfull => if_neg (by omega)⟩
  obtain ⟨-, hroute⟩ := dataRoute_dataCursor hinv hroom
  refine ⟨_, putConstant_of_write hroom (memWrite_of_route hroute v), fun i hi => ?_, fun x hx => ?_, rfl, rfl⟩
  · rw [← bytesHold_writeRoute hinv.params hroute v i hi]; rfl
  · rw [← bytesKeptOutside_writeRoute hinv.params hroute v x hx]; rfl

/-! ### setup_entry -/

/-- What a push may change: the three address registers and the stack segment. -/
def StackAndPointersOnly (s t : State) : Prop :=
  ∃ pc bp sp m, t = { s with pc := pc, bp := bp, sp := sp, stack := m }

theorem StackAndPointersOnly.trans {s t u : State} (h : StackAndPointersOnly s t) (h' : StackAndPointersOnly t u) :
    StackAndPointersOnly s u := by
  obtain ⟨_, _, _, _, rfl⟩ := h
  obtain ⟨_, _, _, _, rfl⟩ := h'
  exact ⟨_, _, _, _, rfl⟩

theorem StackAndPointersOnly.eq {s t : State} (h : StackAndPointersOnly s t) :
    t = { s with pc := t.pc, bp := t.bp, sp := t.sp, stack := t.stack } := by
  obtain ⟨_, _, _, _, rfl⟩ := h
  rfl

/-- R62: two stack cells are the same or have no byte in common, so a write to one keeps the other. -/
theorem stackRead_stackWrite_ne {s t : State} {a b v : Word} (h : s.stackWrite a v = .ok t) (hne : b ≠ a) :
    t.stackRead b = s.stackRead b := by
  unfold State.stackWrite at h
  cases ha : s.stackCell a with
  | error e => rw [ha] at h; simp [Except.map] at h
  | ok o =>
    rw [ha] at h
    cases h
    unfold State.stackRead
    rw [stackCell_congr (State.setSeg_par s .stack _)]
    cases hb : s.stackCell b with
    | error e => rfl
    | ok p =>
      obtain ⟨hra, hala⟩ := stackCell_ok ha
      obtain ⟨hrb, halb⟩ := stackCell_ok hb
      have hoa := (route_seg hra).2.2
      have hob := (route_seg hrb).2.2
      have hdiff : b.toNat ≠ a.toNat := fun h => hne (BitVec.eq_of_toNat_eq h)
      exact congrArg Except.ok (readWord_writeWord_ne s.stack o p v (by omega))

/-- R64: what the push of `v` to the stack cell `a` leaves, as the next pushes need it. -/
structure Pushed (a v : Word) (s t : State) : Prop where
  par : t.par = s.par
  sp : t.sp = a
  bp : t.bp = s.bp
  top : t.stackRead a = .ok v
  others : ∀ b, b ≠ a → t.stackRead b = s.stackRead b
  outside : BytesKeptOutside a 8 s t
  frame : StackAndPointersOnly s t

theorem pushed_cell {s : State} (hp : s.par.wf = true) {a : Word} (ha : s.sp - 8 = a) (hcell : IsStackCell s.par a)
    (v : Word) : ∃ t, s.push v = .ok t ∧ Pushed a v s t := by
  subst ha
  obtain ⟨u, hu⟩ := stackWrite_of_isStackCell hp hcell v
  have hpush : s.push v = .ok (u.setSp (s.sp - 8)) := by rw [State.push, hu]; rfl
  obtain ⟨o, -, honly⟩ := push_ok hpush
  refine ⟨_, hpush, par_of_push hpush, rfl, by rw [honly]; rfl, stackRead_of_push hpush, fun b hb => ?_, fun x hx => ?_,
    _, _, _, _, honly⟩
  · rw [stackRead_setSp]; exact stackRead_stackWrite_ne hu hb
  · rw [byteAt_setSp, byteAt_stackWrite hp hu, if_neg hx]

/-- R8, R9: the six highest cells of the stack segment, counted from its end. -/
theorem toNat_below_stackEnd {p : Params} (hp : p.wf = true) {k : Nat} (hk : 1 ≤ k) (hk' : k ≤ 6) :
    (BitVec.ofNat 64 (p.stackBase + p.poolSize) - BitVec.ofNat 64 (8 * k)).toNat = p.stackBase + p.poolSize - 8 * k := by
  obtain ⟨-, hpool, hb, -⟩ := (Params.wf_iff p).mp hp
  have hend := (hb .stack).2.2
  simp only [base] at hend
  have hsub : BitVec.ofNat 64 (p.stackBase + p.poolSize) - BitVec.ofNat 64 (8 * k)
      = BitVec.ofNat 64 (p.stackBase + p.poolSize - 8 * k) := by
    rw [sub_eq_iff_eq_add, ← BitVec.ofNat_add, Nat.sub_add_cancel (by omega)]
  rw [hsub, BitVec.toNat_ofNat, Nat.mod_eq_of_lt (by omega)]

theorem isStackCell_below_stackEnd {p : Params} (hp : p.wf = true) {k : Nat} (hk : 1 ≤ k) (hk' : k ≤ 6) :
    IsStackCell p (BitVec.ofNat 64 (p.stackBase + p.poolSize) - BitVec.ofNat 64 (8 * k)) := by
  obtain ⟨hmod, hpool, hb, -⟩ := (Params.wf_iff p).mp hp
  have hbase := (hb .stack).1
  simp only [base] at hbase
  unfold IsStackCell
  rw [toNat_below_stackEnd hp hk hk']
  omega

/-- R236: setup_entry is five pushes, the last after a write of bp. -/
theorem setupEntry_of_pushes {s s1 s2 s3 s4 s5 : State} {e argc argv : Word}
    (he : BitVec.ofNat 64 (s.par.stackBase + s.par.poolSize) = e) (h1 : ((s.setSp e).setBp e).push 38 = .ok s1)
    (h2 : s1.push 13 = .ok s2) (h3 : s2.push argc = .ok s3) (h4 : s3.push argv = .ok s4)
    (h5 : (s4.setBp s4.sp).push s2.sp = .ok s5) (entry : Word) :
    s.setupEntry entry argc argv = .ok (s5.setPc entry) := by
  unfold State.setupEntry
  simp only [he]
  rw [access_bind_of_ok h1, access_bind_of_ok h2, access_bind_of_ok h3, access_bind_of_ok h4, access_bind_of_ok h5]
  rfl

/-- R236: the states the five pushes go through, `e` being the stack's end: each is to the cell below the last. -/
structure StubPushed (e argc argv : Word) (s s1 s2 s3 s4 s5 : State) : Prop where
  first : Pushed (e - 8) 38 ((s.setSp e).setBp e) s1
  second : Pushed (e - 16) 13 s1 s2
  third : Pushed (e - 24) argc s2 s3
  fourth : Pushed (e - 32) argv s3 s4
  fifth : Pushed (e - 40) (e - 16) (s4.setBp s4.sp) s5

/-- R236: none of the five pushes can fail. -/
theorem setupEntry_ok {s : State} (hp : s.par.wf = true) {e : Word}
    (he : BitVec.ofNat 64 (s.par.stackBase + s.par.poolSize) = e) (entry argc argv : Word) :
    ∃ s1 s2 s3 s4 s5, StubPushed e argc argv s s1 s2 s3 s4 s5
      ∧ s.setupEntry entry argc argv = .ok (s5.setPc entry) := by
  have cell (k : Nat) (hk : 1 ≤ k) (hk' : k ≤ 6) : IsStackCell s.par (e - BitVec.ofNat 64 (8 * k)) :=
    he ▸ isStackCell_below_stackEnd hp hk hk'
  have below (x y z : Word) (h : x + y = z) : e - x - y = e - z := by rw [sub_sub, h]
  obtain ⟨s1, h1, p1⟩ := pushed_cell (s := (s.setSp e).setBp e) hp (a := e - 8) rfl (cell 1 (by omega) (by omega)) 38
  have par1 : s1.par = s.par := p1.par
  obtain ⟨s2, h2, p2⟩ := pushed_cell (s := s1) (a := e - 16) (par1 ▸ hp) (by rw [p1.sp]; exact below 8 8 16 rfl)
    (par1 ▸ cell 2 (by omega) (by omega)) 13
  have par2 : s2.par = s.par := p2.par.trans par1
  obtain ⟨s3, h3, p3⟩ := pushed_cell (s := s2) (a := e - 24) (par2 ▸ hp) (by rw [p2.sp]; exact below 16 8 24 rfl)
    (par2 ▸ cell 3 (by omega) (by omega)) argc
  have par3 : s3.par = s.par := p3.par.trans par2
  obtain ⟨s4, h4, p4⟩ := pushed_cell (s := s3) (a := e - 32) (par3 ▸ hp) (by rw [p3.sp]; exact below 24 8 32 rfl)
    (par3 ▸ cell 4 (by omega) (by omega)) argv
  have par4 : (s4.setBp s4.sp).par = s.par := p4.par.trans par3
  obtain ⟨s5, h5, p5⟩ := pushed_cell (s := s4.setBp s4.sp) (a := e - 40) (par4 ▸ hp)
    (by rw [State.setBp_sp, p4.sp]; exact below 32 8 40 rfl) (par4 ▸ cell 5 (by omega) (by omega)) s2.sp
  exact ⟨s1, s2, s3, s4, s5, ⟨p1, p2, p3, p4, p2.sp ▸ p5⟩, setupEntry_of_pushes he h1 h2 h3 h4 h5 entry⟩

section
variable {e argc argv : Word} {s s1 s2 s3 s4 s5 : State}

theorem StubPushed.frame (h : StubPushed e argc argv s s1 s2 s3 s4 s5) : StackAndPointersOnly s s5 :=
  have start : StackAndPointersOnly s ((s.setSp e).setBp e) := ⟨_, _, _, _, rfl⟩
  have bp : StackAndPointersOnly s4 (s4.setBp s4.sp) := ⟨_, _, _, _, rfl⟩
  ((((start.trans h.first.frame).trans h.second.frame).trans h.third.frame).trans h.fourth.frame).trans
    (bp.trans h.fifth.frame)

/-- R236: each cell still holds what was pushed to it, as every later push went to another. -/
theorem StubPushed.reads (h : StubPushed e argc argv s s1 s2 s3 s4 s5) :
    s5.stackRead (e - 8) = .ok 38 ∧ s5.stackRead (e - 16) = .ok 13 ∧ s5.stackRead (e - 24) = .ok argc
      ∧ s5.stackRead (e - 32) = .ok argv ∧ s5.stackRead (e - 40) = .ok (e - 16) := by
  obtain ⟨p1, p2, p3, p4, p5⟩ := h
  have differ (x y : Word) (h : x ≠ y) : e - x ≠ e - y := fun hc => h (sub_right_inj.mp hc)
  have read4 {b : Word} (hb : b ≠ e - 40) : s5.stackRead b = s4.stackRead b :=
    (p5.others b hb).trans (stackRead_setBp s4 _ b)
  have read3 {b : Word} (hb : b ≠ e - 40) (hb' : b ≠ e - 32) : s5.stackRead b = s3.stackRead b :=
    (read4 hb).trans (p4.others b hb')
  have read2 {b : Word} (hb : b ≠ e - 40) (hb' : b ≠ e - 32) (hb'' : b ≠ e - 24) : s5.stackRead b = s2.stackRead b :=
    (read3 hb hb').trans (p3.others b hb'')
  refine ⟨?_, ?_, ?_, ?_, p5.top⟩
  · rw [read2 (differ 8 40 (by decide)) (differ 8 32 (by decide)) (differ 8 24 (by decide)),
      p2.others _ (differ 8 16 (by decide)), p1.top]
  · rw [read2 (differ 16 40 (by decide)) (differ 16 32 (by decide)) (differ 16 24 (by decide)), p2.top]
  · rw [read3 (differ 24 40 (by decide)) (differ 24 32 (by decide)), p3.top]
  · rw [read4 (differ 32 40 (by decide)), p4.top]

/-- R236: the five cells are the forty bytes below the stack's end. -/
theorem StubPushed.outside (h : StubPushed e argc argv s s1 s2 s3 s4 s5) (hp : s.par.wf = true)
    (he : BitVec.ofNat 64 (s.par.stackBase + s.par.poolSize) = e) : BytesKeptOutside (e - 40) 40 s s5 := by
  obtain ⟨p1, p2, p3, p4, p5⟩ := h
  intro x hx
  obtain ⟨-, hpool, -⟩ := (Params.wf_iff _).mp hp
  have addr (k : Nat) (hk : 1 ≤ k) (hk' : k ≤ 6) :
      (e - BitVec.ofNat 64 (8 * k)).toNat = s.par.stackBase + s.par.poolSize - 8 * k :=
    he ▸ toNat_below_stackEnd hp hk hk'
  have a1 : (e - 8).toNat = _ := addr 1 (by omega) (by omega)
  have a2 : (e - 16).toNat = _ := addr 2 (by omega) (by omega)
  have a3 : (e - 24).toNat = _ := addr 3 (by omega) (by omega)
  have a4 : (e - 32).toNat = _ := addr 4 (by omega) (by omega)
  have a5 : (e - 40).toNat = _ := addr 5 (by omega) (by omega)
  rw [p5.outside x (by omega), byteAt_setBp, p4.outside x (by omega), p3.outside x (by omega),
    p2.outside x (by omega), p1.outside x (by omega), byteAt_setBp, byteAt_setSp]

end

/-- Settles O59: the five pushes go to the five highest cells of the stack segment; then pc is written. -/
theorem setupEntryBuildsStub : Obligations.SetupEntryBuildsStub := by
  unfold Obligations.SetupEntryBuildsStub
  intro s entry argc argv hp e
  obtain ⟨s1, s2, s3, s4, s5, h, hok⟩ := setupEntry_ok hp rfl entry argc argv
  have read (b : Word) : (s5.setPc entry).stackRead b = s5.stackRead b := stackRead_congr rfl rfl b
  have pc : StackAndPointersOnly s5 (s5.setPc entry) := ⟨_, _, _, _, rfl⟩
  obtain ⟨r1, r2, r3, r4, r5⟩ := h.reads
  exact ⟨s5.setPc entry, hok, rfl, h.fifth.sp, h.fifth.bp.trans h.fourth.sp, (read _).trans r1, (read _).trans r2,
    (read _).trans r3, (read _).trans r4, (read _).trans r5,
    fun x hx => by rw [byteAt_setPc, h.outside hp rfl x hx], (h.frame.trans pc).eq⟩

/-! ### disassemble -/

/-- R237: the code segment holds the cells from cell `k` on. -/
def HoldsCells (s : State) (k : Nat) (cells : List Word) : Prop :=
  ∀ j < cells.length, some (s.codeCell (k + j)) = cells[j]?

theorem holdsCells_append {s : State} {k : Nat} {xs ys : List Word} (h : HoldsCells s k (xs ++ ys)) :
    HoldsCells s k xs ∧ HoldsCells s (k + xs.length) ys := by
  refine ⟨fun j hj => ?_, fun j hj => ?_⟩
  · rw [h j (by rw [List.length_append]; omega), List.getElem?_append_left hj]
  · rw [Nat.add_assoc, h (xs.length + j) (by rw [List.length_append]; omega),
      List.getElem?_append_right (Nat.le_add_right _ _), Nat.add_sub_cancel_left]

theorem holdsCells_cons {s : State} {k : Nat} {v : Word} {vs : List Word} (h : HoldsCells s k (v :: vs)) :
    s.codeCell k = v ∧ HoldsCells s (k + 1) vs := by
  obtain ⟨hfirst, hrest⟩ := holdsCells_append (xs := [v]) h
  exact ⟨Option.some.inj (hfirst 0 (by simp)), hrest⟩

theorem disassembleFrom_end {s : State} {k : Nat} (h : s.opCounter ≤ k) (fuel : Nat) : s.disassembleFrom k fuel = [] := by
  cases fuel with
  | zero => rfl
  | succ fuel => rw [State.disassembleFrom, if_pos h]

/-- R237: an opcode cell whose operand is not committed. -/
theorem disassembleFrom_cut {s : State} {k : Nat} (hk : k < s.opCounter)
    (hcut : s.opCounter < k + widthCells (s.codeCell k)) (fuel : Nat) :
    s.disassembleFrom k (fuel + 1) = [.incomplete k (s.codeCell k)] := by
  rw [State.disassembleFrom, if_neg (by omega)]
  simp only [if_pos hcut]

/-- R237: a whole item, instruction or not, then the rest. -/
theorem disassembleFrom_item {s : State} {k : Nat} {x : CodeItem} (hx : ∀ c, x = .unknown c → validOpcode c = false)
    (hcells : HoldsCells s k x.cells) (hk : k + x.cells.length ≤ s.opCounter) (fuel : Nat) :
    s.disassembleFrom k (fuel + 1) = x.entry k :: s.disassembleFrom (k + x.cells.length) fuel := by
  cases x with
  | unknown c =>
    obtain ⟨hc, -⟩ := holdsCells_cons hcells
    have hv := hx c rfl
    have hw : widthCells c = 1 := by
      unfold widthCells
      rw [if_neg]
      rintro ⟨hlow, hhigh⟩
      rw [(validOpcode_iff c).mpr ⟨hlow, by omega⟩] at hv
      simp at hv
    have hm : mnemonicOf c = none := by simp [mnemonicOf, hv]
    have hlen : (CodeItem.unknown c).cells.length = 1 := rfl
    rw [State.disassembleFrom, if_neg (by omega)]
    simp only [hc, hw, hm, hlen] at hk ⊢
    rw [if_neg (by omega)]; rfl
  | instr i =>
    obtain ⟨hop, hrest⟩ := holdsCells_cons (vs := i.operand.toList) hcells
    obtain ⟨m, hm⟩ := mnemonic_isSome i
    have hlen : (CodeItem.instr i).cells.length = widthCells i.opcode := by
      rw [width_opcode]; exact length_encode i
    have hoperand : (if widthCells i.opcode = 2 then some (s.codeCell (k + 1)) else none) = i.operand := by
      rw [width_opcode, Instr.width]
      cases ho : i.operand with
      | none => rfl
      | some w =>
        rw [ho] at hrest
        rw [(holdsCells_cons hrest).1]; rfl
    have hpos : 1 ≤ widthCells i.opcode := by unfold widthCells; split <;> omega
    rw [hlen] at hk ⊢
    rw [State.disassembleFrom, if_neg (by omega)]
    simp only [hop, hm, hoperand]
    rw [if_neg (by omega), CodeItem.entry, hm]; rfl

theorem length_cells_pos (x : CodeItem) : 1 ≤ x.cells.length := by
  cases x with
  | unknown c => exact Nat.le_refl 1
  | instr i => rw [CodeItem.cells, encode, List.length_cons]; omega

/-- R237: the disassembly of items and a cut-off end, by induction on the items, from any cell on. -/
theorem disassembleFrom_items {s : State} {cut : Option Word} (hcut : ∀ op ∈ cut, widthCells op = 2)
    {items : List CodeItem} (hitems : ∀ c, CodeItem.unknown c ∈ items → validOpcode c = false) {k fuel : Nat}
    (hend : s.opCounter = k + (items.flatMap CodeItem.cells ++ cut.toList).length)
    (hcells : HoldsCells s k (items.flatMap CodeItem.cells ++ cut.toList)) (hfuel : s.opCounter ≤ k + fuel) :
    s.disassembleFrom k fuel = listingOf cut k items := by
  induction items generalizing k fuel with
  | nil =>
    cases cut with
    | none => exact disassembleFrom_end (by simp at hend; omega) fuel
    | some op =>
      simp only [List.flatMap_nil, List.nil_append, Option.toList_some, List.length_singleton] at hend hcells
      obtain ⟨hop, -⟩ := holdsCells_cons hcells
      obtain ⟨n, rfl⟩ : ∃ n, fuel = n + 1 := ⟨fuel - 1, by omega⟩
      rw [disassembleFrom_cut (by omega) (by rw [hop, hcut op rfl]; omega), hop]; rfl
  | cons x xs ih =>
    rw [List.flatMap_cons, List.append_assoc] at hend hcells
    rw [List.length_append] at hend
    obtain ⟨hfirst, hrest⟩ := holdsCells_append hcells
    have hpos := length_cells_pos x
    obtain ⟨n, rfl⟩ : ∃ n, fuel = n + 1 := ⟨fuel - 1, by omega⟩
    rw [disassembleFrom_item (fun c hc => hitems c (hc ▸ List.mem_cons_self)) hfirst (by omega)]
    rw [ih (fun c hc => hitems c (List.mem_cons_of_mem _ hc)) (by omega) hrest (by omega)]; rfl

/-- Settles O60: the walk starts at cell 0, with as much fuel as there are cells. -/
theorem disassembleListsProgram : Obligations.DisassembleListsProgram := by
  unfold Obligations.DisassembleListsProgram
  intro s items cut hitems hcut cells hlen hcells
  refine disassembleFrom_items (fun op hop => (widthCells_eq_two_iff op).mpr (hcut op hop)) (fun c hc => ?_)
    (by rw [Nat.zero_add]; exact hlen) (fun j hj => ?_) (Nat.le_add_left _ _)
  · rw [← Bool.not_eq_true, validOpcode_iff]; exact hitems c hc
  · rw [Nat.zero_add]; exact hcells j (hj.trans_eq hlen.symm)

end Sys2Proof.Machine
end
